-- ==== Sys2Proof/Word.lean ====
section
/-! DEFINITION. The word types of the CSE: bytes of the frame buffer, 16-bit header fields, 32-bit registers and the
18-bit host byte addresses (`00_scope.md` R11, `10_state.md` R23, `20_memory.md` R60). -/
namespace Sys2Proof

/-- One byte of the frame buffer, or of a transmitted frame (R12). -/
abbrev Byte := BitVec 8

/-- A 16-bit header field, tag or checksum (R34, R37, R131). -/
abbrev Half := BitVec 16

/-- A register, and the host's data bus (R23). -/
abbrev Word := BitVec 32

/-- A host byte address: 0x00000 to 0x3FFFF (R60). -/
abbrev HostAddr := BitVec 18

end Sys2Proof
end

