-- ==== Sys2Proof/Config.lean ====
section
/-! DEFINITION. What one implementation of the CSE fixes (`00_scope.md` R9, R10), and the free values: what the spec leaves
open. A free value is a constant without a body, so a claim is true whatever it is; each is applied to the number of
the draw (`State.draws`), so that no two draws are the same one (`93_implementation_defined.md` I3 to I6, I9 to I11). -/
namespace Sys2Proof

/-- The two parameters of R9 that have a legal range (R10). Every operation of the model that depends on one takes the
configuration as an argument; the machine `step` runs is the one of `Config.hw`. -/
structure Config where
  /-- `BUF_CAP`: the frame buffer's capacity in bytes. -/
  bufCap : Nat
  /-- `L2_HDR_LEN`: bytes in the buffer before the IPv6 header, counted from `RAW_OFFSET`. -/
  l2HdrLen : Nat
deriving DecidableEq, Repr

/-- The values this hardware takes (R9): `BUF_CAP` = 65540, `L2_HDR_LEN` = 0. -/
abbrev Config.hw : Config := { bufCap := 65540, l2HdrLen := 0 }

/-- `IP6_HDR_LEN` (R9). -/
@[simp] abbrev Config.ip6HdrLen : Nat := 40

/-- `UDP_HDR_LEN` (R9). -/
@[simp] abbrev Config.udpHdrLen : Nat := 8

/-- `NH_UDP` (R9): the next-header value for UDP. -/
@[simp] abbrev Config.nhUdp : Nat := 17

/-- `ETHERTYPE_IPV6` (R9, I1: the spec takes the value from general knowledge). -/
@[simp] abbrev Config.etherTypeIPv6 : Half := 0x86DD

/-- `HATYPE_ETHER` (R9, I1: the spec takes the value from general knowledge). -/
@[simp] abbrev Config.haTypeEther : Half := 1

/-- `ALIGN` (R9): alignment of the IPv6 header's start in the buffer. -/
@[simp] abbrev Config.align : Nat := 4

/-- `BUF_BASE` (R9): host address of buffer byte 0. -/
@[simp] abbrev Config.bufBase : Nat := 0x20000

/-- The transmitter's answer to one frame (R183). -/
inductive TxOutcome
  | ok     -- TX_OK: the whole frame was accepted
  | fail   -- TX_FAIL: all, part or none of it left (R185)
deriving DecidableEq, Repr, Inhabited

/-- FREE VALUE: what draw number `d` of an `UNSPEC` byte yields (R12, I3). Log entry 1. -/
opaque Config.freeByte : Nat → Byte

/-- FREE VALUE: what draw number `d` of a host read while busy yields (R68, I6). Log entry 11. -/
opaque Config.freeWord : Nat → Word

/-- FREE VALUE: the checksum over bytes of which one is `UNSPEC`, less 1, so that it ranges over 0x0001..0xFFFF
(R138, I4). Log entry 6. -/
opaque Config.freeCsum : Nat → Fin 0xFFFF

/-- FREE VALUE, the parameter `TX_OUTCOME` of R9: the transmitter's answer at draw number `d` (R183, I9). Log entry 7. -/
opaque Config.txOutcome : Nat → TxOutcome

/-- FREE VALUE: whether byte `k` of a frame left, when the transmission at draw number `d` failed (R185, I10) or was cut
off by a reset (R232, I11). Log entries 7 and 8. -/
opaque Config.freeLeft : Nat → Nat → Bool

end Sys2Proof
end

