-- ==== Sys2Proof/Machine/State.lean ====
section
/-! DEFINITION. The state of the CSE (`10_state.md` R20), the inputs its environment gives it, what can be observed of it,
and why a step can stop. -/
namespace Sys2Proof.Machine

/-- The frame buffer `B` (R42), as the sorted list of the buffer indices that hold a byte value. A buffer index that is
not listed holds the mark `UNSPEC` (`00_scope.md` R12), which no listed cell can hold; so the form is canonical when the
indices rise strictly (`Memory.wf`). -/
abbrev Memory := List Host.Cell

/-- The error codes of `60_exceptions.md` R201. No other value of `ERRCODE` is ever produced. -/
inductive ErrCode
  | ok
  | badCmd
  | rawRange
  | notIpv6
  | notEther
  | noRoom
  | ip6Trunc
  | ip6Plen
  | notUdp
  | udpLen
  | badCsum
  | noView
  | spliceOffset
  | spliceBefore
  | spliceCapacity
  | fieldOvf
  | txError
deriving DecidableEq, Repr

/-- The engine phase (R43): `BUSY(op)` holds the accepted command word. -/
inductive Phase
  | idle
  | busy (op : Word)
deriving DecidableEq, Repr

/-- The transmitter hand-off state (R44). -/
inductive TxState
  | idle
  | pending (frame : List Byte)
deriving DecidableEq, Repr

/-- A host bus transaction (`20_memory.md` R64): `n` bytes at a host address. Every address, width and alignment can be
asked for; the illegal ones are bus errors. -/
inductive BusOp
  | read (addr : HostAddr) (n : Nat)
  | write (addr : HostAddr) (n : Nat) (data : Word)
deriving DecidableEq, Repr

/-- What the environment of the CSE does next (`00_scope.md` R16): the host performs a transaction, the engine gets its
turn, or `rst` arrives (`70_reset_and_hazards.md` R230). -/
inductive Input
  | bus (t : BusOp)
  | engine
  | rst
deriving DecidableEq, Repr

/-- What can be observed (`00_scope.md` R17): the value a host read returned; a frame handed to the transmitter, with the
outcome and what left (`43_send.md` R183, R185); what left of a SEND that a reset cut off (R232). -/
inductive Obs
  | read (v : Word)
  | frame (bytes : List Byte) (outcome : TxOutcome) (left : List Byte)
  | aborted (left : List Byte)
deriving DecidableEq, Repr

/-- The machine's state. The first fields are R20's; `draws`, `inputs` and `obs` are the model's own (log entries 2 to 4).
`CAPACITY` is hardwired to the configuration and `CMD` reads 0, so neither has a field (log entry 17). -/
structure State where
  /-- The frame buffer `B` (R42). -/
  mem : Memory
  /-- `CTRL.IE` (R26). -/
  ie : Bool
  /-- `STATUS.DONE` (R27). -/
  done : Bool
  /-- `STATUS.ERR` (R27). -/
  err : Bool
  /-- `STATUS.VIEW_VALID` (R27). -/
  viewValid : Bool
  /-- `STATUS.OVR` (R27). -/
  ovr : Bool
  /-- `STATUS.ERRCODE` (R27, R201). -/
  errCode : ErrCode
  /-- `ARG0` (R30). -/
  arg0 : Word
  /-- `ARG1` (R31). -/
  arg1 : Word
  /-- `RAW_OFFSET` (R32). -/
  rawOffset : Word
  /-- `RAW_LENGTH` (R33). -/
  rawLength : Word
  /-- `RX_META` (R34). -/
  rxMeta : Word
  /-- `IP6_POS` (R36). -/
  ip6Pos : Word
  /-- `UDP_POS` (R36). -/
  udpPos : Word
  /-- `PAYLOAD_POS` (R36). -/
  payloadPos : Word
  /-- `PAYLOAD_LEN` (R36). -/
  payloadLen : Word
  /-- `CSUM.VALUE` (R37); bits 31..16 of the register read 0. -/
  csum : Half
  /-- `SPLICE_POS` (R38). -/
  splicePos : Word
  /-- The engine phase (R43); `STATUS.BUSY` is read from it. -/
  phase : Phase
  /-- The transmitter hand-off state (R44). -/
  tx : TxState
  /-- The model's own: how many free values have been drawn (log entry 2). -/
  draws : Nat
  /-- The model's own: what the environment does next, first first (log entry 3). -/
  inputs : List Input
  /-- The model's own: what was observed, newest first (log entry 4). -/
  obs : List Obs
deriving DecidableEq, Repr

/-- Why a step stops with a fault. -/
inductive Fault
  /-- Raised by a host transaction that R64 calls a bus error. Safe: the spec asks for this fault (R64, I8), and no CSE
  state changes. -/
  | busError
  /-- Raised by a legal host buffer write while `STATUS.BUSY` = 1. Safe: the spec asks for this fault (R68, I7). -/
  | bufferWriteWhileBusy
  /-- Raised by CSUM, SPLICE or SEND where an access would leave the buffer, which R69 says no command does: only a state
  that breaks R45 raises it. Safe. Log entry 9. -/
  | engineOutsideBuffer
deriving DecidableEq, Repr

/-- Why the model gives a step no meaning. -/
inductive Refusal
  /-- Raised by `exec` for a command that has no meaning yet; no command is refused now. Safe. -/
  | notModelled (mnemonic : String)
deriving DecidableEq, Repr

/-- The outcome of one step. -/
abbrev StepOutcome := Host.Outcome State Fault Refusal

/-- R47, R230: every register 0 (`CAPACITY` is hardwired), every buffer byte `UNSPEC`, the engine `IDLE`, the transmitter
`TX_IDLE`; no free value drawn, no input given, nothing observed (log entries 2 to 4). -/
def State.reset : State where
  mem := []
  ie := false
  done := false
  err := false
  viewValid := false
  ovr := false
  errCode := .ok
  arg0 := 0
  arg1 := 0
  rawOffset := 0
  rawLength := 0
  rxMeta := 0
  ip6Pos := 0
  udpPos := 0
  payloadPos := 0
  payloadLen := 0
  csum := 0
  splicePos := 0
  phase := .idle
  tx := .idle
  draws := 0
  inputs := []
  obs := []

end Sys2Proof.Machine
end

