-- ==== Sys2Proof/Machine/Ops.lean ====
section
/-! DEFINITION. The operations every command is written over: the frame buffer's reads, writes and moves (`00_scope.md`
R12, R14), the draws of free values, `Invalidate()` (`10_state.md` R35), and the completion of a command, with or
without an error (`60_exceptions.md` R205, R206). -/
namespace Sys2Proof.Machine

/-! ### The frame buffer -/

/-- `B[i]`: the byte a buffer index holds, or nothing when it is marked `UNSPEC` (R12). -/
def Memory.byteAt : Memory → Nat → Option Byte
  | [], _ => none
  | (a, b) :: m, i => if a = i then some b else Memory.byteAt m i

/-- Replaces the cells of the `len` indices from `lo` by `cells` (which must lie there). -/
def Memory.patch (m : Memory) (lo len : Nat) (cells : Memory) : Memory :=
  m.filter (fun c => decide (c.1 < lo)) ++ cells ++ m.filter (fun c => decide (lo + len ≤ c.1))

/-- Marks the `len` bytes from `lo` `UNSPEC`. -/
def Memory.clear (m : Memory) (lo len : Nat) : Memory := m.patch lo len []

/-- The cells that hold the bytes `bs` from index `i` on. -/
def Memory.cells (i : Nat) : List Byte → Memory
  | [] => []
  | b :: bs => (i, b) :: Memory.cells (i + 1) bs

/-- Stores the bytes `bs` from index `i` on. -/
def Memory.store (m : Memory) (i : Nat) (bs : List Byte) : Memory := m.patch i bs.length (Memory.cells i bs)

/-- `MemMove(dst, src, len)` of R12: the mark `UNSPEC` is copied like a value, and the source bytes that the destination
does not cover become `UNSPEC`. -/
def Memory.move (m : Memory) (dst src len : Nat) : Memory :=
  (m.clear src len).patch dst len
    ((m.filter (fun c => decide (src ≤ c.1) && decide (c.1 < src + len))).map (fun c => (c.1 - src + dst, c.2)))

/-- The canonical form: the listed indices rise strictly and lie in the buffer. (No cell can hold the mark `UNSPEC`, which
is what an unlisted index reads as.) -/
abbrev Memory.wf (cap : Nat) (m : Memory) : Prop :=
  m.Pairwise (fun x y => x.1 < y.1) ∧ ∀ c ∈ m, c.1 < cap

/-! ### Byte order: most significant byte at the lowest index (R12, R14, R65) -/

/-- The big-endian value of a byte string. -/
def beValue (bs : List Byte) : Nat := bs.foldl (fun v b => 256 * v + b.toNat) 0

/-- The `n` low bytes of `v`, most significant first. -/
def beBytes : Nat → Nat → List Byte
  | 0, _ => []
  | n + 1, v => BitVec.ofNat 8 (v / 256 ^ n) :: beBytes n v

/-! ### Reading, with a fresh draw for each `UNSPEC` byte (R12, I3; log entry 1) -/

/-- Reads one byte, the draws numbered from `d`; answers the number of the next draw too. -/
def Memory.readByte (m : Memory) (d i : Nat) : Byte × Nat :=
  match m.byteAt i with
  | some b => (b, d)
  | none => (Config.freeByte d, d + 1)

/-- Reads `n` bytes from index `i` on, in increasing index order. -/
def Memory.readBytes (m : Memory) : Nat → Nat → Nat → List Byte × Nat
  | d, _, 0 => ([], d)
  | d, i, n + 1 =>
    let b := m.readByte d i
    let bs := Memory.readBytes m b.2 (i + 1) n
    (b.1 :: bs.1, bs.2)

/-- The `n` bytes from index `i` on, if none of them is `UNSPEC`. -/
def Memory.bytesAt (m : Memory) : Nat → Nat → Option (List Byte)
  | _, 0 => some []
  | i, n + 1 =>
    match m.byteAt i, Memory.bytesAt m (i + 1) n with
    | some b, some bs => some (b :: bs)
    | _, _ => none

/-- `n` bytes of the buffer from index `i` on, as they are read now (R182). -/
def State.readBytes (s : State) (i n : Nat) : List Byte × State :=
  let r := s.mem.readBytes s.draws i n
  (r.1, { s with draws := r.2 })

/-- `MemRead(i, n)` (R12). -/
def State.memRead (s : State) (i n : Nat) : Nat × State :=
  let r := s.readBytes i n
  (beValue r.1, r.2)

/-- `MemWrite(i, n, v)` (R12). -/
def State.memWrite (s : State) (i n v : Nat) : State := { s with mem := s.mem.store i (beBytes n v) }

/-- `MemMove(dst, src, len)` (R12). -/
def State.memMove (s : State) (dst src len : Nat) : State := { s with mem := s.mem.move dst src len }

/-- `B[j] <- UNSPEC` for the `len` bytes from `lo` on. -/
def State.memUnspec (s : State) (lo len : Nat) : State := { s with mem := s.mem.clear lo len }

/-- Whether the `n` bytes from index `i` on lie in the buffer (R12: `i + n <= BUF_CAP`). -/
def inBuffer (c : Config) (i n : Nat) : Bool := decide (i + n ≤ c.bufCap)

/-- A free 32-bit value: what a host read yields while busy (R68, I6). -/
def State.drawWord (s : State) : Word × State := (Config.freeWord s.draws, { s with draws := s.draws + 1 })

/-! ### Registers -/

/-- `Invalidate()` (R35). -/
def State.invalidate (s : State) : State :=
  { s with viewValid := false, ip6Pos := 0, udpPos := 0, payloadPos := 0, payloadLen := 0 }

/-- Records what the host or the transmitter observes (R17). -/
def State.observe (s : State) (o : Obs) : State := { s with obs := o :: s.obs }

/-! ### Completion (R205). The CSE has no traps (R200): an error is recorded, nothing is saved and nothing redirected. -/

/-- R205: the command in progress completes with an error code (`ok` for none). `VIEW_VALID` and `OVR` stay. -/
def State.complete (s : State) (e : ErrCode) : State :=
  { s with errCode := e, err := decide (e ≠ .ok), done := true, phase := .idle }

/-- `raise Error(code)` (R13, R206): every write made before it stands. -/
def raise (s : State) (e : ErrCode) : StepOutcome := .next (s.complete e)

/-- `complete()` (R13): the command ends with no error. -/
def finish (s : State) : StepOutcome := .next (s.complete .ok)

end Sys2Proof.Machine
end

