-- ==== Sys2Proof/Machine/Flags.lean ====
section
/-! DEFINITION. The status register and its flags (`10_state.md` R27, R28, R41, R46), the error codes' numbers
(`60_exceptions.md` R201), the acceptance of a command (`30_encoding.md` R84) and the interrupt output (R208). -/
namespace Sys2Proof.Machine

/-- The value of `STATUS.ERRCODE` (R201). -/
def ErrCode.code : ErrCode → BitVec 8
  | .ok => 0x00
  | .badCmd => 0x01
  | .rawRange => 0x02
  | .notIpv6 => 0x03
  | .notEther => 0x04
  | .noRoom => 0x05
  | .ip6Trunc => 0x06
  | .ip6Plen => 0x07
  | .notUdp => 0x08
  | .udpLen => 0x09
  | .badCsum => 0x0A
  | .noView => 0x10
  | .spliceOffset => 0x11
  | .spliceBefore => 0x12
  | .spliceCapacity => 0x13
  | .fieldOvf => 0x14
  | .txError => 0x20

/-- `STATUS.BUSY`: 1 exactly when the engine phase is `BUSY` (R43). -/
def State.busy (s : State) : Bool :=
  match s.phase with
  | .idle => false
  | .busy _ => true

/-- One flag as a bit. -/
def flagBit (f : Bool) : BitVec 1 := BitVec.ofBool f

/-- The word `STATUS` reads as (R27): reserved, `ERRCODE` 15..8, reserved 7..5, `OVR`, `VIEW_VALID`, `ERR`, `DONE`,
`BUSY`. -/
def State.statusWord (s : State) : Word :=
  (0 : BitVec 16) ++ s.errCode.code ++ (0 : BitVec 3) ++ flagBit s.ovr ++ flagBit s.viewValid ++ flagBit s.err
    ++ flagBit s.done ++ flagBit s.busy

/-- The word `CTRL` reads as (R26): `IE` in bit 0, the rest reserved. -/
def State.ctrlWord (s : State) : Word := (0 : BitVec 31) ++ flagBit s.ie

/-- The level output `irq_done` (R208). -/
def State.irqDone (s : State) : Bool := s.done && s.ie

/-- A host write to `STATUS` (R28): `DONE` and `OVR` are cleared by writing 1, busy or not. -/
def State.writeStatus (s : State) (v : Word) : State :=
  { s with done := s.done && !v.getLsbD 1, ovr := s.ovr && !v.getLsbD 4 }

/-- A host write to `CTRL` (R26), busy or not. -/
def State.writeCtrl (s : State) (v : Word) : State := { s with ie := v.getLsbD 0 }

/-- A host write that is ignored because the engine is busy (R41): only `OVR` is set. -/
def State.ignoredWrite (s : State) : State := { s with ovr := true }

/-- R84: a command word is accepted. -/
def State.acceptCmd (s : State) (w : Word) : State :=
  { s with phase := .busy w, done := false, err := false, errCode := .ok }

end Sys2Proof.Machine
end

