-- ==== Sys2Proof/Machine/Bus.lean ====
section
/-! DEFINITION. The host bus: the register map (`10_state.md` R24 to R41), the address map and the host's transactions
(`20_memory.md` R60 to R68). -/
namespace Sys2Proof.Machine

/-- The fifteen registers of R24, and the reserved offsets of R39. -/
inductive Reg
  | capacity
  | ctrl
  | status
  | cmd
  | arg0
  | arg1
  | rawOffset
  | rawLength
  | rxMeta
  | ip6Pos
  | udpPos
  | payloadPos
  | payloadLen
  | csum
  | splicePos
  | reserved
deriving DecidableEq, Repr

/-- The register at an offset of the register window (R24); 0x3C to 0xFC are reserved (R39). -/
def regAt (o : Nat) : Reg :=
  match o with
  | 0x00 => .capacity
  | 0x04 => .ctrl
  | 0x08 => .status
  | 0x0C => .cmd
  | 0x10 => .arg0
  | 0x14 => .arg1
  | 0x18 => .rawOffset
  | 0x1C => .rawLength
  | 0x20 => .rxMeta
  | 0x24 => .ip6Pos
  | 0x28 => .udpPos
  | 0x2C => .payloadPos
  | 0x30 => .payloadLen
  | 0x34 => .csum
  | 0x38 => .splicePos
  | _ => .reserved

/-- The offset of a register (R24); for a reserved one, the first reserved offset (R39). -/
def Reg.offset : Reg → Nat
  | .capacity => 0x00
  | .ctrl => 0x04
  | .status => 0x08
  | .cmd => 0x0C
  | .arg0 => 0x10
  | .arg1 => 0x14
  | .rawOffset => 0x18
  | .rawLength => 0x1C
  | .rxMeta => 0x20
  | .ip6Pos => 0x24
  | .udpPos => 0x28
  | .payloadPos => 0x2C
  | .payloadLen => 0x30
  | .csum => 0x34
  | .splicePos => 0x38
  | .reserved => 0x3C

/-- What a legal transaction reaches: a register, or `n` bytes from buffer index `i` on. -/
inductive BusTarget
  | reg (r : Reg)
  | buf (i n : Nat)
deriving DecidableEq, Repr

/-- The address map (R61) with the access rules (R62, R64, R66); nothing is a bus error. -/
def busTarget (c : Config) (addr : HostAddr) (n : Nat) : Option BusTarget :=
  let a := addr.toNat
  if a < 0x100 then
    if n = 4 ∧ a % 4 = 0 then some (.reg (regAt a)) else none
  else if Config.bufBase ≤ a then
    let i := a - Config.bufBase
    if (n = 1 ∨ n = 2 ∨ n = 4) ∧ i % n = 0 ∧ i + n ≤ c.bufCap then some (.buf i n) else none
  else none

/-- The value a register holds for a host read (R24 to R39). -/
def State.regValue (c : Config) (s : State) : Reg → Word
  | .capacity => BitVec.ofNat 32 c.bufCap
  | .ctrl => s.ctrlWord
  | .status => s.statusWord
  | .cmd => 0
  | .arg0 => s.arg0
  | .arg1 => s.arg1
  | .rawOffset => s.rawOffset
  | .rawLength => s.rawLength
  | .rxMeta => s.rxMeta
  | .ip6Pos => s.ip6Pos
  | .udpPos => s.udpPos
  | .payloadPos => s.payloadPos
  | .payloadLen => s.payloadLen
  | .csum => s.csum.setWidth 32
  | .splicePos => s.splicePos
  | .reserved => 0

/-- Whether a read of the register is exact while `STATUS.BUSY` = 1: `STATUS` and `CTRL` (R68), and the reserved offsets,
which read 0 busy or not (R39; log entry 11). -/
def Reg.exactWhileBusy : Reg → Bool
  | .ctrl => true
  | .status => true
  | .reserved => true
  | _ => false

/-- `RegRead(o)` (R64, R67, R68): no side effect on the CSE; while busy most registers yield any value. -/
def State.regRead (c : Config) (s : State) (r : Reg) : Word × State :=
  if s.busy && !r.exactWhileBusy then s.drawWord else (s.regValue c r, s)

/-- A write that is accepted only while the engine is idle (R41). -/
def State.idleWrite (s : State) (accepted : State) : State := if s.busy then s.ignoredWrite else accepted

/-- `RegWrite(o, v)` (R26, R28 to R34, R39 to R41). -/
def State.regWrite (s : State) (r : Reg) (v : Word) : State :=
  match r with
  | .capacity => s
  | .ctrl => s.writeCtrl v
  | .status => s.writeStatus v
  | .cmd => s.idleWrite (s.acceptCmd v)
  | .arg0 => s.idleWrite { s with arg0 := v }
  | .arg1 => s.idleWrite { s with arg1 := v }
  | .rawOffset => s.idleWrite { s.invalidate with rawOffset := v }
  | .rawLength => s.idleWrite { s.invalidate with rawLength := v }
  | .rxMeta => s.idleWrite { s.invalidate with rxMeta := v }
  | .ip6Pos => s
  | .udpPos => s
  | .payloadPos => s
  | .payloadLen => s
  | .csum => s
  | .splicePos => s
  | .reserved => s

/-- `BufRead` (R62, R65): `n` bytes, big-endian, widened with zeros; while busy any 32-bit value (R68, I6). -/
def State.bufRead (s : State) (i n : Nat) : Word × State :=
  if s.busy then s.drawWord
  else
    let r := s.memRead i n
    (BitVec.ofNat 32 r.1, r.2)

/-- `BufWrite` (R62, R65): the `n` low bytes of the data; while busy a fault of the host program (R68, I7). -/
def State.bufWrite (s : State) (i n : Nat) (d : Word) : StepOutcome :=
  if s.busy then .fault .bufferWriteWhileBusy else .next (s.memWrite i n d.toNat)

/-- One host transaction (R64). A bus error changes no state and returns no data. -/
def busStep (c : Config) (t : BusOp) (s : State) : StepOutcome :=
  match t with
  | .read addr n =>
    match busTarget c addr n with
    | none => .fault .busError
    | some (.reg r) => .next ((s.regRead c r).2.observe (.read (s.regRead c r).1))
    | some (.buf i k) => .next ((s.bufRead i k).2.observe (.read (s.bufRead i k).1))
  | .write addr n d =>
    match busTarget c addr n with
    | none => .fault .busError
    | some (.reg r) => .next (s.regWrite r d)
    | some (.buf i k) => s.bufWrite i k d

end Sys2Proof.Machine
end

