-- ==== Sys2Proof/Syntax.lean ====
section
/-! DEFINITION. The commands of the CSE, one constructor per row of `spec/opcode_table.json` (`30_encoding.md` R82). -/
namespace Sys2Proof

/-- The four commands. No command word carries an operand: every operand is read from a register when the command
executes (R83). -/
inductive Instr
  | scan     -- SCAN, R100: validate the received frame and build the parsed view
  | csum     -- CSUM, R140: compute the UDP checksum of the view and write it into the UDP header
  | splice   -- SPLICE, R150: insert or remove payload bytes
  | send     -- SEND, R180: recompute the checksum and hand the frame to the transmitter
deriving DecidableEq, Repr

end Sys2Proof
end

