-- ==== Sys2Proof/WellFormed.lean ====
section
/-! DEFINITION. What is well formed: an instruction (always, since format C has no operand field, `30_encoding.md` R80,
R83) and a configuration (the parameter constraints of `00_scope.md` R10). -/
namespace Sys2Proof

/-- Every command is well formed: its word has no field that could hold an illegal operand (R80, R83). -/
def Instr.wellFormed : Instr → Bool
  | .scan => true
  | .csum => true
  | .splice => true
  | .send => true

/-- R10: 65540 <= `BUF_CAP` <= 131072 and 0 <= `L2_HDR_LEN` <= 64. -/
def Config.legal (c : Config) : Bool :=
  decide (65540 ≤ c.bufCap) && decide (c.bufCap ≤ 131072) && decide (c.l2HdrLen ≤ 64)

end Sys2Proof
end

