-- ==== Sys2Proof/Decode.lean ====
section
/-! DEFINITION. Decoding a command word and encoding a command (`30_encoding.md` R80, R81, R85). -/
namespace Sys2Proof

/-- Why a word is no command (R85). An accepted word of either kind executes as BAD_CMD. -/
inductive BadWord
  | reservedBits   -- RSV (bits 31..8) is not 0
  | illegalOp      -- OP (bits 7..0) is 0x00 or 0x05..0xFF
deriving DecidableEq, Repr

/-- Field `OP` of format C, bits 7..0 (R80). -/
def opField (w : Word) : Byte := w.extractLsb' 0 8

/-- Field `RSV` of format C, bits 31..8 (R80). -/
def rsvField (w : Word) : BitVec 24 := w.extractLsb' 8 24

/-- R81: the command an accepted word stands for. -/
def decode (w : Word) : Except BadWord Instr :=
  if rsvField w ≠ 0 then .error .reservedBits
  else if opField w = 0x01 then .ok .scan
  else if opField w = 0x02 then .ok .csum
  else if opField w = 0x03 then .ok .splice
  else if opField w = 0x04 then .ok .send
  else .error .illegalOp

/-- The instruction the decoder reads from a word whose low `nbits` bits are those of `w` and whose other bits are 0, as
`spec/opcode_table.json` numbers them; a command word is 32 bits and no longer (R80). -/
def decodeTableWord (nbits w : Nat) : Option Instr :=
  if w % 2 ^ nbits < 2 ^ 32 then
    match decode (BitVec.ofNat 32 (w % 2 ^ nbits)) with
    | .ok i => some i
    | .error _ => none
  else none

/-- R80, R82: `OP` of each command. -/
def opOf : Instr → Byte
  | .scan => 0x01
  | .csum => 0x02
  | .splice => 0x03
  | .send => 0x04

/-- The command word: `RSV` = 0 above `OP` (R80). -/
def encode (i : Instr) : Word := (0 : BitVec 24) ++ opOf i

end Sys2Proof
end

