-- ==== Sys2Proof/Machine/BadCmd.lean ====
section
/-! DEFINITION. What an accepted word that is no command does (`30_encoding.md` R85). It has no row in the opcode table. -/
namespace Sys2Proof.Machine

/-- BAD_CMD (R85): no register or buffer byte changes; the command completes with code 0x01. -/
def execBadCmd (s : State) : StepOutcome := raise s .badCmd

end Sys2Proof.Machine
end

