-- ==== Sys2Proof/Machine/Operands.lean ====
section
/-! DEFINITION. Operand assembly (`30_encoding.md` R83): what each command reads from the registers when it executes, as
unbounded integers (`00_scope.md` R11). -/
namespace Sys2Proof.Machine

/-- `sint32(v)` of R11: the two's-complement reading of a 32-bit register. -/
def sint32 (v : Word) : Int := if v.getLsbD 31 then (v.toNat : Int) - 2 ^ 32 else (v.toNat : Int)

/-- `RX_META.PROTO`, bits 15..0 (R34). -/
def State.rxProto (s : State) : Half := s.rxMeta.extractLsb' 0 16

/-- `RX_META.HATYPE`, bits 31..16 (R34). -/
def State.rxHatype (s : State) : Half := s.rxMeta.extractLsb' 16 16

/-- SPLICE's operands (R83, R150): `off` unsigned, `n` signed, the rest unsigned. -/
structure SpliceOperands where
  /-- `off = ARG0`. -/
  off : Nat
  /-- `n = sint32(ARG1)`. -/
  n : Int
  /-- `PAYLOAD_POS`. -/
  pos : Nat
  /-- `PAYLOAD_LEN`. -/
  len : Nat
  /-- `RAW_OFFSET`. -/
  ro : Nat
  /-- `RAW_LENGTH`. -/
  rl : Nat
  /-- `IP6_POS`. -/
  ip : Nat
  /-- `UDP_POS`. -/
  udp : Nat
deriving DecidableEq, Repr

/-- P1 of R150: SPLICE reads its operands. -/
def State.spliceOperands (s : State) : SpliceOperands where
  off := s.arg0.toNat
  n := sint32 s.arg1
  pos := s.payloadPos.toNat
  len := s.payloadLen.toNat
  ro := s.rawOffset.toNat
  rl := s.rawLength.toNat
  ip := s.ip6Pos.toNat
  udp := s.udpPos.toNat

/-- The boundary `b` of R158. -/
def SpliceOperands.b (p : SpliceOperands) : Nat := p.pos + p.off

/-- The end `e` of the valid range, R158. -/
def SpliceOperands.e (p : SpliceOperands) : Nat := p.ro + p.rl

end Sys2Proof.Machine
end

