-- ==== Sys2Proof/Machine/Checksum.lean ====
section
/-! DEFINITION. The function `UdpChecksum` (`41_checksum.md` R130 to R138) and the command CSUM (R140). -/
namespace Sys2Proof.Machine

/-- The exact sum of the 16-bit big-endian words of a byte string; an odd last byte `b` is the word `b << 8` (R131, R132). -/
def sum16 : List Byte → Nat
  | [] => 0
  | [b] => b.toNat * 256
  | a :: b :: rest => a.toNat * 256 + b.toNat + sum16 rest

/-- The sum `S` of R131 over the source address, the destination address, the first six bytes of the UDP header and the
payload. The UDP length (the last two of the six) enters a second time as the 32-bit length of the pseudo-header (R136),
and the next header is the constant `NH_UDP` (R137). -/
def checksumSum (src dst udpHdr payload : List Byte) : Nat :=
  let l := beValue (udpHdr.drop 4)
  sum16 src + sum16 dst + (l / 65536 + l % 65536) + (0x0000 + Config.nhUdp) + sum16 udpHdr + sum16 payload

/-- One fold (R15, R131). -/
def fold16 (s : Nat) : Nat := s % 65536 + s / 65536

/-- The end of R131: two folds, the 16-bit complement, and 0x0000 replaced by 0xFFFF. -/
def checksumOfSum (s : Nat) : Half :=
  let c := ~~~(BitVec.ofNat 16 (fold16 (fold16 s)))
  if c = 0x0000 then 0xFFFF else c

/-- `UdpChecksum(ip, udp, n)` when none of the bytes it reads (R138) is `UNSPEC`. -/
def Memory.checksumAt (m : Memory) (ip udp n : Nat) : Option Half :=
  match m.bytesAt (ip + 8) 16, m.bytesAt (ip + 24) 16, m.bytesAt udp 6, m.bytesAt (udp + Config.udpHdrLen) n with
  | some src, some dst, some hdr, some pay => some (checksumOfSum (checksumSum src dst hdr pay))
  | _, _, _, _ => none

/-- The checksum at draw number `d` when a byte it reads is `UNSPEC`: any value in 0x0001..0xFFFF (R138, I4). -/
def drawnChecksum (d : Nat) : Half := BitVec.ofNat 16 ((Config.freeCsum d).val + 1)

/-- `UdpChecksum(ip, udp, n)` (R131, R138). -/
def State.udpChecksum (s : State) (ip udp n : Nat) : Half × State :=
  match s.mem.checksumAt ip udp n with
  | some c => (c, s)
  | none => (drawnChecksum s.draws, { s with draws := s.draws + 1 })

/-- The body of R140 after the view check, which SEND shares (R181): the checksum of the view is computed, written into
the UDP header and into `CSUM`. -/
def State.embedChecksum (s : State) : State :=
  let r := s.udpChecksum s.ip6Pos.toNat s.udpPos.toNat s.payloadLen.toNat
  { r.2.memWrite (s.udpPos.toNat + 6) 2 r.1.toNat with csum := r.1 }

/-- Whether every byte `embedChecksum` touches lies in the buffer (R69). -/
def State.checksumInBuffer (c : Config) (s : State) : Bool :=
  inBuffer c s.ip6Pos.toNat 40 && inBuffer c s.udpPos.toNat (8 + s.payloadLen.toNat)

/-- CSUM (R140) on a configuration. -/
def csumOn (c : Config) (s : State) : StepOutcome :=
  if !s.viewValid then raise s .noView
  else if !s.checksumInBuffer c then .fault .engineOutsideBuffer
  else finish s.embedChecksum

/-- CSUM (R140). -/
def execCsum (s : State) : StepOutcome := csumOn Config.hw s

end Sys2Proof.Machine
end

