-- ==== Sys2Proof/Machine/Scan.lean ====
section
/-! DEFINITION. The command SCAN (`40_scan.md` R100 to R117), one function per group of steps of R100. -/
namespace Sys2Proof.Machine

/-- S3: where the valid range must start for the IPv6 header to be aligned (R104, R105); nothing when an upward move
would pass `BUF_CAP`. -/
def alignTarget (c : Config) (ro rl : Nat) : Option Nat :=
  let d := (ro + c.l2HdrLen) % Config.align
  if d = 0 then some ro
  else if d ≤ ro then some (ro - d)
  else if c.bufCap < ro + (Config.align - d) + rl then none
  else some (ro + (Config.align - d))

/-- S3: the alignment shift (R105). An aligned frame is not touched. -/
def State.shiftTo (s : State) (nro : Nat) : State :=
  if nro = s.rawOffset.toNat then s
  else { s.memMove nro s.rawOffset.toNat s.rawLength.toNat with rawOffset := BitVec.ofNat 32 nro }

/-- S7 and S8: the checksum and the parsed view (R112, R113, R114). -/
def scanVerify (ip udp ulen : Nat) (s : State) : StepOutcome :=
  let k := s.udpChecksum ip udp (ulen - Config.udpHdrLen)
  let st := { k.2 with csum := k.1 }.memRead (udp + 6) 2
  if k.1.toNat ≠ st.1 then raise st.2 .badCsum
  else finish
    { st.2 with
      ip6Pos := BitVec.ofNat 32 ip
      udpPos := BitVec.ofNat 32 udp
      payloadPos := BitVec.ofNat 32 (udp + Config.udpHdrLen)
      payloadLen := BitVec.ofNat 32 (ulen - Config.udpHdrLen)
      viewValid := true }

/-- S6: the UDP header and its length (R110, R111). -/
def scanUdp (ip plen : Nat) (s : State) : StepOutcome :=
  if plen < Config.udpHdrLen then raise s .udpLen
  else
    let udp := ip + Config.ip6HdrLen
    let u := s.memRead (udp + 4) 2
    if plen < u.1 ∨ u.1 < Config.udpHdrLen then raise u.2 .udpLen
    else scanVerify ip udp u.1 u.2

/-- S4 and S5: the IPv6 header, its payload length and next header (R107, R108, R109). -/
def scanIp6 (c : Config) (s : State) : StepOutcome :=
  let ip := s.rawOffset.toNat + c.l2HdrLen
  let rl := s.rawLength.toNat
  if rl < c.l2HdrLen + Config.ip6HdrLen then raise s .ip6Trunc
  else
    let p := s.memRead (ip + 4) 2
    if rl < c.l2HdrLen + Config.ip6HdrLen + p.1 then raise p.2 .ip6Plen
    else
      let nh := p.2.memRead (ip + 6) 1
      if nh.1 ≠ Config.nhUdp then raise nh.2 .notUdp
      else scanUdp ip p.1 nh.2

/-- S0 to S3: the view is discarded (R101), the range and the tags are checked (R102, R103), the frame is aligned
(R104, R105), and the headers are read. A shift stands whatever the later steps find (R106). -/
def scanOn (c : Config) (s : State) : StepOutcome :=
  let s0 := s.invalidate
  if c.bufCap < s.rawOffset.toNat + s.rawLength.toNat then raise s0 .rawRange
  else if s.rxProto ≠ Config.etherTypeIPv6 then raise s0 .notIpv6
  else if s.rxHatype ≠ Config.haTypeEther then raise s0 .notEther
  else
    match alignTarget c s.rawOffset.toNat s.rawLength.toNat with
    | none => raise s0 .noRoom
    | some nro => scanIp6 c (s0.shiftTo nro)

/-- SCAN (R100). -/
def execScan (s : State) : StepOutcome := scanOn Config.hw s

end Sys2Proof.Machine
end

