-- ==== Sys2Proof/Machine/Send.lean ====
section
/-! DEFINITION. The command SEND and the transmitter's hand-off (`43_send.md` R180 to R187). -/
namespace Sys2Proof.Machine

/-- The bytes of a frame that left, `keep k` saying whether byte `k` did: all, a part or none of it (R185). -/
def leftBytes (keep : Nat → Bool) : Nat → List Byte → List Byte
  | _, [] => []
  | k, b :: bs => if keep k then b :: leftBytes keep (k + 1) bs else leftBytes keep (k + 1) bs

/-- What left of a frame whose transmission failed or was cut off, at draw number `d` (R185, R232, I10, I11). -/
def partLeft (d : Nat) (bytes : List Byte) : List Byte := leftBytes (Config.freeLeft d) 0 bytes

/-- D2: the frame is the whole valid range, in increasing index order, each `UNSPEC` byte an unspecified value (R182). -/
def State.frameBytes (s : State) : List Byte × State := s.readBytes s.rawOffset.toNat s.rawLength.toNat

/-- `Transmit(frame)`: the hand-off (R183). -/
def State.handOff (s : State) (bytes : List Byte) : State := { s with tx := .pending bytes }

/-- The transmitter answers the pending frame (R183): the hand-off state returns to `TX_IDLE`. On `TX_OK` the whole frame
left, on `TX_FAIL` all, a part or none of it (R185). -/
def State.txAnswer (s : State) (o : TxOutcome) : State :=
  match s.tx with
  | .idle => s
  | .pending bytes =>
    let left := match o with
      | .ok => bytes
      | .fail => partLeft s.draws bytes
    { s with tx := .idle, draws := s.draws + 1, obs := .frame bytes o left :: s.obs }

/-- Whether every byte SEND touches lies in the buffer (R69). -/
def State.sendInBuffer (c : Config) (s : State) : Bool :=
  s.checksumInBuffer c && inBuffer c s.rawOffset.toNat s.rawLength.toNat

/-- SEND (R180) on a configuration, the transmitter answering `o`. -/
def sendOn (c : Config) (o : TxOutcome) (s : State) : StepOutcome :=
  if !s.viewValid then raise s .noView
  else if !s.sendInBuffer c then .fault .engineOutsideBuffer
  else
    let f := s.embedChecksum.frameBytes
    let s1 := (f.2.handOff f.1).txAnswer o
    match o with
    | .ok => finish s1
    | .fail => raise s1 .txError

/-- SEND (R180): the transmitter's answer is a free value (R9 `TX_OUTCOME`, R183). -/
def execSend (s : State) : StepOutcome := sendOn Config.hw (Config.txOutcome s.draws) s

end Sys2Proof.Machine
end

