-- ==== Sys2Proof/Machine/Splice.lean ====
section
/-! DEFINITION. The command SPLICE (`42_splice.md` R150 to R167). -/
namespace Sys2Proof.Machine

/-- P1 to P3: the first of the register checks that fails (R153, R154, R155), in unbounded arithmetic. -/
def SpliceOperands.check (c : Config) (p : SpliceOperands) : Option ErrCode :=
  if p.len < p.off then some .spliceOffset
  else if p.n < 0 ∧ (p.off : Int) < -p.n then some .spliceBefore
  else if 0 < p.n ∧ (c.bufCap : Int) < p.ro + p.rl + p.n then some .spliceCapacity
  else none

/-- P4: whether a length would leave its 16-bit field (R157). -/
def SpliceOperands.fieldOverflow (p : SpliceOperands) (plen ulen : Nat) : Bool :=
  decide (plen + p.n < 0) || decide (65535 < plen + p.n) || decide (ulen + p.n < 0) || decide (65535 < ulen + p.n)
    || decide (65535 < p.len + 8 + p.n)

/-- Whether every access of P4 to P6 lies in the buffer (R69, R158). -/
def SpliceOperands.accessesInBuffer (c : Config) (p : SpliceOperands) : Bool :=
  inBuffer c (p.ip + 4) 2 && inBuffer c (p.udp + 4) 2 && decide (p.b ≤ p.e) && inBuffer c p.e 0

/-- P5: the move (R158) and the bytes it leaves `UNSPEC` (R161): the whole room `b .. b + n - 1` of an insertion (log entry
5), or the vacated tail `e + n .. e - 1` of a deletion. -/
def Memory.splice (m : Memory) (p : SpliceOperands) : Memory :=
  let moved := m.move ((p.b : Int) + p.n).toNat p.b (p.e - p.b)
  if 0 < p.n then moved.clear p.b p.n.toNat
  else moved.clear ((p.e : Int) + p.n).toNat (-p.n).toNat

/-- P5 to P7: the move, the three lengths (R158, R159) and the reported position (R160). -/
def State.spliceEffect (s : State) (p : SpliceOperands) (plen ulen : Nat) : State :=
  let s1 :=
    { s with
      mem := s.mem.splice p
      rawLength := BitVec.ofInt 32 (p.rl + p.n)
      payloadLen := BitVec.ofInt 32 (p.len + p.n) }
  let s2 := (s1.memWrite (p.ip + 4) 2 (plen + p.n).toNat).memWrite (p.udp + 4) 2 (ulen + p.n).toNat
  { s2 with splicePos := BitVec.ofInt 32 (p.b + min p.n 0) }

/-- SPLICE (R150) on a configuration. Every error is raised before the first write (R156). -/
def spliceOn (c : Config) (s : State) : StepOutcome :=
  if !s.viewValid then raise s .noView
  else
    let p := s.spliceOperands
    match p.check c with
    | some e => raise s e
    | none =>
      if !p.accessesInBuffer c then .fault .engineOutsideBuffer
      else
        let plen := s.memRead (p.ip + 4) 2
        let ulen := plen.2.memRead (p.udp + 4) 2
        if p.fieldOverflow plen.1 ulen.1 then raise ulen.2 .fieldOvf
        else finish (ulen.2.spliceEffect p plen.1 ulen.1)

/-- SPLICE (R150). -/
def execSplice (s : State) : StepOutcome := spliceOn Config.hw s

end Sys2Proof.Machine
end

