-- ==== Sys2Proof/Machine/Dispatch.lean ====
section
/-! DEFINITION. One arm per command. -/
namespace Sys2Proof.Machine

/-- What a command does (`30_encoding.md` R84: one atomic step, completion included). -/
def exec (i : Instr) (s : State) : Host.Outcome State Fault Refusal :=
  match i with
  | .scan => Sys2Proof.Machine.execScan s
  | .csum => Sys2Proof.Machine.execCsum s
  | .splice => Sys2Proof.Machine.execSplice s
  | .send => Sys2Proof.Machine.execSend s

end Sys2Proof.Machine
end

