-- ==== Sys2Proof/Machine/Engine.lean ====
section
/-! DEFINITION. The engine's step (`30_encoding.md` R84) and the reset event (`70_reset_and_hazards.md` R230, R232). -/
namespace Sys2Proof.Machine

/-- R84: the engine decodes the accepted word and does the whole command; while idle it has nothing to do. -/
def engineStep (s : State) : StepOutcome :=
  match s.phase with
  | .idle => .next s
  | .busy w =>
    match decode w with
    | .ok i => exec i s
    | .error _ => execBadCmd s

/-- Whether a SEND with a valid view is in progress, so that a reset may cut off a transmission (R232). -/
def State.sendInProgress (s : State) : Bool :=
  match s.phase with
  | .idle => false
  | .busy w =>
    match decode w with
    | .ok .send => s.viewValid
    | _ => false

/-- R230: every piece of the CSE's state takes its reset value. What the host, the scheduler and the environment do next
(`inputs`), what was observed (`obs`) and the count of draws are not the CSE's and go on. A SEND in progress may have
handed over all, a part or none of its frame (R232, I11). -/
def resetEvent (s : State) : State :=
  if s.sendInProgress then
    let f := s.embedChecksum.frameBytes
    { State.reset with
      draws := f.2.draws + 1
      inputs := s.inputs
      obs := .aborted (partLeft f.2.draws f.1) :: s.obs }
  else { State.reset with draws := s.draws, inputs := s.inputs, obs := s.obs }

end Sys2Proof.Machine
end

