-- ==== Sys2Proof/Machine/Step.lean ====
section
/-! DEFINITION. One step of the machine: the next input is a host transaction, the engine's turn or a reset (`00_scope.md`
R16, `20_memory.md` R70). -/
namespace Sys2Proof.Machine

/-- One step. With no input left the engine moves if it is busy (R241) and otherwise the CSE waits (R233). Log entry 3. -/
def step (s : State) : Host.Outcome State Fault Refusal :=
  match s.inputs with
  | [] => engineStep s
  | .engine :: rest => engineStep { s with inputs := rest }
  | .bus t :: rest => busStep Config.hw t { s with inputs := rest }
  | .rst :: rest => .next (resetEvent { s with inputs := rest })

/-- The command word `w` (its low `nbits` bits, the rest 0) is accepted as R84 says and the engine has the next turn: the
CSE fetches nothing (R22), so this stands for the host's write to `CMD` and the scheduling of the engine. -/
def State.withFetchWord (s : State) (nbits w : Nat) : State :=
  { s.acceptCmd (BitVec.ofNat 32 (w % 2 ^ nbits)) with inputs := .engine :: s.inputs }

end Sys2Proof.Machine
end

