-- ==== Sys2Proof/Machine/HostProgram.lean ====
section
/-! DEFINITION. The host's side as the spec writes it: the notation of `30_encoding.md` R87 and the pseudo-instructions of
R88, as the transactions they stand for, and the loading of a frame (`20_memory.md` R63). -/
namespace Sys2Proof.Machine.HostProgram

open Sys2Proof.Machine

/-- `rd REG` (R87). -/
def rd (r : Reg) : Input := .bus (.read (BitVec.ofNat 18 r.offset) 4)

/-- `wr REG, v` (R87). -/
def wr (r : Reg) (v : Word) : Input := .bus (.write (BitVec.ofNat 18 r.offset) 4 v)

/-- The host address of buffer index `i` (R61). -/
def bufAddr (i : Nat) : HostAddr := BitVec.ofNat 18 (Config.bufBase + i)

/-- `ldb`, `ldh`, `ldw` (R87): `n` = 1, 2, 4. -/
def ld (n i : Nat) : Input := .bus (.read (bufAddr i) n)

/-- `stb`, `sth`, `stw` (R87): `n` = 1, 2, 4. -/
def st (n i : Nat) (v : Word) : Input := .bus (.write (bufAddr i) n v)

/-- `fill i, "h0 h1 ... hk"` (R88). -/
def fill (i : Nat) : List Byte → List Input
  | [] => []
  | b :: bs => st 1 i (b.setWidth 32) :: fill (i + 1) bs

/-- `wait` (R88) on a schedule in which the host polls `k` times before the engine gets its turn: the polls that find
`BUSY` = 1, the engine's step, and the poll that finds `BUSY` = 0. -/
def wait (k : Nat) : List Input := List.replicate k (rd .status) ++ [.engine, rd .status]

/-- `meta p, h` (R88). -/
def metaTags (p h : Half) : List Input := [wr .rxMeta (h ++ p)]

/-- `frame r, n` (R88). -/
def frame (r n : Nat) : List Input := [wr .rawOffset (BitVec.ofNat 32 r), wr .rawLength (BitVec.ofNat 32 n)]

/-- `scan` (R88). -/
def scan (k : Nat) : List Input := wr .cmd 0x00000001 :: wait k

/-- `csum` (R88). -/
def csum (k : Nat) : List Input := wr .cmd 0x00000002 :: wait k

/-- `splice off, n` (R88). -/
def splice (k off : Nat) (n : Int) : List Input :=
  wr .arg0 (BitVec.ofNat 32 off) :: wr .arg1 (BitVec.ofInt 32 n) :: wr .cmd 0x00000003 :: wait k

/-- `send` (R88). -/
def send (k : Nat) : List Input := wr .cmd 0x00000004 :: wait k

/-- R63, R236: the host loads a received frame at index `r` with its tags. -/
def load (r : Nat) (bytes : List Byte) (proto hatype : Half) : List Input :=
  fill r bytes ++ frame r bytes.length ++ metaTags proto hatype

end Sys2Proof.Machine.HostProgram
end

