-- ==== Sys2Proof/Safety.lean ====
section
/-! DEFINITION. The terms the claims are stated in: the invariants of `10_state.md` R45, what a host access answers, and the
pieces of a frame. -/
namespace Sys2Proof.Machine

/-- The big-endian value of the two bytes at `i`, if neither is `UNSPEC`. -/
def Memory.halfAt (m : Memory) (i : Nat) : Option Nat := (m.bytesAt i 2).map beValue

/-- How many of the `k` bytes from index `i` on are `UNSPEC`: so many draws a read of them makes (R12). -/
def Memory.unspecCount (m : Memory) (i k : Nat) : Nat := (List.range k).countP (fun l => (m.byteAt (i + l)).isNone)

/-- The first group of R45: what holds of a valid view. -/
abbrev State.ViewConsistent (c : Config) (s : State) : Prop :=
  s.rawOffset.toNat + s.rawLength.toNat ≤ c.bufCap
  ∧ s.ip6Pos.toNat = s.rawOffset.toNat + c.l2HdrLen
  ∧ s.ip6Pos.toNat % 4 = 0
  ∧ s.udpPos.toNat = s.ip6Pos.toNat + 40
  ∧ s.payloadPos.toNat = s.udpPos.toNat + 8
  ∧ s.payloadPos.toNat + s.payloadLen.toNat ≤ s.rawOffset.toNat + s.rawLength.toNat
  ∧ s.payloadLen.toNat + 8 ≤ 65535

/-- R36: the four view registers read 0. -/
abbrev State.ViewUnset (s : State) : Prop :=
  s.ip6Pos = 0 ∧ s.udpPos = 0 ∧ s.payloadPos = 0 ∧ s.payloadLen = 0

/-- The invariant of the machine: the buffer is in its canonical form, the view is either consistent or unset (R36, R45),
`DONE`, `ERR` and `ERRCODE` are 0 while busy (R27, R84), `ERR` says whether there is an error code (R205), and the
transmitter is `TX_IDLE` between steps (R44). -/
abbrev Inv (c : Config) (s : State) : Prop :=
  s.mem.wf c.bufCap
  ∧ (s.viewValid = true → s.ViewConsistent c)
  ∧ (s.viewValid = false → s.ViewUnset)
  ∧ (s.busy = true → s.done = false ∧ s.err = false ∧ s.errCode = .ok)
  ∧ (s.err = true ↔ s.errCode ≠ .ok)
  ∧ s.tx = .idle

/-- The second group of R45: the length fields in the buffer hold values that agree with the view. -/
def State.fieldsAgree (c : Config) (s : State) : Bool :=
  match s.mem.halfAt (s.ip6Pos.toNat + 4), s.mem.halfAt (s.udpPos.toNat + 4) with
  | some plen, some ulen =>
    decide (ulen = s.payloadLen.toNat + 8) && decide (c.l2HdrLen + 40 + plen ≤ s.rawLength.toNat) && decide (ulen ≤ plen)
  | _, _ => false

/-- The payload (R15): the `PAYLOAD_LEN` bytes from `PAYLOAD_POS`, nothing standing for `UNSPEC`. -/
def State.payload (s : State) : List (Option Byte) :=
  (List.range s.payloadLen.toNat).map (fun k => s.mem.byteAt (s.payloadPos.toNat + k))

/-- The state in which the host performs the transaction `t` next. -/
def State.withBus (s : State) (t : BusOp) : State := { s with inputs := .bus t :: s.inputs }

/-- The host's 32-bit read at `a` answers `v` and leaves the CSE as it is. -/
def State.ReadsAs (s : State) (a : HostAddr) (v : Word) : Prop :=
  step (s.withBus (.read a 4)) = .next { s with obs := .read v :: s.obs }

/-- The host's 32-bit write of `v` at `a` leads to `t`. -/
def State.WriteLeadsTo (s : State) (a : HostAddr) (v : Word) (t : State) : Prop :=
  step (s.withBus (.write a 4 v)) = .next t

/-- R64: the transactions that are no bus error, on this hardware's `BUF_CAP`. -/
abbrev legalAccess (a : HostAddr) (n : Nat) : Prop :=
  (a.toNat ≤ 0xFC ∧ a.toNat % 4 = 0 ∧ n = 4)
  ∨ (0x20000 ≤ a.toNat ∧ (n = 1 ∨ n = 2 ∨ n = 4) ∧ (a.toNat - 0x20000) % n = 0 ∧ a.toNat - 0x20000 + n ≤ 65540)

/-- The address and the width of a transaction. -/
def BusOp.addr : BusOp → HostAddr
  | .read a _ => a
  | .write a _ _ => a

/-- The width of a transaction in bytes. -/
def BusOp.width : BusOp → Nat
  | .read _ n => n
  | .write _ n _ => n

/-- The host addresses of the registers whose writes are ignored while busy (R41). -/
def busyGuarded : List HostAddr := [0x0C, 0x10, 0x14, 0x18, 0x1C, 0x20]

/-- The host addresses of the read-only registers (R40). -/
def readOnly : List HostAddr := [0x00, 0x24, 0x28, 0x2C, 0x30, 0x34, 0x38]

/-- The state after a command that completed with `e` and changed nothing else. -/
def State.failedWith (s : State) (e : ErrCode) : State :=
  { s with errCode := e, err := true, done := true, phase := .idle }

/-- The state after a SCAN that failed with `e` and changed nothing but the view (R101). -/
def State.scanFailedWith (s : State) (e : ErrCode) : State :=
  { s with
    viewValid := false, ip6Pos := 0, udpPos := 0, payloadPos := 0, payloadLen := 0
    errCode := e, err := true, done := true, phase := .idle }

/-- What the buffer of `m'` holds when the `len` bytes at `src` of `m` moved to `dst` (R12 `MemMove`). -/
def movedBytes (m m' : Memory) (dst src len : Nat) : Prop :=
  ∀ j, m'.byteAt j =
    if dst ≤ j ∧ j < dst + len then m.byteAt (j - dst + src)
    else if src ≤ j ∧ j < src + len then none
    else m.byteAt j

/-- What the buffer of `m'` holds when the 16-bit value `v` was written at index `i` of `m`, most significant byte first. -/
def halfWritten (m m' : Memory) (i : Nat) (v : Half) : Prop :=
  ∀ j, m'.byteAt j =
    if j = i then some (v.extractLsb' 8 8)
    else if j = i + 1 then some (v.extractLsb' 0 8)
    else m.byteAt j

/-- R102, R103: the checks a SCAN must pass before it reads the buffer, on this hardware. -/
abbrev State.scanReady (s : State) : Prop :=
  s.rawOffset.toNat + s.rawLength.toNat ≤ 65540 ∧ s.rxMeta = 0x000186DD

/-- The index the frame starts at after the alignment shift, on this hardware (R105). -/
def State.alignedOffset (s : State) : Nat := s.rawOffset.toNat - s.rawOffset.toNat % 4

/-- The operands for which SPLICE passes its register checks on this hardware (R152 to R155). -/
abbrev State.spliceReady (s : State) : Prop :=
  s.viewValid = true ∧ s.arg0.toNat ≤ s.payloadLen.toNat ∧ -s.arg1.toInt ≤ (s.arg0.toNat : Int)
  ∧ (0 < s.arg1.toInt → (s.rawOffset.toNat : Int) + s.rawLength.toNat + s.arg1.toInt ≤ 65540)

/-- The bytes an index may lie among for `UdpChecksum(ip, udp, n)` to read it (R138). -/
abbrev checksumReads (ip udp n j : Nat) : Prop :=
  (ip + 8 ≤ j ∧ j < ip + 40) ∨ (udp ≤ j ∧ j < udp + 6) ∨ (udp + 8 ≤ j ∧ j < udp + 8 + n)

end Sys2Proof.Machine
end

