-- ==== Sys2Proof/Certificates/Slice0/Obligations.lean ====
section
/-! DEFINITION. The statements for the provers. Each docstring names the rule of `spec/` it formalises; what rests on a choice
of the model's says so and names the log entry. -/
open Sys2Proof Sys2Proof.Machine

/-! ### Encoding -/

/-- R81, R82: four words are commands, and every other word is BAD_CMD. -/
def Obligations.DecodeReadsExactlyTheFourWords : Prop :=
  ∀ w : Word,
    (decode w = .ok .scan ↔ w = 0x00000001) ∧ (decode w = .ok .csum ↔ w = 0x00000002)
    ∧ (decode w = .ok .splice ↔ w = 0x00000003) ∧ (decode w = .ok .send ↔ w = 0x00000004)
    ∧ ((∃ e, decode w = .error e) ↔
        w ≠ 0x00000001 ∧ w ≠ 0x00000002 ∧ w ≠ 0x00000003 ∧ w ≠ 0x00000004)

/-- R80, R81: decoding an encoded command gives it back. -/
def Obligations.DecodeOfEncodeIsTheCommand : Prop :=
  ∀ i : Instr, i.wellFormed = true → decode (encode i) = .ok i

/-- R82: the words of the opcode table decode to their commands, and a word with a reserved bit set to none. -/
def Obligations.TableWordsDecode : Prop :=
  decodeTableWord 32 0x00000001 = some .scan ∧ decodeTableWord 32 0x00000002 = some .csum
  ∧ decodeTableWord 32 0x00000003 = some .splice ∧ decodeTableWord 32 0x00000004 = some .send
  ∧ decodeTableWord 32 0x00000005 = none ∧ decodeTableWord 32 0x00000101 = none

/-! ### One step -/

/-- R84: at the engine's turn the accepted word's command runs, whole. That the engine also moves when no input is left is
the model's choice (log entry 3). -/
def Obligations.EngineTurnRunsTheDecodedCommand : Prop :=
  ∀ (s : State) (w : Word) (i : Instr), s.phase = .busy w → decode w = .ok i →
    step { s with inputs := .engine :: s.inputs } = exec i s ∧ (s.inputs = [] → step s = exec i s)

/-- R22, R233: an idle engine has nothing to do, and with no input the CSE waits; R70: a host transaction is one step. -/
def Obligations.IdleEngineWaits : Prop :=
  ∀ s : State,
    (s.busy = false → step { s with inputs := .engine :: s.inputs } = .next s)
    ∧ (s.busy = false → s.inputs = [] → step s = .next s)
    ∧ (∀ t, step (s.withBus t) = busStep Config.hw t s)

/-- R84 in the host's terms: the word `withFetchWord` places runs next, on the state in which it was accepted. -/
def Obligations.FetchedWordRunsNext : Prop :=
  ∀ (s : State) (nbits w : Nat) (i : Instr), decodeTableWord nbits w = some i →
    step (s.withFetchWord nbits w) = exec i (s.acceptCmd (BitVec.ofNat 32 (w % 2 ^ nbits)))

/-- R85: an accepted illegal word changes no register and no byte, and completes with code 0x01. -/
def Obligations.IllegalWordCompletesWithBadCmd : Prop :=
  ∀ (s : State) (w : Word), s.phase = .busy w →
    w ≠ 0x00000001 → w ≠ 0x00000002 → w ≠ 0x00000003 → w ≠ 0x00000004 →
    step { s with inputs := .engine :: s.inputs } = .next (s.failedWith .badCmd)
    ∧ (s.failedWith .badCmd).statusWord.extractLsb' 8 8 = 0x01
    ∧ (s.failedWith .badCmd).statusWord.getLsbD 2 = true

/-! ### The host's accesses to the registers -/

/-- R24, R25, R29, R36 to R38: what each register reads as while the engine is idle. -/
def Obligations.RegistersReadTheirValuesWhileIdle : Prop :=
  ∀ s : State, s.busy = false →
    s.ReadsAs 0x00 65540 ∧ s.ReadsAs 0x04 (if s.ie then 1 else 0) ∧ s.ReadsAs 0x08 s.statusWord
    ∧ s.ReadsAs 0x0C 0 ∧ s.ReadsAs 0x10 s.arg0 ∧ s.ReadsAs 0x14 s.arg1 ∧ s.ReadsAs 0x18 s.rawOffset
    ∧ s.ReadsAs 0x1C s.rawLength ∧ s.ReadsAs 0x20 s.rxMeta ∧ s.ReadsAs 0x24 s.ip6Pos ∧ s.ReadsAs 0x28 s.udpPos
    ∧ s.ReadsAs 0x2C s.payloadPos ∧ s.ReadsAs 0x30 s.payloadLen ∧ s.ReadsAs 0x34 (s.csum.setWidth 32)
    ∧ s.ReadsAs 0x38 s.splicePos

/-- R27, R201: the places of the flags and of the error code in `STATUS`, the reserved bits, and the codes' numbers. -/
def Obligations.StatusWordLayout : Prop :=
  (∀ s : State,
    s.statusWord.getLsbD 0 = s.busy ∧ s.statusWord.getLsbD 1 = s.done ∧ s.statusWord.getLsbD 2 = s.err
    ∧ s.statusWord.getLsbD 3 = s.viewValid ∧ s.statusWord.getLsbD 4 = s.ovr
    ∧ s.statusWord.extractLsb' 8 8 = s.errCode.code
    ∧ s.statusWord.extractLsb' 5 3 = 0 ∧ s.statusWord.extractLsb' 16 16 = 0)
  ∧ ErrCode.ok.code = 0x00 ∧ ErrCode.badCmd.code = 0x01 ∧ ErrCode.rawRange.code = 0x02 ∧ ErrCode.notIpv6.code = 0x03
  ∧ ErrCode.notEther.code = 0x04 ∧ ErrCode.noRoom.code = 0x05 ∧ ErrCode.ip6Trunc.code = 0x06
  ∧ ErrCode.ip6Plen.code = 0x07 ∧ ErrCode.notUdp.code = 0x08 ∧ ErrCode.udpLen.code = 0x09
  ∧ ErrCode.badCsum.code = 0x0A ∧ ErrCode.noView.code = 0x10 ∧ ErrCode.spliceOffset.code = 0x11
  ∧ ErrCode.spliceBefore.code = 0x12 ∧ ErrCode.spliceCapacity.code = 0x13 ∧ ErrCode.fieldOvf.code = 0x14
  ∧ ErrCode.txError.code = 0x20

/-- R68: while busy `STATUS` and `CTRL` are exact, other registers and the buffer read as a free value, argument writes
are ignored with `OVR`, and a buffer write is a fault of the host. -/
def Obligations.HostAccessesWhileBusy : Prop :=
  ∀ s : State, s.busy = true →
    s.ReadsAs 0x08 s.statusWord ∧ s.ReadsAs 0x04 (if s.ie then 1 else 0)
    ∧ (∀ a ∈ ([0x00, 0x0C, 0x10, 0x14, 0x18, 0x1C, 0x20, 0x24, 0x28, 0x2C, 0x30, 0x34, 0x38] : List HostAddr),
        step (s.withBus (.read a 4)) =
          .next { s with draws := s.draws + 1, obs := .read (Config.freeWord s.draws) :: s.obs })
    ∧ (∀ a n, legalAccess a n → 0x20000 ≤ a.toNat →
        step (s.withBus (.read a n)) =
          .next { s with draws := s.draws + 1, obs := .read (Config.freeWord s.draws) :: s.obs }
        ∧ ∀ d, step (s.withBus (.write a n d)) = .fault .bufferWriteWhileBusy)
    ∧ (∀ a ∈ busyGuarded, ∀ v, s.WriteLeadsTo a v { s with ovr := true })
    ∧ (∀ v, s.WriteLeadsTo 0x04 v { s with ie := v.getLsbD 0 })
    ∧ (∀ v, s.WriteLeadsTo 0x08 v
        { s with done := s.done && !v.getLsbD 1, ovr := s.ovr && !v.getLsbD 4 })

/-- R39: a reserved offset reads 0 and ignores writes, busy or not. (Busy reads: log entry 11.) -/
def Obligations.ReservedOffsetsReadZeroIgnoreWrites : Prop :=
  ∀ (s : State) (a : HostAddr), 0x3C ≤ a.toNat → a.toNat ≤ 0xFC → a.toNat % 4 = 0 →
    s.ReadsAs a 0 ∧ ∀ v, s.WriteLeadsTo a v s

/-- R40: a write to a read-only register changes nothing, busy or not; reserved bits of `CTRL` and `STATUS` ignore writes
and read 0. -/
def Obligations.ReadOnlyRegistersIgnoreWrites : Prop :=
  ∀ (s : State) (v : Word),
    (∀ a ∈ readOnly, s.WriteLeadsTo a v s)
    ∧ (∃ t, s.WriteLeadsTo 0x04 v t ∧ t.ctrlWord = v &&& 1)
    ∧ (∃ t, s.WriteLeadsTo 0x08 v t ∧ t.statusWord &&& 0xFFFF00E0 = 0)

/-- R28: what a write to `STATUS` does, busy or not. -/
def Obligations.StatusWriteClearsDoneAndOvr : Prop :=
  ∀ (s : State) (v : Word),
    s.WriteLeadsTo 0x08 v
      { s with done := if v.getLsbD 1 then false else s.done, ovr := if v.getLsbD 4 then false else s.ovr }

/-- R26, R29 to R35, R84: the writes the host makes while the engine is idle; those to `RAW_OFFSET`, `RAW_LENGTH` and
`RX_META` invalidate the view, and one to `CMD` is accepted. -/
def Obligations.RegisterWritesWhileIdle : Prop :=
  ∀ (s : State) (v : Word), s.busy = false →
    s.WriteLeadsTo 0x04 v { s with ie := v.getLsbD 0 }
    ∧ s.WriteLeadsTo 0x0C v { s with phase := .busy v, done := false, err := false, errCode := .ok }
    ∧ s.WriteLeadsTo 0x10 v { s with arg0 := v }
    ∧ s.WriteLeadsTo 0x14 v { s with arg1 := v }
    ∧ s.WriteLeadsTo 0x18 v
        { s with rawOffset := v, viewValid := false, ip6Pos := 0, udpPos := 0, payloadPos := 0, payloadLen := 0 }
    ∧ s.WriteLeadsTo 0x1C v
        { s with rawLength := v, viewValid := false, ip6Pos := 0, udpPos := 0, payloadPos := 0, payloadLen := 0 }
    ∧ s.WriteLeadsTo 0x20 v
        { s with rxMeta := v, viewValid := false, ip6Pos := 0, udpPos := 0, payloadPos := 0, payloadLen := 0 }

/-- R41: a guarded write while busy only sets `OVR`, writes to `CTRL` and `STATUS` act as ever, and `OVR` stays 1 until
the host clears it or a reset. -/
def Obligations.IgnoredWritesSetStickyOvr : Prop :=
  (∀ s : State, s.busy = true →
    (∀ a ∈ busyGuarded, ∀ v, s.WriteLeadsTo a v { s with ovr := true })
    ∧ (∀ v, s.WriteLeadsTo 0x04 v { s with ie := v.getLsbD 0 })
    ∧ (∀ v, s.WriteLeadsTo 0x08 v
        { s with done := s.done && !v.getLsbD 1, ovr := s.ovr && !v.getLsbD 4 }))
  ∧ (∀ s t : State, step s = .next t → s.ovr = true → t.ovr = false →
      (∃ v rest, s.inputs = .bus (.write 0x08 4 v) :: rest ∧ v.getLsbD 4 = true)
      ∨ ∃ rest, s.inputs = .rst :: rest)

/-! ### The host's accesses to the buffer -/

/-- R62: a legal buffer read returns `MemRead` widened with zeros, which is the big-endian value of the bytes when all are
held; a legal write stores the data's low bytes; nothing else changes. What an `UNSPEC` byte reads as is
`BufferReadsDrawUnspecifiedBytes`. -/
def Obligations.BufferWindowAccesses : Prop :=
  ∀ (s : State) (a : HostAddr) (n : Nat), s.busy = false → 0x20000 ≤ a.toNat → legalAccess a n →
    (∀ bs, s.mem.bytesAt (a.toNat - 0x20000) n = some bs →
      step (s.withBus (.read a n)) = .next { s with obs := .read (BitVec.ofNat 32 (beValue bs)) :: s.obs })
    ∧ step (s.withBus (.read a n)) = .next
        { s with
          draws := (s.memRead (a.toNat - 0x20000) n).2.draws
          obs := .read (BitVec.ofNat 32 (s.memRead (a.toNat - 0x20000) n).1) :: s.obs }
    ∧ (s.memRead (a.toNat - 0x20000) n).1 < 2 ^ (8 * n)
    ∧ (∀ d, ∃ m', step (s.withBus (.write a n d)) = .next { s with mem := m' }
        ∧ ∀ j, m'.byteAt j =
            if a.toNat - 0x20000 ≤ j ∧ j < a.toNat - 0x20000 + n then
              some (d.extractLsb' (8 * (n - 1 - (j - (a.toNat - 0x20000)))) 8)
            else s.mem.byteAt j)

/-- R62 with R12 and I3: a legal buffer read takes each held byte as it is and, for each `UNSPEC` one, a free value of its
own, the draws numbered in increasing index order; one `UNSPEC` byte is one draw. That the free values are numbered is the
model's choice (log entries 1 and 2). -/
def Obligations.BufferReadsDrawUnspecifiedBytes : Prop :=
  ∀ (s : State) (a : HostAddr) (n : Nat), s.busy = false → 0x20000 ≤ a.toNat → legalAccess a n →
    let i := a.toNat - 0x20000
    step (s.withBus (.read a n)) = .next
      { s with
        draws := s.draws + s.mem.unspecCount i n
        obs := .read (BitVec.ofNat 32 (beValue ((List.range n).map (fun k =>
          (s.mem.byteAt (i + k)).getD (Config.freeByte (s.draws + s.mem.unspecCount i k)))))) :: s.obs }
    ∧ (n = 1 → s.mem.byteAt i = none →
        step (s.withBus (.read a n)) = .next
          { s with draws := s.draws + 1, obs := .read ((Config.freeByte s.draws).setWidth 32) :: s.obs })

/-- R12, R65: the most significant byte is at the lowest index, and what `MemWrite` writes `MemRead` reads. -/
def Obligations.BufferIsBigEndian : Prop :=
  (∀ b0 b1 : Byte, BitVec.ofNat 16 (beValue [b0, b1]) = b0 ++ b1)
  ∧ (∀ b0 b1 b2 b3 : Byte, BitVec.ofNat 32 (beValue [b0, b1, b2, b3]) = b0 ++ b1 ++ b2 ++ b3)
  ∧ (∀ (s : State) (i n v : Nat), (s.memWrite i n v).memRead i n = (v % 2 ^ (8 * n), s.memWrite i n v))

/-- R64: every transaction outside the map, of a wrong width or misaligned is a bus error, and no other is. That an
illegal buffer write while busy is a bus error too, and not R68's fault, is the model's reading (log entry 13). -/
def Obligations.BusErrorsAreTheIllegalTransactions : Prop :=
  ∀ (s : State) (t : BusOp), step (s.withBus t) = .fault .busError ↔ ¬ legalAccess t.addr t.width

/-- R67: a host read changes nothing of the CSE (the model counts its draws and records the result). -/
def Obligations.HostReadsHaveNoSideEffect : Prop :=
  ∀ (s t : State) (a : HostAddr) (n : Nat), step (s.withBus (.read a n)) = .next t →
    t = { s with draws := t.draws, obs := t.obs } ∧ ∃ v, t.obs = .read v :: s.obs

/-! ### Reset, completion and flags -/

/-- R47: the state after reset. -/
def Obligations.ResetState : Prop :=
  State.reset.ctrlWord = 0 ∧ State.reset.statusWord = 0 ∧ State.reset.busy = false ∧ State.reset.done = false
  ∧ State.reset.err = false ∧ State.reset.viewValid = false ∧ State.reset.ovr = false
  ∧ State.reset.errCode.code = 0x00 ∧ State.reset.arg0 = 0 ∧ State.reset.arg1 = 0 ∧ State.reset.rawOffset = 0
  ∧ State.reset.rawLength = 0 ∧ State.reset.rxMeta = 0 ∧ State.reset.ip6Pos = 0 ∧ State.reset.udpPos = 0
  ∧ State.reset.payloadPos = 0 ∧ State.reset.payloadLen = 0 ∧ State.reset.csum = 0 ∧ State.reset.splicePos = 0
  ∧ State.reset.ReadsAs 0x00 65540 ∧ State.reset.phase = .idle ∧ State.reset.tx = .idle
  ∧ ∀ i, State.reset.mem.byteAt i = none

/-- R230, R231: a reset gives every piece of the CSE's state its reset value, busy or not, and `irq_done` is 0. R232 lets a
SEND in progress have handed over all, part or none of its frame: that the model records then what left of the frame SEND
would have sent, in its order, and nothing in any other case, is the model's choice (log entry 8). -/
def Obligations.ResetEventResetsEverything : Prop :=
  ∀ s : State, ∃ d o,
    step { s with inputs := .rst :: s.inputs } = .next { State.reset with draws := d, inputs := s.inputs, obs := o }
    ∧ State.irqDone { State.reset with draws := d, inputs := s.inputs, obs := o } = false
    ∧ (¬ (s.phase = .busy 0x00000004 ∧ s.viewValid = true) → d = s.draws ∧ o = s.obs)
    ∧ (s.phase = .busy 0x00000004 → s.viewValid = true →
        s.embedChecksum.frameBytes.1.length = s.rawLength.toNat
        ∧ ∃ left, o = .aborted left :: s.obs ∧ left.Sublist s.embedChecksum.frameBytes.1)

/-- R152, R140, R181: without a valid view CSUM, SPLICE and SEND complete with `NO_VIEW` and change nothing else. The spec
infers from it (R234, marked derived there) what they do right after reset; there a SCAN fails with `NOT_IPV6`. -/
def Obligations.CommandsNeedAView : Prop :=
  (∀ s : State, s.viewValid = false →
    exec .csum s = .next (s.failedWith .noView) ∧ exec .splice s = .next (s.failedWith .noView)
    ∧ exec .send s = .next (s.failedWith .noView))
  ∧ State.reset.viewValid = false
  ∧ exec .scan State.reset = .next (State.reset.failedWith .notIpv6)

/-- R205, and what the spec infers in R69 and R206 (marked derived): from every state the invariant allows every command
completes, in particular no access leaves the buffer; the engine never writes `ARG0`, `ARG1`, `RX_META` (R30, R31, R34),
`CTRL` or `OVR`. -/
def Obligations.EveryCommandCompletes : Prop :=
  ∀ (i : Instr) (s : State), Inv Config.hw s →
    ∃ t, exec i s = .next t ∧ t.busy = false ∧ t.done = true ∧ (t.err = true ↔ t.errCode ≠ .ok)
      ∧ t.ovr = s.ovr ∧ t.ie = s.ie ∧ t.arg0 = s.arg0 ∧ t.arg1 = s.arg1 ∧ t.rxMeta = s.rxMeta
      ∧ t.inputs = s.inputs ∧ t.tx = .idle

/-- R208: `irq_done` is `DONE AND IE`; a write of 1 to `DONE`, an accepted `CMD` write, `IE <- 0` (which keeps `DONE`) and
a reset clear it. -/
def Obligations.InterruptLevel : Prop :=
  (∀ s : State, s.irqDone = true ↔ s.done = true ∧ s.ie = true)
  ∧ (∀ (s t : State) (v : Word), s.WriteLeadsTo 0x08 v t → v.getLsbD 1 = true → t.irqDone = false)
  ∧ (∀ (s t : State) (v : Word), s.busy = false → s.WriteLeadsTo 0x0C v t → t.irqDone = false)
  ∧ (∀ (s t : State) (v : Word), s.WriteLeadsTo 0x04 v t → v.getLsbD 0 = false → t.irqDone = false ∧ t.done = s.done)
  ∧ (∀ s t : State, step { s with inputs := .rst :: s.inputs } = .next t → t.irqDone = false)

/-- R46 (the spec's summary, marked derived), the column "set by": what a step that sets a flag was. -/
def Obligations.FlagsAreSetOnlyByTheirEvents : Prop :=
  ∀ s t : State, step s = .next t →
    (s.busy = false → t.busy = true → ∃ v rest, s.inputs = .bus (.write 0x0C 4 v) :: rest ∧ t.phase = .busy v)
    ∧ (s.done = false → t.done = true → s.busy = true ∧ t.busy = false)
    ∧ (s.err = false → t.err = true → s.busy = true ∧ t.busy = false ∧ t.errCode ≠ .ok)
    ∧ (s.viewValid = false → t.viewValid = true → s.phase = .busy 0x00000001 ∧ t.busy = false ∧ t.errCode = .ok)
    ∧ (s.ovr = false → t.ovr = true →
        s.busy = true ∧ ∃ a v rest, a ∈ busyGuarded ∧ s.inputs = .bus (.write a 4 v) :: rest)

/-- R46 (the spec's summary, marked derived), the column "cleared by": what a step that clears a flag was. -/
def Obligations.FlagsAreClearedOnlyByTheirEvents : Prop :=
  ∀ s t : State, step s = .next t →
    (s.busy = true → t.busy = false → t.done = true ∨ ∃ rest, s.inputs = .rst :: rest)
    ∧ (s.done = true → t.done = false →
        (∃ v rest, s.inputs = .bus (.write 0x08 4 v) :: rest ∧ v.getLsbD 1 = true)
        ∨ (s.busy = false ∧ ∃ v rest, s.inputs = .bus (.write 0x0C 4 v) :: rest)
        ∨ ∃ rest, s.inputs = .rst :: rest)
    ∧ (s.err = true → t.err = false →
        (s.busy = false ∧ ∃ v rest, s.inputs = .bus (.write 0x0C 4 v) :: rest)
        ∨ (s.busy = true ∧ t.busy = false ∧ t.errCode = .ok)
        ∨ ∃ rest, s.inputs = .rst :: rest)
    ∧ (s.viewValid = true → t.viewValid = false →
        (s.busy = false ∧ ∃ a v rest, a ∈ ([0x18, 0x1C, 0x20] : List HostAddr)
          ∧ s.inputs = .bus (.write a 4 v) :: rest)
        ∨ (s.phase = .busy 0x00000001 ∧ t.busy = false ∧ t.errCode ≠ .ok)
        ∨ ∃ rest, s.inputs = .rst :: rest)

/-! ### SCAN -/

/-- R102. -/
def Obligations.ScanRejectsARangePastTheBuffer : Prop :=
  ∀ s : State, 65540 < s.rawOffset.toNat + s.rawLength.toNat →
    exec .scan s = .next (s.scanFailedWith .rawRange)

/-- R103: both tags, all 16 bits, in this order. -/
def Obligations.ScanChecksTheTags : Prop :=
  ∀ s : State, s.rawOffset.toNat + s.rawLength.toNat ≤ 65540 →
    (s.rxMeta.extractLsb' 0 16 ≠ 0x86DD → exec .scan s = .next (s.scanFailedWith .notIpv6))
    ∧ (s.rxMeta.extractLsb' 0 16 = 0x86DD → s.rxMeta.extractLsb' 16 16 ≠ 1 →
        exec .scan s = .next (s.scanFailedWith .notEther))

/-- R104, R105, R106, on every legal configuration: when the frame is moved, where to, what the buffer then holds, and
when there is no room; whatever the later steps find. On this hardware the move is down by `RAW_OFFSET mod 4`. -/
def Obligations.ScanShiftsTheFrame : Prop :=
  (∀ (c : Config) (s : State), c.legal = true → s.rawOffset.toNat + s.rawLength.toNat ≤ c.bufCap →
    s.rxMeta = 0x000186DD →
    ((s.rawOffset.toNat + c.l2HdrLen) % 4 = 0 →
      ∃ t, scanOn c s = .next t ∧ t.rawOffset = s.rawOffset ∧ t.rawLength = s.rawLength ∧ t.mem = s.mem)
    ∧ ((s.rawOffset.toNat + c.l2HdrLen) % 4 ≠ 0 →
      ((s.rawOffset.toNat + c.l2HdrLen) % 4 ≤ s.rawOffset.toNat →
        ∃ t, scanOn c s = .next t
          ∧ t.rawOffset.toNat = s.rawOffset.toNat - (s.rawOffset.toNat + c.l2HdrLen) % 4
          ∧ t.rawLength = s.rawLength
          ∧ movedBytes s.mem t.mem t.rawOffset.toNat s.rawOffset.toNat s.rawLength.toNat)
      ∧ (s.rawOffset.toNat < (s.rawOffset.toNat + c.l2HdrLen) % 4 →
          s.rawOffset.toNat + (4 - (s.rawOffset.toNat + c.l2HdrLen) % 4) + s.rawLength.toNat ≤ c.bufCap →
        ∃ t, scanOn c s = .next t
          ∧ t.rawOffset.toNat = s.rawOffset.toNat + (4 - (s.rawOffset.toNat + c.l2HdrLen) % 4)
          ∧ t.rawLength = s.rawLength
          ∧ movedBytes s.mem t.mem t.rawOffset.toNat s.rawOffset.toNat s.rawLength.toNat)
      ∧ (s.rawOffset.toNat < (s.rawOffset.toNat + c.l2HdrLen) % 4 →
          c.bufCap < s.rawOffset.toNat + (4 - (s.rawOffset.toNat + c.l2HdrLen) % 4) + s.rawLength.toNat →
        scanOn c s = .next (s.scanFailedWith .noRoom))))
  ∧ (∀ s : State, s.scanReady →
      ∃ t, exec .scan s = .next t ∧ t.rawOffset.toNat = s.rawOffset.toNat - s.rawOffset.toNat % 4
        ∧ t.errCode ≠ .noRoom)

/-- R107 to R111: the header checks, on a frame whose checked bytes hold values; the shift stands (R106), `CSUM` and every
other register stay as they were. -/
def Obligations.ScanChecksTheHeaders : Prop :=
  ∀ s : State, s.scanReady →
    let ends := fun (e : ErrCode) => ∃ m',
      exec .scan s = .next { s.scanFailedWith e with mem := m', rawOffset := BitVec.ofNat 32 s.alignedOffset }
      ∧ movedBytes s.mem m' s.alignedOffset s.rawOffset.toNat s.rawLength.toNat
    (s.rawLength.toNat < 40 → ends .ip6Trunc)
    ∧ ∀ plen, 40 ≤ s.rawLength.toNat → s.mem.halfAt (s.rawOffset.toNat + 4) = some plen →
      (s.rawLength.toNat < 40 + plen → ends .ip6Plen)
      ∧ ∀ nh, 40 + plen ≤ s.rawLength.toNat → s.mem.byteAt (s.rawOffset.toNat + 6) = some nh →
        (nh ≠ 17 → ends .notUdp)
        ∧ (nh = 17 → plen < 8 → ends .udpLen)
        ∧ ∀ ulen, nh = 17 → 8 ≤ plen → s.mem.halfAt (s.rawOffset.toNat + 44) = some ulen →
          (plen < ulen ∨ ulen < 8) → ends .udpLen

/-- R112, R113, R114: a frame that passes the header checks and whose summed bytes hold values gets its checksum computed
into `CSUM`; SCAN succeeds and sets the view exactly when it equals the stored one. -/
def Obligations.ScanVerifiesTheChecksumAndSetsTheView : Prop :=
  ∀ (s : State) (plen ulen stored : Nat) (k : Half), s.scanReady →
    s.mem.halfAt (s.rawOffset.toNat + 4) = some plen → 40 + plen ≤ s.rawLength.toNat →
    s.mem.byteAt (s.rawOffset.toNat + 6) = some 17 →
    s.mem.halfAt (s.rawOffset.toNat + 44) = some ulen → 8 ≤ ulen → ulen ≤ plen →
    s.mem.checksumAt s.rawOffset.toNat (s.rawOffset.toNat + 40) (ulen - 8) = some k →
    s.mem.halfAt (s.rawOffset.toNat + 46) = some stored →
    ∃ m', movedBytes s.mem m' s.alignedOffset s.rawOffset.toNat s.rawLength.toNat
      ∧ (k.toNat = stored →
          exec .scan s = .next
            { s with
              mem := m', rawOffset := BitVec.ofNat 32 s.alignedOffset, viewValid := true
              ip6Pos := BitVec.ofNat 32 s.alignedOffset, udpPos := BitVec.ofNat 32 (s.alignedOffset + 40)
              payloadPos := BitVec.ofNat 32 (s.alignedOffset + 48), payloadLen := BitVec.ofNat 32 (ulen - 8)
              csum := k, errCode := .ok, err := false, done := true, phase := .idle })
      ∧ (k.toNat ≠ stored →
          exec .scan s = .next
            { s.scanFailedWith .badCsum with
              mem := m', rawOffset := BitVec.ofNat 32 s.alignedOffset, csum := k })

/-- R101 and R112, from every state: SCAN completes with a view or with an error and no view, and leaves every other
register but `RAW_OFFSET` and `CSUM` as it was; `CSUM` changes only when the checksum step ran (R112). That a view it
leaves is consistent is the first group of R45, which the spec marks as its inference. -/
def Obligations.ScanEndsWithAViewOrAnError : Prop :=
  ∀ s : State, ∃ t, exec .scan s = .next t ∧ t.busy = false ∧ t.done = true ∧ t.viewValid = !t.err
    ∧ (t.err = true → t.ViewUnset) ∧ (t.err = false → t.ViewConsistent Config.hw)
    ∧ t.ie = s.ie ∧ t.ovr = s.ovr ∧ t.arg0 = s.arg0 ∧ t.arg1 = s.arg1 ∧ t.rawLength = s.rawLength
    ∧ t.rxMeta = s.rxMeta ∧ t.splicePos = s.splicePos ∧ t.tx = s.tx ∧ t.inputs = s.inputs ∧ t.obs = s.obs
    ∧ (t.errCode ≠ .ok → t.errCode ≠ .badCsum → t.csum = s.csum)

/-- A frame whose stored checksum is 0x0000 never scans; inferred by the spec in R113 (marked derived). -/
def Obligations.ScanNeverAcceptsAZeroChecksum : Prop :=
  ∀ s t : State, exec .scan s = .next t → t.viewValid = true → t.mem.halfAt (t.udpPos.toNat + 6) ≠ some 0

/-! ### The checksum -/

/-- R131, R132: over bytes that hold values `UdpChecksum` is the folded complement of the sum of the big-endian words of the
two addresses and the two ports, of the UDP length twice, of `NH_UDP` = 17, and of the payload's words, an odd last byte
counted as its upper byte. -/
def Obligations.ChecksumSumsTheBigEndianWords : Prop :=
  ∀ (s : State) (B : Nat → Byte) (ip udp n : Nat), (∀ j, checksumReads ip udp n j → s.mem.byteAt j = some (B j)) →
    let W := fun i => (B i).toNat * 256 + (B (i + 1)).toNat
    let S := ((List.range 8).map (fun k => W (ip + 8 + 2 * k))).sum + ((List.range 8).map (fun k => W (ip + 24 + 2 * k))).sum
      + W (udp + 4) + 17 + W udp + W (udp + 2) + W (udp + 4)
      + ((List.range (n / 2)).map (fun k => W (udp + 8 + 2 * k))).sum
      + (if n % 2 = 1 then (B (udp + 8 + n - 1)).toNat * 256 else 0)
    let s1 := S % 65536 + S / 65536
    let s2 := s1 % 65536 + s1 / 65536
    let c : Half := ~~~(BitVec.ofNat 16 s2)
    s.udpChecksum ip udp n = (if c = 0x0000 then 0xFFFF else c, s)
    ∧ s.mem.checksumAt ip udp n = some (if c = 0x0000 then 0xFFFF else c)

/-- The closed form of the two folds and of the result, which the spec infers from R131 (R135, marked derived there). -/
def Obligations.ChecksumClosedForm : Prop :=
  ∀ S : Nat, 0 < S → S ≤ 2148499457 →
    fold16 (fold16 S) = (S - 1) % 65535 + 1
    ∧ (S % 65535 ≠ 0 → (checksumOfSum S).toNat = 0xFFFF - fold16 (fold16 S))
    ∧ (S % 65535 = 0 → checksumOfSum S = 0xFFFF)

/-- The result is never 0, over `UNSPEC` bytes too, and is 0xFFFF exactly when the folded sum is; the spec infers it from
R131 (R133, marked derived there). -/
def Obligations.ChecksumIsNeverZero : Prop :=
  (∀ (s : State) (ip udp n : Nat), (s.udpChecksum ip udp n).1 ≠ 0x0000)
  ∧ ∀ S : Nat, 17 ≤ S → S ≤ 2148499457 →
      1 ≤ fold16 (fold16 S) ∧ fold16 (fold16 S) ≤ 0xFFFF
      ∧ (checksumOfSum S = 0xFFFF ↔ fold16 (fold16 S) = 0xFFFF)

/-- The accumulator's bound, and two folds leave 16 bits; the spec infers it from R131 (R134, marked derived there). -/
def Obligations.ChecksumAccumulatorNeverWraps : Prop :=
  ∀ src dst hdr pay : List Byte, src.length = 16 → dst.length = 16 → hdr.length = 6 → pay.length ≤ 65527 →
    checksumSum src dst hdr pay ≤ 2148499457 ∧ checksumSum src dst hdr pay < 2 ^ 32
    ∧ checksumSum src dst hdr pay / 65536 ≤ 0x800F
    ∧ fold16 (checksumSum src dst hdr pay) ≤ 0x1800E
    ∧ fold16 (fold16 (checksumSum src dst hdr pay)) ≤ 0xFFFF

/-- Inferred by the spec from R131 and R12 (R138, marked derived there): no byte but the addresses, the first six of the
UDP header and the payload affects the result; if one of those is `UNSPEC` the result is a free value in 0x0001..0xFFFF.
-/
def Obligations.ChecksumReadsOnlyItsBytes : Prop :=
  (∀ (m m' : Memory) (ip udp n : Nat),
    (∀ j, checksumReads ip udp n j → m'.byteAt j = m.byteAt j) → m'.checksumAt ip udp n = m.checksumAt ip udp n)
  ∧ (∀ (s : State) (ip udp n j : Nat), checksumReads ip udp n j → s.mem.byteAt j = none →
      s.udpChecksum ip udp n = (drawnChecksum s.draws, { s with draws := s.draws + 1 })
      ∧ (drawnChecksum s.draws).toNat = (Config.freeCsum s.draws).val + 1)

/-- One flipped bit of an address, a port or the payload changes the checksum; inferred by the spec (R139, marked
derived). -/
def Obligations.FlippedBitChangesTheChecksum : Prop :=
  ∀ (m m' : Memory) (ip n j k : Nat) (b : Byte) (c c' : Half), n ≤ 65527 →
    checksumReads ip (ip + 40) n j → ¬ (ip + 44 ≤ j ∧ j < ip + 46) → k < 8 →
    m.byteAt j = some b → m'.byteAt j = some (b ^^^ BitVec.ofNat 8 (2 ^ k)) →
    (∀ i, i ≠ j → m'.byteAt i = m.byteAt i) →
    m.checksumAt ip (ip + 40) n = some c → m'.checksumAt ip (ip + 40) n = some c' → c' ≠ c

/-- The source's property, inferred by the spec in R139: a frame that scans fails with `BAD_CSUM` once a payload bit is
flipped. -/
def Obligations.FlippedPayloadBitFailsScan : Prop :=
  ∀ (s t : State) (m' : Memory) (plen ulen j k : Nat) (b : Byte), s.scanReady →
    s.mem.halfAt (s.rawOffset.toNat + 4) = some plen → 40 + plen ≤ s.rawLength.toNat →
    s.mem.byteAt (s.rawOffset.toNat + 6) = some 17 →
    s.mem.halfAt (s.rawOffset.toNat + 44) = some ulen → 8 ≤ ulen → ulen ≤ plen →
    (s.mem.checksumAt s.rawOffset.toNat (s.rawOffset.toNat + 40) (ulen - 8)).isSome = true →
    (s.mem.halfAt (s.rawOffset.toNat + 46)).isSome = true →
    exec .scan s = .next t → t.err = false →
    s.rawOffset.toNat + 48 ≤ j → j < s.rawOffset.toNat + 40 + ulen → k < 8 →
    s.mem.byteAt j = some b → m'.byteAt j = some (b ^^^ BitVec.ofNat 8 (2 ^ k)) →
    (∀ i, i ≠ j → m'.byteAt i = s.mem.byteAt i) →
    ∃ u, exec .scan { s with mem := m' } = .next u ∧ u.errCode = .badCsum ∧ u.viewValid = false

/-! ### CSUM -/

/-- R140: without a view CSUM fails with `NO_VIEW`; with one it writes the view's checksum into the two bytes at `UDP_POS
+ 6` and into `CSUM` and changes nothing else. That the checksum over an `UNSPEC` byte is one free value is inferred by
the spec in R138 (marked derived) and is, in the form of one draw, the model's choice (log entry 6). -/
def Obligations.CsumWritesTheChecksum : Prop :=
  ∀ s : State,
    (s.viewValid = false → exec .csum s = .next (s.failedWith .noView))
    ∧ (Inv Config.hw s → s.viewValid = true →
      ∃ k m' d, exec .csum s = .next
        { s with mem := m', csum := k, draws := d, errCode := .ok, err := false, done := true, phase := .idle }
      ∧ ((s.mem.checksumAt s.ip6Pos.toNat s.udpPos.toNat s.payloadLen.toNat = some k ∧ d = s.draws)
        ∨ (s.mem.checksumAt s.ip6Pos.toNat s.udpPos.toNat s.payloadLen.toNat = none
          ∧ k = drawnChecksum s.draws ∧ d = s.draws + 1))
      ∧ halfWritten s.mem m' (s.udpPos.toNat + 6) k)

/-- CSUM is idempotent; inferred by the spec in R141 (marked derived). -/
def Obligations.CsumIsIdempotent : Prop :=
  ∀ s t : State, Inv Config.hw s → s.viewValid = true →
    (s.mem.checksumAt s.ip6Pos.toNat s.udpPos.toNat s.payloadLen.toNat).isSome = true →
    exec .csum s = .next t → exec .csum t = .next t

/-- The source's checksum round-trip, inferred by the spec in R141 (marked derived): after CSUM a SCAN of the unchanged
frame succeeds, and leaves the machine exactly as CSUM left it. -/
def Obligations.CsumThenScanSucceeds : Prop :=
  ∀ s t : State, Inv Config.hw s → s.viewValid = true → s.fieldsAgree Config.hw = true →
    s.rxMeta = 0x000186DD → s.mem.byteAt (s.ip6Pos.toNat + 6) = some 17 →
    (s.mem.checksumAt s.ip6Pos.toNat s.udpPos.toNat s.payloadLen.toNat).isSome = true →
    exec .csum s = .next t → exec .scan t = .next t

/-! ### SPLICE -/

/-- R153, R154, R155: the checks SPLICE makes on the registers, in unbounded arithmetic, before any change; on no other
operands do they fail. -/
def Obligations.SpliceChecksItsOperands : Prop :=
  ∀ s : State, s.viewValid = true →
    (s.payloadLen.toNat < s.arg0.toNat → exec .splice s = .next (s.failedWith .spliceOffset))
    ∧ (s.arg0.toNat ≤ s.payloadLen.toNat → s.arg1.toInt < 0 → (s.arg0.toNat : Int) < -s.arg1.toInt →
        exec .splice s = .next (s.failedWith .spliceBefore))
    ∧ (s.arg0.toNat ≤ s.payloadLen.toNat → 0 < s.arg1.toInt →
        65540 < (s.rawOffset.toNat : Int) + s.rawLength.toNat + s.arg1.toInt →
        exec .splice s = .next (s.failedWith .spliceCapacity))
    ∧ ∀ t, exec .splice s = .next t →
        (t.errCode = .spliceOffset → s.payloadLen.toNat < s.arg0.toNat)
        ∧ (t.errCode = .spliceBefore → s.arg1.toInt < 0 ∧ (s.arg0.toNat : Int) < -s.arg1.toInt)
        ∧ (t.errCode = .spliceCapacity → 0 < s.arg1.toInt
            ∧ 65540 < (s.rawOffset.toNat : Int) + s.rawLength.toNat + s.arg1.toInt)

/-- R156: a SPLICE that fails changes no byte and no register but completion's fields. -/
def Obligations.FailedSpliceChangesNothing : Prop :=
  ∀ s t : State, exec .splice s = .next t → t.err = true →
    t = { s.failedWith t.errCode with draws := t.draws }

/-- R157: `FIELD_OVF` when a length would leave its field, with no change; and it never fires on this hardware while the
host has not written the length fields. -/
def Obligations.SpliceFieldOverflow : Prop :=
  (∀ (s : State), Inv Config.hw s → s.spliceReady →
    let r := s.memRead (s.ip6Pos.toNat + 4) 2
    let q := r.2.memRead (s.udpPos.toNat + 4) 2
    ((r.1 : Int) + s.arg1.toInt < 0 ∨ 65535 < (r.1 : Int) + s.arg1.toInt
      ∨ (q.1 : Int) + s.arg1.toInt < 0 ∨ 65535 < (q.1 : Int) + s.arg1.toInt
      ∨ 65535 < (s.payloadLen.toNat : Int) + 8 + s.arg1.toInt) →
    exec .splice s = .next { s.failedWith .fieldOvf with draws := q.2.draws })
  ∧ (∀ s t : State, Inv Config.hw s → s.fieldsAgree Config.hw = true → exec .splice s = .next t →
      t.errCode ≠ .fieldOvf)

/-- R158 to R161: what a successful SPLICE does to every byte of the buffer and to every register. That the whole room of
an insertion is `UNSPEC`, also where it passes the old end of the range, is the model's choice between R161 and the
`MemMove` of R158 (log entry 5). -/
def Obligations.SpliceMovesTheBytesAndTheLengths : Prop :=
  ∀ s : State, Inv Config.hw s → s.spliceReady →
    let n := s.arg1.toInt
    let b := s.payloadPos.toNat + s.arg0.toNat
    let e := s.rawOffset.toNat + s.rawLength.toNat
    let r := s.memRead (s.ip6Pos.toNat + 4) 2
    let q := r.2.memRead (s.udpPos.toNat + 4) 2
    0 ≤ (r.1 : Int) + n → (r.1 : Int) + n ≤ 65535 → 0 ≤ (q.1 : Int) + n → (q.1 : Int) + n ≤ 65535 →
    (s.payloadLen.toNat : Int) + 8 + n ≤ 65535 →
    ∃ t, exec .splice s = .next t
      ∧ t = { s with
              mem := t.mem, rawLength := t.rawLength, payloadLen := t.payloadLen, splicePos := t.splicePos
              draws := q.2.draws, errCode := .ok, err := false, done := true, phase := .idle }
      ∧ (t.rawLength.toNat : Int) = s.rawLength.toNat + n
      ∧ (t.payloadLen.toNat : Int) = s.payloadLen.toNat + n
      ∧ (t.splicePos.toNat : Int) = b + min n 0
      ∧ t.mem.halfAt (s.ip6Pos.toNat + 4) = some ((r.1 : Int) + n).toNat
      ∧ t.mem.halfAt (s.udpPos.toNat + 4) = some ((q.1 : Int) + n).toNat
      ∧ (∀ j : Nat, ¬ (s.ip6Pos.toNat + 4 ≤ j ∧ j < s.ip6Pos.toNat + 6) →
          ¬ (s.udpPos.toNat + 4 ≤ j ∧ j < s.udpPos.toNat + 6) →
          t.mem.byteAt j =
            if (b : Int) + n ≤ j ∧ (j : Int) < e + n then s.mem.byteAt ((j : Int) - n).toNat
            else if (b ≤ j ∧ (j : Int) < b + n) ∨ ((e : Int) + n ≤ j ∧ j < e) then none
            else s.mem.byteAt j)
      ∧ (s.payloadPos.toNat : Int) ≤ b + n ∧ b ≤ e ∧ (e : Int) + n ≤ 65540

/-- R151, R164: the payload after a successful SPLICE, as a string of bytes: room opened before payload offset `ARG0`, or
the bytes before it deleted. -/
def Obligations.SpliceEditsThePayload : Prop :=
  ∀ s t : State, Inv Config.hw s → s.viewValid = true → exec .splice s = .next t → t.err = false →
    (0 ≤ s.arg1.toInt →
      t.payload = s.payload.take s.arg0.toNat ++ List.replicate s.arg1.toInt.toNat none
        ++ s.payload.drop s.arg0.toNat)
    ∧ (s.arg1.toInt < 0 →
      t.payload = s.payload.take (s.arg0.toNat - (-s.arg1.toInt).toNat) ++ s.payload.drop s.arg0.toNat)

/-- The source's invertibility, inferred by the spec in R165 (marked derived): `splice O, +N` and then `splice O + N, -N`
restores the valid range, the lengths and both length fields. -/
def Obligations.SpliceIsInvertible : Prop :=
  ∀ (s t : State) (off n plen ulen : Nat), Inv Config.hw s → s.viewValid = true → 0 < n → n < 2 ^ 31 → off < 2 ^ 31 →
    s.mem.halfAt (s.ip6Pos.toNat + 4) = some plen → s.mem.halfAt (s.udpPos.toNat + 4) = some ulen →
    exec .splice { s with arg0 := BitVec.ofNat 32 off, arg1 := BitVec.ofNat 32 n } = .next t → t.err = false →
    ∃ u, exec .splice { t with arg0 := BitVec.ofNat 32 (off + n), arg1 := -(BitVec.ofNat 32 n) } = .next u
      ∧ u.err = false
      ∧ u.rawOffset = s.rawOffset ∧ u.rawLength = s.rawLength ∧ u.payloadLen = s.payloadLen
      ∧ u.mem.halfAt (s.ip6Pos.toNat + 4) = some plen ∧ u.mem.halfAt (s.udpPos.toNat + 4) = some ulen
      ∧ u.splicePos.toNat = s.payloadPos.toNat + off
      ∧ (∀ j, s.rawOffset.toNat ≤ j → j < s.rawOffset.toNat + s.rawLength.toNat → u.mem.byteAt j = s.mem.byteAt j)
      ∧ (∀ j, s.rawOffset.toNat + s.rawLength.toNat ≤ j → j < s.rawOffset.toNat + s.rawLength.toNat + n →
          u.mem.byteAt j = none)

/-- R163: a SPLICE of length 0 moves nothing and reports the boundary; without a view, or past the payload, it fails. -/
def Obligations.ZeroLengthSpliceOnlyReports : Prop :=
  ∀ s : State, s.arg1 = 0 →
    (s.viewValid = false → exec .splice s = .next (s.failedWith .noView))
    ∧ (s.viewValid = true → s.payloadLen.toNat < s.arg0.toNat → exec .splice s = .next (s.failedWith .spliceOffset))
    ∧ ∀ plen ulen : Nat, Inv Config.hw s → s.viewValid = true → s.arg0.toNat ≤ s.payloadLen.toNat →
      s.mem.halfAt (s.ip6Pos.toNat + 4) = some plen → s.mem.halfAt (s.udpPos.toNat + 4) = some ulen →
      exec .splice s = .next
        { s with splicePos := s.payloadPos + s.arg0, errCode := .ok, err := false, done := true, phase := .idle }

/-! ### SEND -/

/-- R181, R182, R184 (and R183, R185): without a view SEND fails with `NO_VIEW`; with one it writes the checksum as CSUM
does, hands over the whole valid range, and completes by the transmitter's answer, whichever it is; on `TX_OK` the whole
frame left. The model's choices: the answer is a free value and what left on `TX_FAIL` keeps the frame's order (log entry
7), and the checksum over an `UNSPEC` byte is one free value (R138, the spec's inference; log entry 6). -/
def Obligations.SendHandsOverTheFrame : Prop :=
  ∀ s : State,
    (s.viewValid = false → exec .send s = .next (s.failedWith .noView))
    ∧ (Inv Config.hw s → s.viewValid = true →
      ∃ k m' d bytes left, exec .send s = .next
        { s with
          mem := m', csum := k, draws := d, obs := .frame bytes (Config.txOutcome s.draws) left :: s.obs
          errCode := if Config.txOutcome s.draws = .ok then .ok else .txError
          err := decide (Config.txOutcome s.draws = .fail), done := true, phase := .idle }
      ∧ (s.mem.checksumAt s.ip6Pos.toNat s.udpPos.toNat s.payloadLen.toNat = some k
        ∨ (s.mem.checksumAt s.ip6Pos.toNat s.udpPos.toNat s.payloadLen.toNat = none ∧ k = drawnChecksum s.draws))
      ∧ halfWritten s.mem m' (s.udpPos.toNat + 6) k
      ∧ bytes.length = s.rawLength.toNat
      ∧ (∀ i b, i < s.rawLength.toNat → m'.byteAt (s.rawOffset.toNat + i) = some b → bytes[i]? = some b)
      ∧ (Config.txOutcome s.draws = .ok → left = bytes) ∧ left.Sublist bytes)

/-- R186, R187: a second SEND of a frame whose bytes all hold values hands over the same bytes. -/
def Obligations.SendAgainSendsTheSameFrame : Prop :=
  ∀ s t : State, Inv Config.hw s → s.viewValid = true →
    (s.mem.bytesAt s.rawOffset.toNat s.rawLength.toNat).isSome = true → exec .send s = .next t →
    ∃ u bytes o₁ l₁ o₂ l₂, exec .send t = .next u
      ∧ t.obs = .frame bytes o₁ l₁ :: s.obs ∧ u.obs = .frame bytes o₂ l₂ :: t.obs
      ∧ u.mem = t.mem ∧ u.csum = t.csum

/-! ### Invariants and progress -/

/-- R47, R45: the invariant holds after reset. -/
def Obligations.InvariantHoldsAtReset : Prop := Inv Config.hw State.reset

/-- R36, R44, R84, R205, and what the spec infers in R45 (marked derived): every step keeps the invariant, from every
state. -/
def Obligations.EveryStepKeepsTheInvariant : Prop :=
  ∀ s t : State, Inv Config.hw s → step s = .next t → Inv Config.hw t

/-- R10, R45: on every legal configuration, whatever the transmitter answers, the commands keep the invariant and none
leaves the buffer (R69). -/
def Obligations.CommandsKeepTheInvariantOnEveryConfiguration : Prop :=
  ∀ (c : Config) (s : State), c.legal = true → Inv c s →
    (∃ t, scanOn c s = .next t ∧ Inv c t) ∧ (∃ t, csumOn c s = .next t ∧ Inv c t)
    ∧ (∃ t, spliceOn c s = .next t ∧ Inv c t) ∧ (∀ o, ∃ t, sendOn c o s = .next t ∧ Inv c t)

/-- R45, the second group: the commands keep the length fields in agreement with the view (SCAN establishes it when the
two fields hold values). -/
def Obligations.CommandsKeepTheLengthFieldsAgreed : Prop :=
  ∀ (i : Instr) (s t : State), Inv Config.hw s → (s.viewValid = true → s.fieldsAgree Config.hw = true) →
    (i = .scan → (s.mem.halfAt (s.rawOffset.toNat + 4)).isSome = true
      ∧ (s.mem.halfAt (s.rawOffset.toNat + 44)).isSome = true) →
    exec i s = .next t → t.viewValid = true → t.fieldsAgree Config.hw = true

/-- R84, R241: however often the host polls `STATUS` first, the accepted command completes at the engine's turn. -/
def Obligations.AcceptedCommandFinishesAtTheEnginesTurn : Prop :=
  ∀ (k : Nat) (s : State) (w : Word) (rest : List Input), Inv Config.hw s → s.phase = .busy w →
    s.inputs = List.replicate k (HostProgram.rd .status) ++ .engine :: rest →
    ∃ t, Host.Core.run Sys2Proof.core (k + 1) s = .next t ∧ t.busy = false ∧ t.done = true ∧ t.inputs = rest
end

