-- ==== Sys2Proof/Laws/State.lean ====
section
/-! SUPPORT. For each operation that changes the state, one lemma per field: what the field is afterwards. All hold by
unfolding the record update once, so that no later proof unfolds it. -/
namespace Sys2Proof.Machine

/-! ### `Invalidate()` (R35) -/

@[simp] theorem State.invalidate_mem (s : State) : s.invalidate.mem = s.mem := rfl
@[simp] theorem State.invalidate_ie (s : State) : s.invalidate.ie = s.ie := rfl
@[simp] theorem State.invalidate_done (s : State) : s.invalidate.done = s.done := rfl
@[simp] theorem State.invalidate_err (s : State) : s.invalidate.err = s.err := rfl
@[simp] theorem State.invalidate_viewValid (s : State) : s.invalidate.viewValid = false := rfl
@[simp] theorem State.invalidate_ovr (s : State) : s.invalidate.ovr = s.ovr := rfl
@[simp] theorem State.invalidate_errCode (s : State) : s.invalidate.errCode = s.errCode := rfl
@[simp] theorem State.invalidate_arg0 (s : State) : s.invalidate.arg0 = s.arg0 := rfl
@[simp] theorem State.invalidate_arg1 (s : State) : s.invalidate.arg1 = s.arg1 := rfl
@[simp] theorem State.invalidate_rawOffset (s : State) : s.invalidate.rawOffset = s.rawOffset := rfl
@[simp] theorem State.invalidate_rawLength (s : State) : s.invalidate.rawLength = s.rawLength := rfl
@[simp] theorem State.invalidate_rxMeta (s : State) : s.invalidate.rxMeta = s.rxMeta := rfl
@[simp] theorem State.invalidate_ip6Pos (s : State) : s.invalidate.ip6Pos = 0 := rfl
@[simp] theorem State.invalidate_udpPos (s : State) : s.invalidate.udpPos = 0 := rfl
@[simp] theorem State.invalidate_payloadPos (s : State) : s.invalidate.payloadPos = 0 := rfl
@[simp] theorem State.invalidate_payloadLen (s : State) : s.invalidate.payloadLen = 0 := rfl
@[simp] theorem State.invalidate_csum (s : State) : s.invalidate.csum = s.csum := rfl
@[simp] theorem State.invalidate_splicePos (s : State) : s.invalidate.splicePos = s.splicePos := rfl
@[simp] theorem State.invalidate_phase (s : State) : s.invalidate.phase = s.phase := rfl
@[simp] theorem State.invalidate_tx (s : State) : s.invalidate.tx = s.tx := rfl
@[simp] theorem State.invalidate_draws (s : State) : s.invalidate.draws = s.draws := rfl
@[simp] theorem State.invalidate_inputs (s : State) : s.invalidate.inputs = s.inputs := rfl
@[simp] theorem State.invalidate_obs (s : State) : s.invalidate.obs = s.obs := rfl

/-! ### Completion (R205) -/

@[simp] theorem State.complete_mem (s : State) (e : ErrCode) : (s.complete e).mem = s.mem := rfl
@[simp] theorem State.complete_ie (s : State) (e : ErrCode) : (s.complete e).ie = s.ie := rfl
@[simp] theorem State.complete_done (s : State) (e : ErrCode) : (s.complete e).done = true := rfl
@[simp] theorem State.complete_err (s : State) (e : ErrCode) : (s.complete e).err = decide (e ≠ .ok) := rfl
@[simp] theorem State.complete_viewValid (s : State) (e : ErrCode) : (s.complete e).viewValid = s.viewValid := rfl
@[simp] theorem State.complete_ovr (s : State) (e : ErrCode) : (s.complete e).ovr = s.ovr := rfl
@[simp] theorem State.complete_errCode (s : State) (e : ErrCode) : (s.complete e).errCode = e := rfl
@[simp] theorem State.complete_arg0 (s : State) (e : ErrCode) : (s.complete e).arg0 = s.arg0 := rfl
@[simp] theorem State.complete_arg1 (s : State) (e : ErrCode) : (s.complete e).arg1 = s.arg1 := rfl
@[simp] theorem State.complete_rawOffset (s : State) (e : ErrCode) : (s.complete e).rawOffset = s.rawOffset := rfl
@[simp] theorem State.complete_rawLength (s : State) (e : ErrCode) : (s.complete e).rawLength = s.rawLength := rfl
@[simp] theorem State.complete_rxMeta (s : State) (e : ErrCode) : (s.complete e).rxMeta = s.rxMeta := rfl
@[simp] theorem State.complete_ip6Pos (s : State) (e : ErrCode) : (s.complete e).ip6Pos = s.ip6Pos := rfl
@[simp] theorem State.complete_udpPos (s : State) (e : ErrCode) : (s.complete e).udpPos = s.udpPos := rfl
@[simp] theorem State.complete_payloadPos (s : State) (e : ErrCode) : (s.complete e).payloadPos = s.payloadPos := rfl
@[simp] theorem State.complete_payloadLen (s : State) (e : ErrCode) : (s.complete e).payloadLen = s.payloadLen := rfl
@[simp] theorem State.complete_csum (s : State) (e : ErrCode) : (s.complete e).csum = s.csum := rfl
@[simp] theorem State.complete_splicePos (s : State) (e : ErrCode) : (s.complete e).splicePos = s.splicePos := rfl
@[simp] theorem State.complete_phase (s : State) (e : ErrCode) : (s.complete e).phase = .idle := rfl
@[simp] theorem State.complete_tx (s : State) (e : ErrCode) : (s.complete e).tx = s.tx := rfl
@[simp] theorem State.complete_draws (s : State) (e : ErrCode) : (s.complete e).draws = s.draws := rfl
@[simp] theorem State.complete_inputs (s : State) (e : ErrCode) : (s.complete e).inputs = s.inputs := rfl
@[simp] theorem State.complete_obs (s : State) (e : ErrCode) : (s.complete e).obs = s.obs := rfl

/-! ### The acceptance of a command (R84) -/

@[simp] theorem State.acceptCmd_mem (s : State) (w : Word) : (s.acceptCmd w).mem = s.mem := rfl
@[simp] theorem State.acceptCmd_ie (s : State) (w : Word) : (s.acceptCmd w).ie = s.ie := rfl
@[simp] theorem State.acceptCmd_done (s : State) (w : Word) : (s.acceptCmd w).done = false := rfl
@[simp] theorem State.acceptCmd_err (s : State) (w : Word) : (s.acceptCmd w).err = false := rfl
@[simp] theorem State.acceptCmd_viewValid (s : State) (w : Word) : (s.acceptCmd w).viewValid = s.viewValid := rfl
@[simp] theorem State.acceptCmd_ovr (s : State) (w : Word) : (s.acceptCmd w).ovr = s.ovr := rfl
@[simp] theorem State.acceptCmd_errCode (s : State) (w : Word) : (s.acceptCmd w).errCode = .ok := rfl
@[simp] theorem State.acceptCmd_arg0 (s : State) (w : Word) : (s.acceptCmd w).arg0 = s.arg0 := rfl
@[simp] theorem State.acceptCmd_arg1 (s : State) (w : Word) : (s.acceptCmd w).arg1 = s.arg1 := rfl
@[simp] theorem State.acceptCmd_rawOffset (s : State) (w : Word) : (s.acceptCmd w).rawOffset = s.rawOffset := rfl
@[simp] theorem State.acceptCmd_rawLength (s : State) (w : Word) : (s.acceptCmd w).rawLength = s.rawLength := rfl
@[simp] theorem State.acceptCmd_rxMeta (s : State) (w : Word) : (s.acceptCmd w).rxMeta = s.rxMeta := rfl
@[simp] theorem State.acceptCmd_ip6Pos (s : State) (w : Word) : (s.acceptCmd w).ip6Pos = s.ip6Pos := rfl
@[simp] theorem State.acceptCmd_udpPos (s : State) (w : Word) : (s.acceptCmd w).udpPos = s.udpPos := rfl
@[simp] theorem State.acceptCmd_payloadPos (s : State) (w : Word) : (s.acceptCmd w).payloadPos = s.payloadPos := rfl
@[simp] theorem State.acceptCmd_payloadLen (s : State) (w : Word) : (s.acceptCmd w).payloadLen = s.payloadLen := rfl
@[simp] theorem State.acceptCmd_csum (s : State) (w : Word) : (s.acceptCmd w).csum = s.csum := rfl
@[simp] theorem State.acceptCmd_splicePos (s : State) (w : Word) : (s.acceptCmd w).splicePos = s.splicePos := rfl
@[simp] theorem State.acceptCmd_phase (s : State) (w : Word) : (s.acceptCmd w).phase = .busy w := rfl
@[simp] theorem State.acceptCmd_tx (s : State) (w : Word) : (s.acceptCmd w).tx = s.tx := rfl
@[simp] theorem State.acceptCmd_draws (s : State) (w : Word) : (s.acceptCmd w).draws = s.draws := rfl
@[simp] theorem State.acceptCmd_inputs (s : State) (w : Word) : (s.acceptCmd w).inputs = s.inputs := rfl
@[simp] theorem State.acceptCmd_obs (s : State) (w : Word) : (s.acceptCmd w).obs = s.obs := rfl

/-! ### A write to `STATUS` (R28) -/

@[simp] theorem State.writeStatus_mem (s : State) (v : Word) : (s.writeStatus v).mem = s.mem := rfl
@[simp] theorem State.writeStatus_ie (s : State) (v : Word) : (s.writeStatus v).ie = s.ie := rfl
@[simp] theorem State.writeStatus_done (s : State) (v : Word) :
    (s.writeStatus v).done = (s.done && !v.getLsbD 1) := rfl
@[simp] theorem State.writeStatus_err (s : State) (v : Word) : (s.writeStatus v).err = s.err := rfl
@[simp] theorem State.writeStatus_viewValid (s : State) (v : Word) : (s.writeStatus v).viewValid = s.viewValid := rfl
@[simp] theorem State.writeStatus_ovr (s : State) (v : Word) : (s.writeStatus v).ovr = (s.ovr && !v.getLsbD 4) := rfl
@[simp] theorem State.writeStatus_errCode (s : State) (v : Word) : (s.writeStatus v).errCode = s.errCode := rfl
@[simp] theorem State.writeStatus_arg0 (s : State) (v : Word) : (s.writeStatus v).arg0 = s.arg0 := rfl
@[simp] theorem State.writeStatus_arg1 (s : State) (v : Word) : (s.writeStatus v).arg1 = s.arg1 := rfl
@[simp] theorem State.writeStatus_rawOffset (s : State) (v : Word) : (s.writeStatus v).rawOffset = s.rawOffset := rfl
@[simp] theorem State.writeStatus_rawLength (s : State) (v : Word) : (s.writeStatus v).rawLength = s.rawLength := rfl
@[simp] theorem State.writeStatus_rxMeta (s : State) (v : Word) : (s.writeStatus v).rxMeta = s.rxMeta := rfl
@[simp] theorem State.writeStatus_ip6Pos (s : State) (v : Word) : (s.writeStatus v).ip6Pos = s.ip6Pos := rfl
@[simp] theorem State.writeStatus_udpPos (s : State) (v : Word) : (s.writeStatus v).udpPos = s.udpPos := rfl
@[simp] theorem State.writeStatus_payloadPos (s : State) (v : Word) :
    (s.writeStatus v).payloadPos = s.payloadPos := rfl
@[simp] theorem State.writeStatus_payloadLen (s : State) (v : Word) :
    (s.writeStatus v).payloadLen = s.payloadLen := rfl
@[simp] theorem State.writeStatus_csum (s : State) (v : Word) : (s.writeStatus v).csum = s.csum := rfl
@[simp] theorem State.writeStatus_splicePos (s : State) (v : Word) : (s.writeStatus v).splicePos = s.splicePos := rfl
@[simp] theorem State.writeStatus_phase (s : State) (v : Word) : (s.writeStatus v).phase = s.phase := rfl
@[simp] theorem State.writeStatus_tx (s : State) (v : Word) : (s.writeStatus v).tx = s.tx := rfl
@[simp] theorem State.writeStatus_draws (s : State) (v : Word) : (s.writeStatus v).draws = s.draws := rfl
@[simp] theorem State.writeStatus_inputs (s : State) (v : Word) : (s.writeStatus v).inputs = s.inputs := rfl
@[simp] theorem State.writeStatus_obs (s : State) (v : Word) : (s.writeStatus v).obs = s.obs := rfl

/-! ### A write to `CTRL` (R26) -/

@[simp] theorem State.writeCtrl_mem (s : State) (v : Word) : (s.writeCtrl v).mem = s.mem := rfl
@[simp] theorem State.writeCtrl_ie (s : State) (v : Word) : (s.writeCtrl v).ie = v.getLsbD 0 := rfl
@[simp] theorem State.writeCtrl_done (s : State) (v : Word) : (s.writeCtrl v).done = s.done := rfl
@[simp] theorem State.writeCtrl_err (s : State) (v : Word) : (s.writeCtrl v).err = s.err := rfl
@[simp] theorem State.writeCtrl_viewValid (s : State) (v : Word) : (s.writeCtrl v).viewValid = s.viewValid := rfl
@[simp] theorem State.writeCtrl_ovr (s : State) (v : Word) : (s.writeCtrl v).ovr = s.ovr := rfl
@[simp] theorem State.writeCtrl_errCode (s : State) (v : Word) : (s.writeCtrl v).errCode = s.errCode := rfl
@[simp] theorem State.writeCtrl_arg0 (s : State) (v : Word) : (s.writeCtrl v).arg0 = s.arg0 := rfl
@[simp] theorem State.writeCtrl_arg1 (s : State) (v : Word) : (s.writeCtrl v).arg1 = s.arg1 := rfl
@[simp] theorem State.writeCtrl_rawOffset (s : State) (v : Word) : (s.writeCtrl v).rawOffset = s.rawOffset := rfl
@[simp] theorem State.writeCtrl_rawLength (s : State) (v : Word) : (s.writeCtrl v).rawLength = s.rawLength := rfl
@[simp] theorem State.writeCtrl_rxMeta (s : State) (v : Word) : (s.writeCtrl v).rxMeta = s.rxMeta := rfl
@[simp] theorem State.writeCtrl_ip6Pos (s : State) (v : Word) : (s.writeCtrl v).ip6Pos = s.ip6Pos := rfl
@[simp] theorem State.writeCtrl_udpPos (s : State) (v : Word) : (s.writeCtrl v).udpPos = s.udpPos := rfl
@[simp] theorem State.writeCtrl_payloadPos (s : State) (v : Word) : (s.writeCtrl v).payloadPos = s.payloadPos := rfl
@[simp] theorem State.writeCtrl_payloadLen (s : State) (v : Word) : (s.writeCtrl v).payloadLen = s.payloadLen := rfl
@[simp] theorem State.writeCtrl_csum (s : State) (v : Word) : (s.writeCtrl v).csum = s.csum := rfl
@[simp] theorem State.writeCtrl_splicePos (s : State) (v : Word) : (s.writeCtrl v).splicePos = s.splicePos := rfl
@[simp] theorem State.writeCtrl_phase (s : State) (v : Word) : (s.writeCtrl v).phase = s.phase := rfl
@[simp] theorem State.writeCtrl_tx (s : State) (v : Word) : (s.writeCtrl v).tx = s.tx := rfl
@[simp] theorem State.writeCtrl_draws (s : State) (v : Word) : (s.writeCtrl v).draws = s.draws := rfl
@[simp] theorem State.writeCtrl_inputs (s : State) (v : Word) : (s.writeCtrl v).inputs = s.inputs := rfl
@[simp] theorem State.writeCtrl_obs (s : State) (v : Word) : (s.writeCtrl v).obs = s.obs := rfl

/-! ### An ignored write (R41) -/

@[simp] theorem State.ignoredWrite_mem (s : State) : s.ignoredWrite.mem = s.mem := rfl
@[simp] theorem State.ignoredWrite_ie (s : State) : s.ignoredWrite.ie = s.ie := rfl
@[simp] theorem State.ignoredWrite_done (s : State) : s.ignoredWrite.done = s.done := rfl
@[simp] theorem State.ignoredWrite_err (s : State) : s.ignoredWrite.err = s.err := rfl
@[simp] theorem State.ignoredWrite_viewValid (s : State) : s.ignoredWrite.viewValid = s.viewValid := rfl
@[simp] theorem State.ignoredWrite_ovr (s : State) : s.ignoredWrite.ovr = true := rfl
@[simp] theorem State.ignoredWrite_errCode (s : State) : s.ignoredWrite.errCode = s.errCode := rfl
@[simp] theorem State.ignoredWrite_arg0 (s : State) : s.ignoredWrite.arg0 = s.arg0 := rfl
@[simp] theorem State.ignoredWrite_arg1 (s : State) : s.ignoredWrite.arg1 = s.arg1 := rfl
@[simp] theorem State.ignoredWrite_rawOffset (s : State) : s.ignoredWrite.rawOffset = s.rawOffset := rfl
@[simp] theorem State.ignoredWrite_rawLength (s : State) : s.ignoredWrite.rawLength = s.rawLength := rfl
@[simp] theorem State.ignoredWrite_rxMeta (s : State) : s.ignoredWrite.rxMeta = s.rxMeta := rfl
@[simp] theorem State.ignoredWrite_ip6Pos (s : State) : s.ignoredWrite.ip6Pos = s.ip6Pos := rfl
@[simp] theorem State.ignoredWrite_udpPos (s : State) : s.ignoredWrite.udpPos = s.udpPos := rfl
@[simp] theorem State.ignoredWrite_payloadPos (s : State) : s.ignoredWrite.payloadPos = s.payloadPos := rfl
@[simp] theorem State.ignoredWrite_payloadLen (s : State) : s.ignoredWrite.payloadLen = s.payloadLen := rfl
@[simp] theorem State.ignoredWrite_csum (s : State) : s.ignoredWrite.csum = s.csum := rfl
@[simp] theorem State.ignoredWrite_splicePos (s : State) : s.ignoredWrite.splicePos = s.splicePos := rfl
@[simp] theorem State.ignoredWrite_phase (s : State) : s.ignoredWrite.phase = s.phase := rfl
@[simp] theorem State.ignoredWrite_tx (s : State) : s.ignoredWrite.tx = s.tx := rfl
@[simp] theorem State.ignoredWrite_draws (s : State) : s.ignoredWrite.draws = s.draws := rfl
@[simp] theorem State.ignoredWrite_inputs (s : State) : s.ignoredWrite.inputs = s.inputs := rfl
@[simp] theorem State.ignoredWrite_obs (s : State) : s.ignoredWrite.obs = s.obs := rfl

/-! ### An observation (R17) -/

@[simp] theorem State.observe_mem (s : State) (o : Obs) : (s.observe o).mem = s.mem := rfl
@[simp] theorem State.observe_ie (s : State) (o : Obs) : (s.observe o).ie = s.ie := rfl
@[simp] theorem State.observe_done (s : State) (o : Obs) : (s.observe o).done = s.done := rfl
@[simp] theorem State.observe_err (s : State) (o : Obs) : (s.observe o).err = s.err := rfl
@[simp] theorem State.observe_viewValid (s : State) (o : Obs) : (s.observe o).viewValid = s.viewValid := rfl
@[simp] theorem State.observe_ovr (s : State) (o : Obs) : (s.observe o).ovr = s.ovr := rfl
@[simp] theorem State.observe_errCode (s : State) (o : Obs) : (s.observe o).errCode = s.errCode := rfl
@[simp] theorem State.observe_arg0 (s : State) (o : Obs) : (s.observe o).arg0 = s.arg0 := rfl
@[simp] theorem State.observe_arg1 (s : State) (o : Obs) : (s.observe o).arg1 = s.arg1 := rfl
@[simp] theorem State.observe_rawOffset (s : State) (o : Obs) : (s.observe o).rawOffset = s.rawOffset := rfl
@[simp] theorem State.observe_rawLength (s : State) (o : Obs) : (s.observe o).rawLength = s.rawLength := rfl
@[simp] theorem State.observe_rxMeta (s : State) (o : Obs) : (s.observe o).rxMeta = s.rxMeta := rfl
@[simp] theorem State.observe_ip6Pos (s : State) (o : Obs) : (s.observe o).ip6Pos = s.ip6Pos := rfl
@[simp] theorem State.observe_udpPos (s : State) (o : Obs) : (s.observe o).udpPos = s.udpPos := rfl
@[simp] theorem State.observe_payloadPos (s : State) (o : Obs) : (s.observe o).payloadPos = s.payloadPos := rfl
@[simp] theorem State.observe_payloadLen (s : State) (o : Obs) : (s.observe o).payloadLen = s.payloadLen := rfl
@[simp] theorem State.observe_csum (s : State) (o : Obs) : (s.observe o).csum = s.csum := rfl
@[simp] theorem State.observe_splicePos (s : State) (o : Obs) : (s.observe o).splicePos = s.splicePos := rfl
@[simp] theorem State.observe_phase (s : State) (o : Obs) : (s.observe o).phase = s.phase := rfl
@[simp] theorem State.observe_tx (s : State) (o : Obs) : (s.observe o).tx = s.tx := rfl
@[simp] theorem State.observe_draws (s : State) (o : Obs) : (s.observe o).draws = s.draws := rfl
@[simp] theorem State.observe_inputs (s : State) (o : Obs) : (s.observe o).inputs = s.inputs := rfl
@[simp] theorem State.observe_obs (s : State) (o : Obs) : (s.observe o).obs = o :: s.obs := rfl

/-! ### `MemWrite` (R12) -/

@[simp] theorem State.memWrite_mem (s : State) (i n v : Nat) :
    (s.memWrite i n v).mem = s.mem.store i (beBytes n v) := rfl
@[simp] theorem State.memWrite_ie (s : State) (i n v : Nat) : (s.memWrite i n v).ie = s.ie := rfl
@[simp] theorem State.memWrite_done (s : State) (i n v : Nat) : (s.memWrite i n v).done = s.done := rfl
@[simp] theorem State.memWrite_err (s : State) (i n v : Nat) : (s.memWrite i n v).err = s.err := rfl
@[simp] theorem State.memWrite_viewValid (s : State) (i n v : Nat) : (s.memWrite i n v).viewValid = s.viewValid := rfl
@[simp] theorem State.memWrite_ovr (s : State) (i n v : Nat) : (s.memWrite i n v).ovr = s.ovr := rfl
@[simp] theorem State.memWrite_errCode (s : State) (i n v : Nat) : (s.memWrite i n v).errCode = s.errCode := rfl
@[simp] theorem State.memWrite_arg0 (s : State) (i n v : Nat) : (s.memWrite i n v).arg0 = s.arg0 := rfl
@[simp] theorem State.memWrite_arg1 (s : State) (i n v : Nat) : (s.memWrite i n v).arg1 = s.arg1 := rfl
@[simp] theorem State.memWrite_rawOffset (s : State) (i n v : Nat) : (s.memWrite i n v).rawOffset = s.rawOffset := rfl
@[simp] theorem State.memWrite_rawLength (s : State) (i n v : Nat) : (s.memWrite i n v).rawLength = s.rawLength := rfl
@[simp] theorem State.memWrite_rxMeta (s : State) (i n v : Nat) : (s.memWrite i n v).rxMeta = s.rxMeta := rfl
@[simp] theorem State.memWrite_ip6Pos (s : State) (i n v : Nat) : (s.memWrite i n v).ip6Pos = s.ip6Pos := rfl
@[simp] theorem State.memWrite_udpPos (s : State) (i n v : Nat) : (s.memWrite i n v).udpPos = s.udpPos := rfl
@[simp] theorem State.memWrite_payloadPos (s : State) (i n v : Nat) :
    (s.memWrite i n v).payloadPos = s.payloadPos := rfl
@[simp] theorem State.memWrite_payloadLen (s : State) (i n v : Nat) :
    (s.memWrite i n v).payloadLen = s.payloadLen := rfl
@[simp] theorem State.memWrite_csum (s : State) (i n v : Nat) : (s.memWrite i n v).csum = s.csum := rfl
@[simp] theorem State.memWrite_splicePos (s : State) (i n v : Nat) : (s.memWrite i n v).splicePos = s.splicePos := rfl
@[simp] theorem State.memWrite_phase (s : State) (i n v : Nat) : (s.memWrite i n v).phase = s.phase := rfl
@[simp] theorem State.memWrite_tx (s : State) (i n v : Nat) : (s.memWrite i n v).tx = s.tx := rfl
@[simp] theorem State.memWrite_draws (s : State) (i n v : Nat) : (s.memWrite i n v).draws = s.draws := rfl
@[simp] theorem State.memWrite_inputs (s : State) (i n v : Nat) : (s.memWrite i n v).inputs = s.inputs := rfl
@[simp] theorem State.memWrite_obs (s : State) (i n v : Nat) : (s.memWrite i n v).obs = s.obs := rfl

/-! ### `MemMove` (R12) -/

@[simp] theorem State.memMove_mem (s : State) (dst src len : Nat) :
    (s.memMove dst src len).mem = s.mem.move dst src len := rfl
@[simp] theorem State.memMove_ie (s : State) (dst src len : Nat) : (s.memMove dst src len).ie = s.ie := rfl
@[simp] theorem State.memMove_done (s : State) (dst src len : Nat) : (s.memMove dst src len).done = s.done := rfl
@[simp] theorem State.memMove_err (s : State) (dst src len : Nat) : (s.memMove dst src len).err = s.err := rfl
@[simp] theorem State.memMove_viewValid (s : State) (dst src len : Nat) :
    (s.memMove dst src len).viewValid = s.viewValid := rfl
@[simp] theorem State.memMove_ovr (s : State) (dst src len : Nat) : (s.memMove dst src len).ovr = s.ovr := rfl
@[simp] theorem State.memMove_errCode (s : State) (dst src len : Nat) :
    (s.memMove dst src len).errCode = s.errCode := rfl
@[simp] theorem State.memMove_arg0 (s : State) (dst src len : Nat) : (s.memMove dst src len).arg0 = s.arg0 := rfl
@[simp] theorem State.memMove_arg1 (s : State) (dst src len : Nat) : (s.memMove dst src len).arg1 = s.arg1 := rfl
@[simp] theorem State.memMove_rawOffset (s : State) (dst src len : Nat) :
    (s.memMove dst src len).rawOffset = s.rawOffset := rfl
@[simp] theorem State.memMove_rawLength (s : State) (dst src len : Nat) :
    (s.memMove dst src len).rawLength = s.rawLength := rfl
@[simp] theorem State.memMove_rxMeta (s : State) (dst src len : Nat) :
    (s.memMove dst src len).rxMeta = s.rxMeta := rfl
@[simp] theorem State.memMove_ip6Pos (s : State) (dst src len : Nat) :
    (s.memMove dst src len).ip6Pos = s.ip6Pos := rfl
@[simp] theorem State.memMove_udpPos (s : State) (dst src len : Nat) :
    (s.memMove dst src len).udpPos = s.udpPos := rfl
@[simp] theorem State.memMove_payloadPos (s : State) (dst src len : Nat) :
    (s.memMove dst src len).payloadPos = s.payloadPos := rfl
@[simp] theorem State.memMove_payloadLen (s : State) (dst src len : Nat) :
    (s.memMove dst src len).payloadLen = s.payloadLen := rfl
@[simp] theorem State.memMove_csum (s : State) (dst src len : Nat) : (s.memMove dst src len).csum = s.csum := rfl
@[simp] theorem State.memMove_splicePos (s : State) (dst src len : Nat) :
    (s.memMove dst src len).splicePos = s.splicePos := rfl
@[simp] theorem State.memMove_phase (s : State) (dst src len : Nat) : (s.memMove dst src len).phase = s.phase := rfl
@[simp] theorem State.memMove_tx (s : State) (dst src len : Nat) : (s.memMove dst src len).tx = s.tx := rfl
@[simp] theorem State.memMove_draws (s : State) (dst src len : Nat) : (s.memMove dst src len).draws = s.draws := rfl
@[simp] theorem State.memMove_inputs (s : State) (dst src len : Nat) :
    (s.memMove dst src len).inputs = s.inputs := rfl
@[simp] theorem State.memMove_obs (s : State) (dst src len : Nat) : (s.memMove dst src len).obs = s.obs := rfl

/-! ### Marking bytes `UNSPEC` (R12) -/

@[simp] theorem State.memUnspec_mem (s : State) (lo len : Nat) : (s.memUnspec lo len).mem = s.mem.clear lo len := rfl
@[simp] theorem State.memUnspec_ie (s : State) (lo len : Nat) : (s.memUnspec lo len).ie = s.ie := rfl
@[simp] theorem State.memUnspec_done (s : State) (lo len : Nat) : (s.memUnspec lo len).done = s.done := rfl
@[simp] theorem State.memUnspec_err (s : State) (lo len : Nat) : (s.memUnspec lo len).err = s.err := rfl
@[simp] theorem State.memUnspec_viewValid (s : State) (lo len : Nat) :
    (s.memUnspec lo len).viewValid = s.viewValid := rfl
@[simp] theorem State.memUnspec_ovr (s : State) (lo len : Nat) : (s.memUnspec lo len).ovr = s.ovr := rfl
@[simp] theorem State.memUnspec_errCode (s : State) (lo len : Nat) : (s.memUnspec lo len).errCode = s.errCode := rfl
@[simp] theorem State.memUnspec_arg0 (s : State) (lo len : Nat) : (s.memUnspec lo len).arg0 = s.arg0 := rfl
@[simp] theorem State.memUnspec_arg1 (s : State) (lo len : Nat) : (s.memUnspec lo len).arg1 = s.arg1 := rfl
@[simp] theorem State.memUnspec_rawOffset (s : State) (lo len : Nat) :
    (s.memUnspec lo len).rawOffset = s.rawOffset := rfl
@[simp] theorem State.memUnspec_rawLength (s : State) (lo len : Nat) :
    (s.memUnspec lo len).rawLength = s.rawLength := rfl
@[simp] theorem State.memUnspec_rxMeta (s : State) (lo len : Nat) : (s.memUnspec lo len).rxMeta = s.rxMeta := rfl
@[simp] theorem State.memUnspec_ip6Pos (s : State) (lo len : Nat) : (s.memUnspec lo len).ip6Pos = s.ip6Pos := rfl
@[simp] theorem State.memUnspec_udpPos (s : State) (lo len : Nat) : (s.memUnspec lo len).udpPos = s.udpPos := rfl
@[simp] theorem State.memUnspec_payloadPos (s : State) (lo len : Nat) :
    (s.memUnspec lo len).payloadPos = s.payloadPos := rfl
@[simp] theorem State.memUnspec_payloadLen (s : State) (lo len : Nat) :
    (s.memUnspec lo len).payloadLen = s.payloadLen := rfl
@[simp] theorem State.memUnspec_csum (s : State) (lo len : Nat) : (s.memUnspec lo len).csum = s.csum := rfl
@[simp] theorem State.memUnspec_splicePos (s : State) (lo len : Nat) :
    (s.memUnspec lo len).splicePos = s.splicePos := rfl
@[simp] theorem State.memUnspec_phase (s : State) (lo len : Nat) : (s.memUnspec lo len).phase = s.phase := rfl
@[simp] theorem State.memUnspec_tx (s : State) (lo len : Nat) : (s.memUnspec lo len).tx = s.tx := rfl
@[simp] theorem State.memUnspec_draws (s : State) (lo len : Nat) : (s.memUnspec lo len).draws = s.draws := rfl
@[simp] theorem State.memUnspec_inputs (s : State) (lo len : Nat) : (s.memUnspec lo len).inputs = s.inputs := rfl
@[simp] theorem State.memUnspec_obs (s : State) (lo len : Nat) : (s.memUnspec lo len).obs = s.obs := rfl

/-! ### The hand-off of a frame (R183) -/

@[simp] theorem State.handOff_mem (s : State) (bytes : List Byte) : (s.handOff bytes).mem = s.mem := rfl
@[simp] theorem State.handOff_ie (s : State) (bytes : List Byte) : (s.handOff bytes).ie = s.ie := rfl
@[simp] theorem State.handOff_done (s : State) (bytes : List Byte) : (s.handOff bytes).done = s.done := rfl
@[simp] theorem State.handOff_err (s : State) (bytes : List Byte) : (s.handOff bytes).err = s.err := rfl
@[simp] theorem State.handOff_viewValid (s : State) (bytes : List Byte) :
    (s.handOff bytes).viewValid = s.viewValid := rfl
@[simp] theorem State.handOff_ovr (s : State) (bytes : List Byte) : (s.handOff bytes).ovr = s.ovr := rfl
@[simp] theorem State.handOff_errCode (s : State) (bytes : List Byte) : (s.handOff bytes).errCode = s.errCode := rfl
@[simp] theorem State.handOff_arg0 (s : State) (bytes : List Byte) : (s.handOff bytes).arg0 = s.arg0 := rfl
@[simp] theorem State.handOff_arg1 (s : State) (bytes : List Byte) : (s.handOff bytes).arg1 = s.arg1 := rfl
@[simp] theorem State.handOff_rawOffset (s : State) (bytes : List Byte) :
    (s.handOff bytes).rawOffset = s.rawOffset := rfl
@[simp] theorem State.handOff_rawLength (s : State) (bytes : List Byte) :
    (s.handOff bytes).rawLength = s.rawLength := rfl
@[simp] theorem State.handOff_rxMeta (s : State) (bytes : List Byte) : (s.handOff bytes).rxMeta = s.rxMeta := rfl
@[simp] theorem State.handOff_ip6Pos (s : State) (bytes : List Byte) : (s.handOff bytes).ip6Pos = s.ip6Pos := rfl
@[simp] theorem State.handOff_udpPos (s : State) (bytes : List Byte) : (s.handOff bytes).udpPos = s.udpPos := rfl
@[simp] theorem State.handOff_payloadPos (s : State) (bytes : List Byte) :
    (s.handOff bytes).payloadPos = s.payloadPos := rfl
@[simp] theorem State.handOff_payloadLen (s : State) (bytes : List Byte) :
    (s.handOff bytes).payloadLen = s.payloadLen := rfl
@[simp] theorem State.handOff_csum (s : State) (bytes : List Byte) : (s.handOff bytes).csum = s.csum := rfl
@[simp] theorem State.handOff_splicePos (s : State) (bytes : List Byte) :
    (s.handOff bytes).splicePos = s.splicePos := rfl
@[simp] theorem State.handOff_phase (s : State) (bytes : List Byte) : (s.handOff bytes).phase = s.phase := rfl
@[simp] theorem State.handOff_tx (s : State) (bytes : List Byte) : (s.handOff bytes).tx = .pending bytes := rfl
@[simp] theorem State.handOff_draws (s : State) (bytes : List Byte) : (s.handOff bytes).draws = s.draws := rfl
@[simp] theorem State.handOff_inputs (s : State) (bytes : List Byte) : (s.handOff bytes).inputs = s.inputs := rfl
@[simp] theorem State.handOff_obs (s : State) (bytes : List Byte) : (s.handOff bytes).obs = s.obs := rfl

/-! ### A free word (R68) -/

@[simp] theorem State.drawWord_mem (s : State) : s.drawWord.2.mem = s.mem := rfl
@[simp] theorem State.drawWord_ie (s : State) : s.drawWord.2.ie = s.ie := rfl
@[simp] theorem State.drawWord_done (s : State) : s.drawWord.2.done = s.done := rfl
@[simp] theorem State.drawWord_err (s : State) : s.drawWord.2.err = s.err := rfl
@[simp] theorem State.drawWord_viewValid (s : State) : s.drawWord.2.viewValid = s.viewValid := rfl
@[simp] theorem State.drawWord_ovr (s : State) : s.drawWord.2.ovr = s.ovr := rfl
@[simp] theorem State.drawWord_errCode (s : State) : s.drawWord.2.errCode = s.errCode := rfl
@[simp] theorem State.drawWord_arg0 (s : State) : s.drawWord.2.arg0 = s.arg0 := rfl
@[simp] theorem State.drawWord_arg1 (s : State) : s.drawWord.2.arg1 = s.arg1 := rfl
@[simp] theorem State.drawWord_rawOffset (s : State) : s.drawWord.2.rawOffset = s.rawOffset := rfl
@[simp] theorem State.drawWord_rawLength (s : State) : s.drawWord.2.rawLength = s.rawLength := rfl
@[simp] theorem State.drawWord_rxMeta (s : State) : s.drawWord.2.rxMeta = s.rxMeta := rfl
@[simp] theorem State.drawWord_ip6Pos (s : State) : s.drawWord.2.ip6Pos = s.ip6Pos := rfl
@[simp] theorem State.drawWord_udpPos (s : State) : s.drawWord.2.udpPos = s.udpPos := rfl
@[simp] theorem State.drawWord_payloadPos (s : State) : s.drawWord.2.payloadPos = s.payloadPos := rfl
@[simp] theorem State.drawWord_payloadLen (s : State) : s.drawWord.2.payloadLen = s.payloadLen := rfl
@[simp] theorem State.drawWord_csum (s : State) : s.drawWord.2.csum = s.csum := rfl
@[simp] theorem State.drawWord_splicePos (s : State) : s.drawWord.2.splicePos = s.splicePos := rfl
@[simp] theorem State.drawWord_phase (s : State) : s.drawWord.2.phase = s.phase := rfl
@[simp] theorem State.drawWord_tx (s : State) : s.drawWord.2.tx = s.tx := rfl
@[simp] theorem State.drawWord_draws (s : State) : s.drawWord.2.draws = s.draws + 1 := rfl
@[simp] theorem State.drawWord_inputs (s : State) : s.drawWord.2.inputs = s.inputs := rfl
@[simp] theorem State.drawWord_obs (s : State) : s.drawWord.2.obs = s.obs := rfl

/-! ### Reading bytes (R12): only draws are counted -/

@[simp] theorem State.readBytes_mem (s : State) (i n : Nat) : (s.readBytes i n).2.mem = s.mem := rfl
@[simp] theorem State.readBytes_ie (s : State) (i n : Nat) : (s.readBytes i n).2.ie = s.ie := rfl
@[simp] theorem State.readBytes_done (s : State) (i n : Nat) : (s.readBytes i n).2.done = s.done := rfl
@[simp] theorem State.readBytes_err (s : State) (i n : Nat) : (s.readBytes i n).2.err = s.err := rfl
@[simp] theorem State.readBytes_viewValid (s : State) (i n : Nat) : (s.readBytes i n).2.viewValid = s.viewValid := rfl
@[simp] theorem State.readBytes_ovr (s : State) (i n : Nat) : (s.readBytes i n).2.ovr = s.ovr := rfl
@[simp] theorem State.readBytes_errCode (s : State) (i n : Nat) : (s.readBytes i n).2.errCode = s.errCode := rfl
@[simp] theorem State.readBytes_arg0 (s : State) (i n : Nat) : (s.readBytes i n).2.arg0 = s.arg0 := rfl
@[simp] theorem State.readBytes_arg1 (s : State) (i n : Nat) : (s.readBytes i n).2.arg1 = s.arg1 := rfl
@[simp] theorem State.readBytes_rawOffset (s : State) (i n : Nat) : (s.readBytes i n).2.rawOffset = s.rawOffset := rfl
@[simp] theorem State.readBytes_rawLength (s : State) (i n : Nat) : (s.readBytes i n).2.rawLength = s.rawLength := rfl
@[simp] theorem State.readBytes_rxMeta (s : State) (i n : Nat) : (s.readBytes i n).2.rxMeta = s.rxMeta := rfl
@[simp] theorem State.readBytes_ip6Pos (s : State) (i n : Nat) : (s.readBytes i n).2.ip6Pos = s.ip6Pos := rfl
@[simp] theorem State.readBytes_udpPos (s : State) (i n : Nat) : (s.readBytes i n).2.udpPos = s.udpPos := rfl
@[simp] theorem State.readBytes_payloadPos (s : State) (i n : Nat) :
    (s.readBytes i n).2.payloadPos = s.payloadPos := rfl
@[simp] theorem State.readBytes_payloadLen (s : State) (i n : Nat) :
    (s.readBytes i n).2.payloadLen = s.payloadLen := rfl
@[simp] theorem State.readBytes_csum (s : State) (i n : Nat) : (s.readBytes i n).2.csum = s.csum := rfl
@[simp] theorem State.readBytes_splicePos (s : State) (i n : Nat) : (s.readBytes i n).2.splicePos = s.splicePos := rfl
@[simp] theorem State.readBytes_phase (s : State) (i n : Nat) : (s.readBytes i n).2.phase = s.phase := rfl
@[simp] theorem State.readBytes_tx (s : State) (i n : Nat) : (s.readBytes i n).2.tx = s.tx := rfl
@[simp] theorem State.readBytes_draws (s : State) (i n : Nat) :
    (s.readBytes i n).2.draws = (s.mem.readBytes s.draws i n).2 := rfl
@[simp] theorem State.readBytes_inputs (s : State) (i n : Nat) : (s.readBytes i n).2.inputs = s.inputs := rfl
@[simp] theorem State.readBytes_obs (s : State) (i n : Nat) : (s.readBytes i n).2.obs = s.obs := rfl

/-! ### `MemRead` (R12): only draws are counted -/

@[simp] theorem State.memRead_mem (s : State) (i n : Nat) : (s.memRead i n).2.mem = s.mem := rfl
@[simp] theorem State.memRead_ie (s : State) (i n : Nat) : (s.memRead i n).2.ie = s.ie := rfl
@[simp] theorem State.memRead_done (s : State) (i n : Nat) : (s.memRead i n).2.done = s.done := rfl
@[simp] theorem State.memRead_err (s : State) (i n : Nat) : (s.memRead i n).2.err = s.err := rfl
@[simp] theorem State.memRead_viewValid (s : State) (i n : Nat) : (s.memRead i n).2.viewValid = s.viewValid := rfl
@[simp] theorem State.memRead_ovr (s : State) (i n : Nat) : (s.memRead i n).2.ovr = s.ovr := rfl
@[simp] theorem State.memRead_errCode (s : State) (i n : Nat) : (s.memRead i n).2.errCode = s.errCode := rfl
@[simp] theorem State.memRead_arg0 (s : State) (i n : Nat) : (s.memRead i n).2.arg0 = s.arg0 := rfl
@[simp] theorem State.memRead_arg1 (s : State) (i n : Nat) : (s.memRead i n).2.arg1 = s.arg1 := rfl
@[simp] theorem State.memRead_rawOffset (s : State) (i n : Nat) : (s.memRead i n).2.rawOffset = s.rawOffset := rfl
@[simp] theorem State.memRead_rawLength (s : State) (i n : Nat) : (s.memRead i n).2.rawLength = s.rawLength := rfl
@[simp] theorem State.memRead_rxMeta (s : State) (i n : Nat) : (s.memRead i n).2.rxMeta = s.rxMeta := rfl
@[simp] theorem State.memRead_ip6Pos (s : State) (i n : Nat) : (s.memRead i n).2.ip6Pos = s.ip6Pos := rfl
@[simp] theorem State.memRead_udpPos (s : State) (i n : Nat) : (s.memRead i n).2.udpPos = s.udpPos := rfl
@[simp] theorem State.memRead_payloadPos (s : State) (i n : Nat) : (s.memRead i n).2.payloadPos = s.payloadPos := rfl
@[simp] theorem State.memRead_payloadLen (s : State) (i n : Nat) : (s.memRead i n).2.payloadLen = s.payloadLen := rfl
@[simp] theorem State.memRead_csum (s : State) (i n : Nat) : (s.memRead i n).2.csum = s.csum := rfl
@[simp] theorem State.memRead_splicePos (s : State) (i n : Nat) : (s.memRead i n).2.splicePos = s.splicePos := rfl
@[simp] theorem State.memRead_phase (s : State) (i n : Nat) : (s.memRead i n).2.phase = s.phase := rfl
@[simp] theorem State.memRead_tx (s : State) (i n : Nat) : (s.memRead i n).2.tx = s.tx := rfl
@[simp] theorem State.memRead_draws (s : State) (i n : Nat) :
    (s.memRead i n).2.draws = (s.mem.readBytes s.draws i n).2 := rfl
@[simp] theorem State.memRead_inputs (s : State) (i n : Nat) : (s.memRead i n).2.inputs = s.inputs := rfl
@[simp] theorem State.memRead_obs (s : State) (i n : Nat) : (s.memRead i n).2.obs = s.obs := rfl

/-! ### The flags a state computes -/

theorem State.busy_of_idle (s : State) (h : s.phase = .idle) : s.busy = false := by simp [State.busy, h]

theorem State.busy_of_busy (s : State) (w : Word) (h : s.phase = .busy w) : s.busy = true := by simp [State.busy, h]

theorem State.busy_iff (s : State) : s.busy = true ↔ ∃ w, s.phase = .busy w := by
  cases h : s.phase <;> simp [State.busy, h]

theorem State.not_busy_iff (s : State) : s.busy = false ↔ s.phase = .idle := by
  cases h : s.phase <;> simp [State.busy, h]

@[simp] theorem State.complete_busy (s : State) (e : ErrCode) : (s.complete e).busy = false := rfl

@[simp] theorem State.acceptCmd_busy (s : State) (w : Word) : (s.acceptCmd w).busy = true := rfl

end Sys2Proof.Machine
end

