-- ==== Sys2Proof/Laws/Bus.lean ====
section
/-! SUPPORT. What a host transaction reaches and what it can do (`20_memory.md` R61 to R68). -/
namespace Sys2Proof.Machine

theorem step_withBus (s : State) (t : BusOp) : step (s.withBus t) = busStep Config.hw t s := rfl

/-- A legal register access reaches the register at its offset (R61). -/
theorem busTarget_reg (c : Config) {a : HostAddr} {n : Nat} (h : a.toNat ≤ 0xFC ∧ a.toNat % 4 = 0 ∧ n = 4) :
    busTarget c a n = some (.reg (regAt a.toNat)) := by
  unfold busTarget
  dsimp only
  rw [if_pos (by omega), if_pos (by omega)]

/-- A legal buffer access reaches the bytes at its index (R61, R62). -/
theorem busTarget_buf {a : HostAddr} {n : Nat} (h0 : 0x20000 ≤ a.toNat) (h : legalAccess a n) :
    busTarget Config.hw a n = some (.buf (a.toNat - 0x20000) n) := by
  unfold legalAccess at h
  unfold busTarget
  dsimp only
  rw [if_neg (by omega), if_pos (by simpa using h0), if_pos (by simp only [Config.bufBase] at *; omega)]

/-- A transaction reaches something exactly when it is legal (R64). -/
theorem busTarget_isSome (a : HostAddr) (n : Nat) : (busTarget Config.hw a n).isSome = true ↔ legalAccess a n := by
  have := a.isLt
  unfold busTarget legalAccess
  dsimp only [Config.bufBase]
  split
  · split <;> simp <;> omega
  · split
    · split <;> simp <;> omega
    · simp; omega

/-- The only address that reaches a register other than a reserved one is its own. -/
theorem busTarget_eq_reg {c : Config} {a : HostAddr} {n : Nat} {r : Reg} (h : busTarget c a n = some (.reg r))
    (hr : r ≠ .reserved) : n = 4 ∧ a = BitVec.ofNat 18 r.offset := by
  unfold busTarget at h
  dsimp only at h
  split at h
  · split at h
    · rename_i h1 h2
      simp only [Option.some.injEq, BusTarget.reg.injEq] at h
      refine ⟨h2.1, BitVec.eq_of_toNat_eq ?_⟩
      rw [← h] at hr ⊢
      clear h h2
      generalize a.toNat = k at *
      unfold regAt at hr ⊢
      split at hr <;> simp_all [Reg.offset]
    · simp at h
  · split at h
    · split at h <;> simp at h
    · simp at h

/-- A buffer access reaches bytes inside the buffer. -/
theorem busTarget_eq_buf {c : Config} {a : HostAddr} {n i k : Nat} (h : busTarget c a n = some (.buf i k)) :
    i + k ≤ c.bufCap ∧ k = n := by
  unfold busTarget at h
  dsimp only at h
  split at h
  · split at h <;> simp at h
  · split at h
    · split at h
      · simp only [Option.some.injEq, BusTarget.buf.injEq] at h
        omega
      · simp at h
    · simp at h

/-- What a host read can do: only the draws and the record of reads change. -/
theorem busStep_read {c : Config} {a : HostAddr} {n : Nat} {s t : State} (h : busStep c (.read a n) s = .next t) :
    ∃ d v, t = { s with draws := d, obs := .read v :: s.obs } := by
  simp only [busStep] at h
  split at h
  · simp at h
  · simp only [Host.Outcome.next.injEq] at h
    subst h
    simp only [State.regRead]
    split <;> exact ⟨_, _, rfl⟩
  · simp only [Host.Outcome.next.injEq] at h
    subst h
    simp only [State.bufRead]
    split <;> exact ⟨_, _, rfl⟩

/-- What a host write can do: a register takes it, or the buffer while the engine is idle. -/
theorem busStep_write {c : Config} {a : HostAddr} {n : Nat} {d : Word} {s t : State}
    (h : busStep c (.write a n d) s = .next t) :
    (∃ r, busTarget c a n = some (.reg r) ∧ t = s.regWrite r d)
    ∨ (∃ i k, busTarget c a n = some (.buf i k) ∧ s.busy = false ∧ t = s.memWrite i k d.toNat) := by
  simp only [busStep] at h
  split at h
  · simp at h
  · rename_i r hr
    simp only [Host.Outcome.next.injEq] at h
    exact .inl ⟨r, hr, h.symm⟩
  · rename_i i k hk
    refine .inr ⟨i, k, hk, ?_⟩
    unfold State.bufWrite at h
    split at h
    · simp at h
    · rename_i hb
      simp only [Host.Outcome.next.injEq] at h
      exact ⟨by simpa using hb, h.symm⟩

/-- What a register write can do, in five cases (R26, R28 to R35, R39 to R41). -/
theorem State.regWrite_cases (s : State) (r : Reg) (v : Word) :
    s.regWrite r v = s
    ∨ (r = .ctrl ∧ s.regWrite r v = s.writeCtrl v)
    ∨ (r = .status ∧ s.regWrite r v = s.writeStatus v)
    ∨ (s.busy = true ∧ BitVec.ofNat 18 r.offset ∈ busyGuarded ∧ s.regWrite r v = s.ignoredWrite)
    ∨ (s.busy = false ∧ ((r = .cmd ∧ s.regWrite r v = s.acceptCmd v)
        ∨ (∃ a0 a1, s.regWrite r v = { s with arg0 := a0, arg1 := a1 })
        ∨ (∃ ro rl m, BitVec.ofNat 18 r.offset ∈ ([0x18, 0x1C, 0x20] : List HostAddr) ∧
            s.regWrite r v = { s.invalidate with rawOffset := ro, rawLength := rl, rxMeta := m }))) := by
  cases hb : s.busy
  · have hi : ∀ a, s.idleWrite a = a := fun a => by simp [State.idleWrite, hb]
    cases r
    case capacity | ip6Pos | udpPos | payloadPos | payloadLen | csum | splicePos | reserved => exact .inl rfl
    case ctrl => exact .inr (.inl ⟨rfl, rfl⟩)
    case status => exact .inr (.inr (.inl ⟨rfl, rfl⟩))
    case cmd => exact .inr (.inr (.inr (.inr ⟨rfl, .inl ⟨rfl, hi _⟩⟩)))
    case arg0 => exact .inr (.inr (.inr (.inr ⟨rfl, .inr (.inl ⟨v, s.arg1, hi _⟩)⟩)))
    case arg1 => exact .inr (.inr (.inr (.inr ⟨rfl, .inr (.inl ⟨s.arg0, v, hi _⟩)⟩)))
    case rawOffset =>
      exact .inr (.inr (.inr (.inr ⟨rfl, .inr (.inr ⟨v, s.rawLength, s.rxMeta, by decide, hi _⟩)⟩)))
    case rawLength =>
      exact .inr (.inr (.inr (.inr ⟨rfl, .inr (.inr ⟨s.rawOffset, v, s.rxMeta, by decide, hi _⟩)⟩)))
    case rxMeta =>
      exact .inr (.inr (.inr (.inr ⟨rfl, .inr (.inr ⟨s.rawOffset, s.rawLength, v, by decide, hi _⟩)⟩)))
  · have hi : ∀ a, s.idleWrite a = s.ignoredWrite := fun a => by simp [State.idleWrite, hb]
    cases r
    case capacity | ip6Pos | udpPos | payloadPos | payloadLen | csum | splicePos | reserved => exact .inl rfl
    case ctrl => exact .inr (.inl ⟨rfl, rfl⟩)
    case status => exact .inr (.inr (.inl ⟨rfl, rfl⟩))
    case cmd | arg0 | arg1 | rawOffset | rawLength | rxMeta =>
      exact .inr (.inr (.inr (.inl ⟨rfl, by decide, hi _⟩)))

end Sys2Proof.Machine
end

