-- ==== Sys2Proof/Laws/Memory.lean ====
section
/-! SUPPORT. What the buffer's operations do to every byte, and that each keeps the canonical form (`00_scope.md` R12). -/
namespace Sys2Proof.Machine

/-! ### One byte -/

@[simp] theorem Memory.byteAt_nil (i : Nat) : Memory.byteAt [] i = none := rfl

theorem Memory.byteAt_cons (a : Nat) (b : Byte) (m : Memory) (i : Nat) :
    Memory.byteAt ((a, b) :: m) i = if a = i then some b else Memory.byteAt m i := rfl

theorem Memory.byteAt_append (m m' : Memory) (i : Nat) :
    Memory.byteAt (m ++ m') i = (Memory.byteAt m i).or (Memory.byteAt m' i) := by
  induction m with
  | nil => simp
  | cons c m ih =>
    obtain ⟨a, b⟩ := c
    by_cases h : a = i <;> simp [Memory.byteAt_cons, h, ih]

/-- Dropping cells by their index. -/
theorem Memory.byteAt_filter (p : Nat → Bool) (m : Memory) (i : Nat) :
    Memory.byteAt (m.filter (fun c => p c.1)) i = if p i then Memory.byteAt m i else none := by
  induction m with
  | nil => simp
  | cons c m ih =>
    obtain ⟨a, b⟩ := c
    by_cases ha : p a <;> by_cases h : a = i <;> simp_all [Memory.byteAt_cons]

/-- A byte that is held is listed. -/
theorem Memory.mem_of_byteAt {m : Memory} {i : Nat} {b : Byte} (h : m.byteAt i = some b) : (i, b) ∈ m := by
  induction m with
  | nil => simp at h
  | cons c m ih =>
    obtain ⟨a, v⟩ := c
    by_cases ha : a = i
    · simp_all [Memory.byteAt_cons]
    · simp only [Memory.byteAt_cons, ha, if_false] at h
      exact List.mem_cons_of_mem _ (ih h)

/-- No listed index is `i`, so byte `i` is `UNSPEC`. -/
theorem Memory.byteAt_eq_none {m : Memory} {i : Nat} (h : ∀ c ∈ m, c.1 ≠ i) : m.byteAt i = none := by
  cases hb : m.byteAt i with
  | none => rfl
  | some b => exact absurd rfl (h _ (Memory.mem_of_byteAt hb))

/-! ### Replacing a range -/

/-- Inside the range a patch holds its cells, outside it the old bytes. -/
theorem Memory.byteAt_patch (m : Memory) (lo len : Nat) (cells : Memory) (i : Nat)
    (hc : ∀ c ∈ cells, lo ≤ c.1 ∧ c.1 < lo + len) :
    (m.patch lo len cells).byteAt i =
      if lo ≤ i ∧ i < lo + len then Memory.byteAt cells i else m.byteAt i := by
  have hout : ¬ (lo ≤ i ∧ i < lo + len) → Memory.byteAt cells i = none := fun hi =>
    Memory.byteAt_eq_none (fun c hm he => hi (he ▸ hc c hm))
  unfold Memory.patch
  rw [Memory.byteAt_append, Memory.byteAt_append, Memory.byteAt_filter (fun a => decide (a < lo)),
    Memory.byteAt_filter (fun a => decide (lo + len ≤ a))]
  by_cases h1 : i < lo
  · rw [hout (by omega)]
    have : ¬ (lo ≤ i ∧ i < lo + len) := by omega
    have : ¬ (lo + len ≤ i) := by omega
    simp [*]
  · by_cases h2 : i < lo + len
    · have h3 : lo ≤ i ∧ i < lo + len := by omega
      have : ¬ (lo + len ≤ i) := by omega
      simp [*]
    · rw [hout (by omega)]
      have : ¬ (lo ≤ i ∧ i < lo + len) := by omega
      have : lo + len ≤ i := by omega
      simp [*]

@[simp] theorem Memory.byteAt_clear (m : Memory) (lo len i : Nat) :
    (m.clear lo len).byteAt i = if lo ≤ i ∧ i < lo + len then none else m.byteAt i := by
  rw [Memory.clear, Memory.byteAt_patch _ _ _ _ _ (by simp)]
  rfl

theorem Memory.mem_cells {i : Nat} {bs : List Byte} {c : Host.Cell} (h : c ∈ Memory.cells i bs) :
    i ≤ c.1 ∧ c.1 < i + bs.length := by
  induction bs generalizing i with
  | nil => simp [Memory.cells] at h
  | cons b bs ih =>
    rcases List.mem_cons.mp h with h | h
    · subst h; simp
    · have := ih h
      simp only [List.length_cons]
      omega

theorem Memory.byteAt_cells (i : Nat) (bs : List Byte) (j : Nat) :
    Memory.byteAt (Memory.cells i bs) j = if i ≤ j then bs[j - i]? else none := by
  induction bs generalizing i with
  | nil => simp [Memory.cells]
  | cons b bs ih =>
    rw [Memory.cells, Memory.byteAt_cons, ih]
    by_cases h : i = j
    · subst h; simp
    · by_cases h2 : i ≤ j
      · have h3 : i + 1 ≤ j := by omega
        have h4 : j - i = (j - (i + 1)) + 1 := by omega
        simp [h, h2, h3, h4]
      · have h3 : ¬ (i + 1 ≤ j) := by omega
        simp [h, h2, h3]

/-- A store puts its bytes at consecutive indices and leaves every other byte. -/
theorem Memory.byteAt_store (m : Memory) (i : Nat) (bs : List Byte) (j : Nat) :
    (m.store i bs).byteAt j = if i ≤ j ∧ j < i + bs.length then bs[j - i]? else m.byteAt j := by
  rw [Memory.store, Memory.byteAt_patch _ _ _ _ _ (fun c h => Memory.mem_cells h)]
  by_cases h : i ≤ j ∧ j < i + bs.length
  · simp [h, Memory.byteAt_cells]
  · simp [h]

/-! ### MemMove -/

theorem Memory.byteAt_shifted (m : Memory) (dst src len i : Nat) :
    Memory.byteAt ((m.filter (fun c => decide (src ≤ c.1) && decide (c.1 < src + len))).map
        (fun c => (c.1 - src + dst, c.2))) i =
      if dst ≤ i ∧ i < dst + len then m.byteAt (i - dst + src) else none := by
  induction m with
  | nil => simp
  | cons c m ih =>
    obtain ⟨a, b⟩ := c
    rw [List.filter_cons]
    by_cases h : src ≤ a ∧ a < src + len
    · have h' : (decide (src ≤ a) && decide (a < src + len)) = true := by simpa using h
      rw [if_pos h', List.map_cons, Memory.byteAt_cons, Memory.byteAt_cons, ih]
      by_cases h2 : dst ≤ i ∧ i < dst + len
      · have : (a - src + dst = i) ↔ (a = i - dst + src) := by omega
        simp [h2, this]
      · have : ¬ (a - src + dst = i) := by omega
        simp [h2, this]
    · have h' : ¬ ((decide (src ≤ a) && decide (a < src + len)) = true) := by simpa using h
      rw [if_neg h', ih, Memory.byteAt_cons]
      by_cases h2 : dst ≤ i ∧ i < dst + len
      · have : ¬ (a = i - dst + src) := by omega
        simp [h2, this]
      · simp [h2]

theorem Memory.mem_shifted {m : Memory} {dst src len : Nat} {c : Host.Cell}
    (h : c ∈ (m.filter (fun c => decide (src ≤ c.1) && decide (c.1 < src + len))).map
        (fun c => (c.1 - src + dst, c.2))) : dst ≤ c.1 ∧ c.1 < dst + len := by
  obtain ⟨d, hd, rfl⟩ := List.mem_map.mp h
  have := (List.mem_filter.mp hd).2
  simp only [Bool.and_eq_true, decide_eq_true_eq] at this
  dsimp only
  omega

/-- `MemMove` as R12 says it, byte by byte. -/
theorem Memory.byteAt_move (m : Memory) (dst src len i : Nat) :
    (m.move dst src len).byteAt i =
      if dst ≤ i ∧ i < dst + len then m.byteAt (i - dst + src)
      else if src ≤ i ∧ i < src + len then none
      else m.byteAt i := by
  rw [Memory.move, Memory.byteAt_patch _ _ _ _ _ (fun c h => Memory.mem_shifted h), Memory.byteAt_shifted,
    Memory.byteAt_clear]
  by_cases h : dst ≤ i ∧ i < dst + len <;> simp [h]

/-! ### The canonical form -/

theorem Memory.wf_nil (cap : Nat) : Memory.wf cap [] := by simp [Memory.wf]

theorem Memory.wf_patch {cap lo len : Nat} {m cells : Memory} (hm : m.wf cap)
    (hs : cells.Pairwise (fun x y => x.1 < y.1)) (hc : ∀ c ∈ cells, lo ≤ c.1 ∧ c.1 < lo + len)
    (hcap : cells = [] ∨ lo + len ≤ cap) : (m.patch lo len cells).wf cap := by
  obtain ⟨hp, hb⟩ := hm
  refine ⟨?_, ?_⟩
  · unfold Memory.patch
    rw [List.pairwise_append, List.pairwise_append]
    refine ⟨⟨hp.filter _, hs, ?_⟩, hp.filter _, ?_⟩
    · intro x hx y hy
      have h1 := (List.mem_filter.mp hx).2
      have h2 := hc y hy
      simp only [decide_eq_true_eq] at h1
      omega
    · intro x hx y hy
      have h2 := (List.mem_filter.mp hy).2
      simp only [decide_eq_true_eq] at h2
      rcases List.mem_append.mp hx with hx | hx
      · have h1 := (List.mem_filter.mp hx).2
        simp only [decide_eq_true_eq] at h1
        omega
      · have h1 := hc x hx
        omega
  · intro c h
    unfold Memory.patch at h
    rcases List.mem_append.mp h with h | h
    · rcases List.mem_append.mp h with h | h
      · exact hb c (List.mem_filter.mp h).1
      · rcases hcap with rfl | hcap
        · simp at h
        · have := hc c h
          omega
    · exact hb c (List.mem_filter.mp h).1

theorem Memory.wf_clear {cap : Nat} {m : Memory} (hm : m.wf cap) (lo len : Nat) : (m.clear lo len).wf cap :=
  Memory.wf_patch hm (by simp) (by simp) (.inl rfl)

theorem Memory.pairwise_cells (i : Nat) (bs : List Byte) :
    (Memory.cells i bs).Pairwise (fun x y => x.1 < y.1) := by
  induction bs generalizing i with
  | nil => simp [Memory.cells]
  | cons b bs ih =>
    rw [Memory.cells, List.pairwise_cons]
    refine ⟨fun c h => ?_, ih _⟩
    have := (Memory.mem_cells h).1
    dsimp only
    omega

theorem Memory.wf_store {cap : Nat} {m : Memory} (hm : m.wf cap) {i : Nat} {bs : List Byte}
    (h : i + bs.length ≤ cap) : (m.store i bs).wf cap :=
  Memory.wf_patch hm (Memory.pairwise_cells i bs) (fun _ hc => Memory.mem_cells hc) (.inr h)

theorem Memory.wf_move {cap : Nat} {m : Memory} (hm : m.wf cap) {dst src len : Nat} (h : dst + len ≤ cap) :
    (m.move dst src len).wf cap := by
  refine Memory.wf_patch (Memory.wf_clear hm src len) ?_ (fun _ hc => Memory.mem_shifted hc) (.inr h)
  rw [List.pairwise_map]
  refine List.Pairwise.imp_of_mem ?_ (hm.1.filter _)
  intro a b ha _ hab
  have := (List.mem_filter.mp ha).2
  simp only [Bool.and_eq_true, decide_eq_true_eq] at this
  dsimp only
  omega

/-- In canonical form the bytes determine the list: two memories that read alike are equal data. -/
theorem Memory.ext_of_wf {cap : Nat} {m m' : Memory} (hm : m.wf cap) (hm' : m'.wf cap)
    (h : ∀ i, m.byteAt i = m'.byteAt i) : m = m' := by
  induction m generalizing m' with
  | nil =>
    cases m' with
    | nil => rfl
    | cons c m' =>
      obtain ⟨a, b⟩ := c
      simpa [Memory.byteAt_cons] using h a
  | cons c m ih =>
    obtain ⟨a, b⟩ := c
    cases m' with
    | nil => simpa [Memory.byteAt_cons] using h a
    | cons c' m' =>
      obtain ⟨a', b'⟩ := c'
      obtain ⟨hp, hb⟩ := hm
      obtain ⟨hp', hb'⟩ := hm'
      rw [List.pairwise_cons] at hp hp'
      have hna : ∀ i, i ≤ a → Memory.byteAt m i = none := fun i hi =>
        Memory.byteAt_eq_none (fun c hc he => by have := hp.1 c hc; dsimp only at this; omega)
      have hna' : ∀ i, i ≤ a' → Memory.byteAt m' i = none := fun i hi =>
        Memory.byteAt_eq_none (fun c hc he => by have := hp'.1 c hc; dsimp only at this; omega)
      have haa : a = a' := by
        have h1 := h a
        have h2 := h a'
        simp only [Memory.byteAt_cons, if_true] at h1 h2
        by_contra hne
        rcases Nat.lt_or_gt_of_ne hne with hlt | hlt
        · simp [Ne.symm hne, hna' a (by omega)] at h1
        · simp [hne, hna a' (by omega)] at h2
      subst haa
      have hbb : b = b' := by simpa [Memory.byteAt_cons] using h a
      subst hbb
      congr 1
      refine ih ⟨hp.2, fun c hc => hb c (List.mem_cons_of_mem _ hc)⟩
        ⟨hp'.2, fun c hc => hb' c (List.mem_cons_of_mem _ hc)⟩ (fun i => ?_)
      have hi := h i
      simp only [Memory.byteAt_cons] at hi
      by_cases hia : a = i
      · subst hia
        rw [hna a (Nat.le_refl a), hna' a (Nat.le_refl a)]
      · simpa [hia] using hi

/-! ### Byte strings -/

@[simp] theorem beBytes_length (n v : Nat) : (beBytes n v).length = n := by
  induction n with
  | zero => rfl
  | succ n ih => simp [beBytes, ih]

@[simp] theorem Memory.bytesAt_zero (m : Memory) (i : Nat) : m.bytesAt i 0 = some [] := rfl

theorem Memory.bytesAt_succ (m : Memory) (i n : Nat) (bs : List Byte) :
    m.bytesAt i (n + 1) = some bs ↔
      ∃ b rest, bs = b :: rest ∧ m.byteAt i = some b ∧ m.bytesAt (i + 1) n = some rest := by
  rw [Memory.bytesAt]
  cases h1 : m.byteAt i <;> cases h2 : m.bytesAt (i + 1) n <;> simp [eq_comm]

theorem Memory.bytesAt_length {m : Memory} {i n : Nat} {bs : List Byte} (h : m.bytesAt i n = some bs) :
    bs.length = n := by
  induction n generalizing i bs with
  | zero => simp only [Memory.bytesAt_zero, Option.some.injEq] at h; simp [← h]
  | succ n ih =>
    obtain ⟨b, rest, rfl, -, h2⟩ := (Memory.bytesAt_succ m i n bs).mp h
    simp [ih h2]

/-- The bytes of a string of held bytes, one by one. -/
theorem Memory.byteAt_of_bytesAt {m : Memory} {i n : Nat} {bs : List Byte} (h : m.bytesAt i n = some bs) :
    ∀ j, i ≤ j → j < i + n → m.byteAt j = bs[j - i]? := by
  induction n generalizing i bs with
  | zero => intro j h1 h2; omega
  | succ n ih =>
    obtain ⟨b, rest, rfl, h1, h2⟩ := (Memory.bytesAt_succ m i n bs).mp h
    intro j hj1 hj2
    by_cases hij : j = i
    · subst hij; simpa using h1
    · have h3 : j - i = (j - (i + 1)) + 1 := by omega
      rw [ih h2 j (by omega) (by omega), h3, List.getElem?_cons_succ]

/-- Bytes that are all held make a string. -/
theorem Memory.bytesAt_isSome {m : Memory} {i n : Nat} (h : ∀ j, i ≤ j → j < i + n → (m.byteAt j).isSome = true) :
    ∃ bs, m.bytesAt i n = some bs := by
  induction n generalizing i with
  | zero => exact ⟨[], rfl⟩
  | succ n ih =>
    obtain ⟨b, hb⟩ := Option.isSome_iff_exists.mp (h i (by omega) (by omega))
    obtain ⟨bs, hbs⟩ := ih (i := i + 1) (fun j h1 h2 => h j (by omega) (by omega))
    exact ⟨b :: bs, (Memory.bytesAt_succ m i n _).mpr ⟨b, bs, rfl, hb, hbs⟩⟩

/-- Memories that agree (after a displacement) on a range hold the same string there. -/
theorem Memory.bytesAt_congr {m m' : Memory} {i i' n : Nat}
    (h : ∀ k, k < n → m.byteAt (i + k) = m'.byteAt (i' + k)) : m.bytesAt i n = m'.bytesAt i' n := by
  induction n generalizing i i' with
  | zero => rfl
  | succ n ih =>
    rw [Memory.bytesAt, Memory.bytesAt]
    have h0 := h 0 (by omega)
    have ht : m.bytesAt (i + 1) n = m'.bytesAt (i' + 1) n := ih (fun k hk => by
      have := h (k + 1) (by omega)
      rwa [show i + (k + 1) = i + 1 + k by omega, show i' + (k + 1) = i' + 1 + k by omega] at this)
    rw [show i = i + 0 by omega, show i' = i' + 0 by omega, h0] at *
    rw [ht]

/-- Reading bytes that are all held draws nothing. -/
theorem Memory.readBytes_of_bytesAt {m : Memory} {d i n : Nat} {bs : List Byte} (h : m.bytesAt i n = some bs) :
    m.readBytes d i n = (bs, d) := by
  induction n generalizing i bs with
  | zero => simp only [Memory.bytesAt_zero, Option.some.injEq] at h; simp [Memory.readBytes, ← h]
  | succ n ih =>
    obtain ⟨b, rest, rfl, h1, h2⟩ := (Memory.bytesAt_succ m i n bs).mp h
    simp [Memory.readBytes, Memory.readByte, h1, ih h2]

@[simp] theorem Memory.readBytes_length (m : Memory) (d i n : Nat) : (m.readBytes d i n).1.length = n := by
  induction n generalizing d i with
  | zero => rfl
  | succ n ih => simp [Memory.readBytes, ih]

/-- A held byte is read as it is, whatever is drawn beside it. -/
theorem Memory.readBytes_getElem? {m : Memory} {d i n k : Nat} {b : Byte} (hk : k < n)
    (h : m.byteAt (i + k) = some b) : (m.readBytes d i n).1[k]? = some b := by
  induction n generalizing d i k with
  | zero => omega
  | succ n ih =>
    cases k with
    | zero => simp [Memory.readBytes, Memory.readByte, show m.byteAt i = some b by simpa using h]
    | succ k =>
      simp only [Memory.readBytes, List.getElem?_cons_succ]
      exact ih (by omega) (by rwa [show i + 1 + k = i + (k + 1) by omega])

/-- Counting the `UNSPEC` bytes of a range from its first byte on. -/
theorem Memory.unspecCount_succ (m : Memory) (i k : Nat) :
    m.unspecCount i (k + 1) = (if (m.byteAt i).isNone then 1 else 0) + m.unspecCount (i + 1) k := by
  have h : (fun l => (m.byteAt (i + (l + 1))).isNone) = fun l => (m.byteAt (i + 1 + l)).isNone :=
    funext fun l => by rw [Nat.add_right_comm, Nat.add_assoc]
  simp only [Memory.unspecCount, List.range_succ_eq_map, List.countP_cons, List.countP_map, Function.comp_def,
    Nat.succ_eq_add_one, Nat.add_zero, h]
  omega

/-- Everything a read of `n` bytes answers: a held byte as it is, an `UNSPEC` one as the draw it makes, and one draw counted
for each of these. -/
theorem Memory.readBytes_eq (m : Memory) (d i n : Nat) :
    m.readBytes d i n =
      ((List.range n).map (fun k => (m.byteAt (i + k)).getD (Config.freeByte (d + m.unspecCount i k))),
        d + m.unspecCount i n) := by
  induction n generalizing d i with
  | zero => rfl
  | succ n ih =>
    have h : (fun k => (m.byteAt (i + (k + 1))).getD (Config.freeByte (d + m.unspecCount i (k + 1)))) =
        fun k => (m.byteAt (i + 1 + k)).getD (Config.freeByte ((m.readByte d i).2 + m.unspecCount (i + 1) k)) :=
      funext fun k => by
        rw [Memory.unspecCount_succ, Nat.add_right_comm i 1 k, Nat.add_assoc i k 1]
        cases hb : m.byteAt i <;> simp [Memory.readByte, hb, Nat.add_assoc]
    rw [Memory.readBytes, Memory.unspecCount_succ]
    simp only [ih, List.range_succ_eq_map, List.map_cons, List.map_map, Function.comp_def, Nat.succ_eq_add_one, h]
    cases hb : m.byteAt i <;> simp [Memory.readByte, hb, Memory.unspecCount, Nat.add_assoc]

end Sys2Proof.Machine
end

