-- ==== Sys2Proof/Laws/Ops.lean ====
section
/-! SUPPORT. One lemma per shared operation that says what it does: byte order, reading, the checksum, the alignment shift,
the completion of a command. -/
namespace Sys2Proof.Machine

/-! ### Byte order -/

theorem beValue_foldl (v : Nat) (bs : List Byte) :
    bs.foldl (fun v b => 256 * v + b.toNat) v = v * 256 ^ bs.length + beValue bs := by
  induction bs generalizing v with
  | nil => simp [beValue]
  | cons b bs ih =>
    have h0 : beValue (b :: bs) = (256 * 0 + b.toNat) * 256 ^ bs.length + beValue bs := ih _
    rw [List.foldl_cons, ih, h0, List.length_cons, Nat.pow_succ]
    ring

theorem beValue_cons (b : Byte) (bs : List Byte) : beValue (b :: bs) = b.toNat * 256 ^ bs.length + beValue bs := by
  have h := beValue_foldl (256 * 0 + b.toNat) bs
  simpa [beValue] using h

theorem beValue_lt (bs : List Byte) : beValue bs < 256 ^ bs.length := by
  induction bs with
  | nil => simp [beValue]
  | cons b bs ih =>
    rw [beValue_cons, List.length_cons, Nat.pow_succ]
    have : b.toNat < 256 := b.isLt
    nlinarith

/-- Writing and reading back a value of `n` bytes. -/
theorem beValue_beBytes (n v : Nat) : beValue (beBytes n v) = v % 256 ^ n := by
  induction n with
  | zero => simp [beBytes, beValue, Nat.mod_one]
  | succ n ih =>
    have h : v % 256 ^ (n + 1) = v % 256 ^ n + 256 ^ n * (v / 256 ^ n % 256) := by
      rw [Nat.pow_succ, Nat.mod_mul]
    rw [beBytes, beValue_cons, ih, beBytes_length, BitVec.toNat_ofNat, h, show (2 : Nat) ^ 8 = 256 from rfl]
    ring

/-- The bytes of a string's value are the string. -/
theorem beBytes_beValue (bs : List Byte) : beBytes bs.length (beValue bs) = bs := by
  have key : ∀ (bs : List Byte) (v : Nat), v % 256 ^ bs.length = beValue bs → beBytes bs.length v = bs := by
    intro bs
    induction bs with
    | nil => intro v _; rfl
    | cons b bs ih =>
      intro v hv
      rw [List.length_cons, beBytes]
      rw [List.length_cons, beValue_cons, Nat.pow_succ, Nat.mod_mul] at hv
      have hlt := beValue_lt bs
      have hm := Nat.mod_lt v (Nat.pos_of_ne_zero (by positivity : (256 : Nat) ^ bs.length ≠ 0))
      have hb : b.toNat < 256 := b.isLt
      have hq : v / 256 ^ bs.length % 256 = b.toNat := by
        have h1 : (v % 256 ^ bs.length + 256 ^ bs.length * (v / 256 ^ bs.length % 256)) / 256 ^ bs.length
            = v / 256 ^ bs.length % 256 := by
          rw [Nat.add_mul_div_left _ _ (by positivity), Nat.div_eq_of_lt hm, Nat.zero_add]
        have h2 : (b.toNat * 256 ^ bs.length + beValue bs) / 256 ^ bs.length = b.toNat := by
          rw [Nat.add_comm, Nat.add_mul_div_right _ _ (by positivity), Nat.div_eq_of_lt hlt, Nat.zero_add]
        rw [← h1, hv, h2]
      have hr : v % 256 ^ bs.length = beValue bs := by
        rw [hq] at hv
        nlinarith
      rw [ih v hr]
      congr 1
      apply BitVec.eq_of_toNat_eq
      rw [BitVec.toNat_ofNat]
      exact hq
  exact key bs _ (Nat.mod_eq_of_lt (beValue_lt bs))

/-! ### Reading -/

/-- Reading bytes that all hold values: the big-endian value, and the state as it was. -/
theorem State.memRead_of_bytesAt {s : State} {i n : Nat} {bs : List Byte} (h : s.mem.bytesAt i n = some bs) :
    s.memRead i n = (beValue bs, s) := by
  simp [State.memRead, State.readBytes, Memory.readBytes_of_bytesAt h]

theorem State.memRead_half {s : State} {i v : Nat} (h : s.mem.halfAt i = some v) : s.memRead i 2 = (v, s) := by
  obtain ⟨bs, hbs, rfl⟩ := Option.map_eq_some_iff.mp h
  exact State.memRead_of_bytesAt hbs

theorem State.memRead_byte {s : State} {i : Nat} {b : Byte} (h : s.mem.byteAt i = some b) :
    s.memRead i 1 = (b.toNat, s) := by
  have hb : s.mem.bytesAt i 1 = some [b] := by simp [Memory.bytesAt, h]
  rw [State.memRead_of_bytesAt hb]
  simp [beValue]

/-- A read changes nothing but the count of draws. -/
theorem State.memRead_state (s : State) (i n : Nat) :
    (s.memRead i n).2 = { s with draws := (s.mem.readBytes s.draws i n).2 } := rfl

theorem State.memRead_lt (s : State) (i n : Nat) : (s.memRead i n).1 < 256 ^ n := by
  have h := beValue_lt (s.mem.readBytes s.draws i n).1
  rwa [Memory.readBytes_length] at h

theorem Memory.halfAt_lt {m : Memory} {i v : Nat} (h : m.halfAt i = some v) : v < 65536 := by
  obtain ⟨bs, hbs, rfl⟩ := Option.map_eq_some_iff.mp h
  have := beValue_lt bs
  rwa [Memory.bytesAt_length hbs] at this

/-- Memories that agree (after a displacement) on two bytes hold the same half there. -/
theorem Memory.halfAt_congr {m m' : Memory} {i i' : Nat} (h0 : m.byteAt i = m'.byteAt i')
    (h1 : m.byteAt (i + 1) = m'.byteAt (i' + 1)) : m.halfAt i = m'.halfAt i' := by
  have h : m.bytesAt i 2 = m'.bytesAt i' 2 := Memory.bytesAt_congr (fun k hk => by
    rcases Nat.lt_succ_iff_lt_or_eq.mp hk with hk | rfl
    · have : k = 0 := by omega
      subst this; simpa using h0
    · exact h1)
  rw [Memory.halfAt, Memory.halfAt, h]

/-- What was written by `MemWrite` is what is held there. -/
theorem Memory.bytesAt_store (m : Memory) (i : Nat) (bs : List Byte) :
    (m.store i bs).bytesAt i bs.length = some bs := by
  have hb : ∀ j, i ≤ j → j < i + bs.length → (m.store i bs).byteAt j = bs[j - i]? := fun j h1 h2 => by
    rw [Memory.byteAt_store, if_pos ⟨h1, h2⟩]
  obtain ⟨cs, hcs⟩ := Memory.bytesAt_isSome (m := m.store i bs) (i := i) (n := bs.length) (fun j h1 h2 => by
    rw [hb j h1 h2, List.getElem?_eq_getElem (by omega)]; rfl)
  have hlen := Memory.bytesAt_length hcs
  rw [hcs, Option.some.injEq]
  apply List.ext_getElem?
  intro k
  by_cases hk : k < bs.length
  · have h1 := Memory.byteAt_of_bytesAt hcs (i + k) (by omega) (by omega)
    rw [hb (i + k) (by omega) (by omega), Nat.add_sub_cancel_left] at h1
    exact h1.symm
  · rw [List.getElem?_eq_none (by omega), List.getElem?_eq_none (by omega)]

theorem Memory.halfAt_store (m : Memory) (i v : Nat) (hv : v < 65536) :
    (m.store i (beBytes 2 v)).halfAt i = some v := by
  have h := Memory.bytesAt_store m i (beBytes 2 v)
  rw [beBytes_length] at h
  rw [Memory.halfAt, h, Option.map_some, beValue_beBytes, Nat.mod_eq_of_lt (by omega)]

/-- Storing what is already held changes no byte. -/
theorem Memory.byteAt_store_same {m : Memory} {i : Nat} {bs : List Byte} (h : m.bytesAt i bs.length = some bs)
    (j : Nat) : (m.store i bs).byteAt j = m.byteAt j := by
  rw [Memory.byteAt_store]
  split
  · rename_i hj
    exact (Memory.byteAt_of_bytesAt h j hj.1 hj.2).symm
  · rfl

theorem Memory.bytesAt_of_halfAt {m : Memory} {i v : Nat} (h : m.halfAt i = some v) :
    m.bytesAt i 2 = some (beBytes 2 v) := by
  obtain ⟨bs, hbs, rfl⟩ := Option.map_eq_some_iff.mp h
  have hl := Memory.bytesAt_length hbs
  rw [hbs, ← hl, beBytes_beValue]

/-! ### The checksum -/

/-- The checksum of bytes that all hold values depends on nothing but those bytes (R138), wherever they stand. -/
theorem Memory.checksumAt_congr {m m' : Memory} {ip udp ip' udp' n : Nat}
    (ha : ∀ k, 8 ≤ k → k < 40 → m.byteAt (ip + k) = m'.byteAt (ip' + k))
    (hh : ∀ k, k < 6 → m.byteAt (udp + k) = m'.byteAt (udp' + k))
    (hp : ∀ k, k < n → m.byteAt (udp + 8 + k) = m'.byteAt (udp' + 8 + k)) :
    m.checksumAt ip udp n = m'.checksumAt ip' udp' n := by
  have h1 : m.bytesAt (ip + 8) 16 = m'.bytesAt (ip' + 8) 16 := Memory.bytesAt_congr (fun k hk => by
    have := ha (8 + k) (by omega) (by omega); rwa [← Nat.add_assoc, ← Nat.add_assoc] at this)
  have h2 : m.bytesAt (ip + 24) 16 = m'.bytesAt (ip' + 24) 16 := Memory.bytesAt_congr (fun k hk => by
    have := ha (24 + k) (by omega) (by omega); rwa [← Nat.add_assoc, ← Nat.add_assoc] at this)
  have h3 : m.bytesAt udp 6 = m'.bytesAt udp' 6 := Memory.bytesAt_congr hh
  have h4 : m.bytesAt (udp + Config.udpHdrLen) n = m'.bytesAt (udp' + Config.udpHdrLen) n :=
    Memory.bytesAt_congr hp
  rw [Memory.checksumAt, Memory.checksumAt, h1, h2, h3, h4]

/-- Computing a checksum changes nothing but the count of draws. -/
theorem State.udpChecksum_state (s : State) (ip udp n : Nat) :
    ∃ d, (s.udpChecksum ip udp n).2 = { s with draws := d } := by
  unfold State.udpChecksum
  split
  · exact ⟨s.draws, rfl⟩
  · exact ⟨s.draws + 1, rfl⟩

theorem State.udpChecksum_of_some {s : State} {ip udp n : Nat} {k : Half} (h : s.mem.checksumAt ip udp n = some k) :
    s.udpChecksum ip udp n = (k, s) := by
  simp [State.udpChecksum, h]

theorem State.udpChecksum_of_none {s : State} {ip udp n : Nat} (h : s.mem.checksumAt ip udp n = none) :
    s.udpChecksum ip udp n = (drawnChecksum s.draws, { s with draws := s.draws + 1 }) := by
  simp [State.udpChecksum, h]

/-- What CSUM and SEND do before they complete: some checksum `k`, the computed one or a drawn one, goes to the header and
to `CSUM`; nothing else changes. -/
theorem State.embedChecksum_cases (s : State) :
    ∃ k d, s.embedChecksum =
        { s with mem := s.mem.store (s.udpPos.toNat + 6) (beBytes 2 k.toNat), csum := k, draws := d }
      ∧ ((s.mem.checksumAt s.ip6Pos.toNat s.udpPos.toNat s.payloadLen.toNat = some k ∧ d = s.draws)
        ∨ (s.mem.checksumAt s.ip6Pos.toNat s.udpPos.toNat s.payloadLen.toNat = none
          ∧ k = drawnChecksum s.draws ∧ d = s.draws + 1)) := by
  cases h : s.mem.checksumAt s.ip6Pos.toNat s.udpPos.toNat s.payloadLen.toNat with
  | some k =>
    refine ⟨k, s.draws, ?_, .inl ⟨rfl, rfl⟩⟩
    simp [State.embedChecksum, State.udpChecksum_of_some h, State.memWrite]
  | none =>
    refine ⟨drawnChecksum s.draws, s.draws + 1, ?_, .inr ⟨rfl, rfl, rfl⟩⟩
    simp [State.embedChecksum, State.udpChecksum_of_none h, State.memWrite]

/-! ### The alignment shift -/

/-- Where SCAN moves the frame: nowhere, down or up by less than 4, inside the buffer; the header start is then aligned. -/
theorem alignTarget_cases (c : Config) (ro rl nro : Nat) (h : alignTarget c ro rl = some nro)
    (hcap : ro + rl ≤ c.bufCap) : (nro + c.l2HdrLen) % 4 = 0 ∧ nro + rl ≤ c.bufCap := by
  dsimp only [alignTarget, Config.align] at h
  split at h
  · simp only [Option.some.injEq] at h; omega
  · split at h
    · simp only [Option.some.injEq] at h; omega
    · split at h
      · simp at h
      · simp only [Option.some.injEq] at h; omega

/-- With `L2_HDR_LEN` = 0 the frame moves down by `RAW_OFFSET mod 4` (R105). -/
theorem alignTarget_hw (ro rl : Nat) : alignTarget Config.hw ro rl = some (ro - ro % 4) := by
  dsimp only [alignTarget, Config.align, Config.hw, Nat.add_zero]
  split
  · simp only [Option.some.injEq]; omega
  · rw [if_pos (Nat.mod_le ro 4)]

/-- After a shift every byte of the frame stands at its place counted from the new offset; nothing else but `RAW_OFFSET` and
the buffer changed. -/
theorem State.shiftTo_spec (s : State) (nro : Nat) (h : nro < 2 ^ 32) :
    ∃ m, s.shiftTo nro = { s with mem := m, rawOffset := BitVec.ofNat 32 nro }
      ∧ movedBytes s.mem m nro s.rawOffset.toNat s.rawLength.toNat
      ∧ (nro = s.rawOffset.toNat → m = s.mem)
      ∧ (∀ cap, s.mem.wf cap → nro + s.rawLength.toNat ≤ cap → m.wf cap) := by
  by_cases hn : nro = s.rawOffset.toNat
  · refine ⟨s.mem, ?_, ?_, fun _ => rfl, fun _ hw _ => hw⟩
    · subst hn; simp [State.shiftTo]
    · intro j
      split
      · rename_i hj; congr 1; omega
      · split
        · omega
        · rfl
  · refine ⟨s.mem.move nro s.rawOffset.toNat s.rawLength.toNat, by simp [State.shiftTo, hn, State.memMove], ?_,
      fun h' => absurd h' hn, fun cap hw hc => Memory.wf_move hw hc⟩
    intro j
    rw [Memory.byteAt_move]

end Sys2Proof.Machine
end

