-- ==== Sys2Proof/Laws/Commands.lean ====
section
/-! SUPPORT. For each command, one lemma that lists everything it can do; later proofs cite these and never unfold a
command. -/
namespace Sys2Proof.Machine

/-! ### SCAN -/

/-- S7 and S8: either the stored checksum differs from the computed one, or the view is set. -/
theorem scanVerify_cases (ip udp ulen : Nat) (s : State) :
    ∃ d, (∃ v, scanVerify ip udp ulen s =
            raise { s with draws := d, csum := v } .badCsum ∧ v = (s.udpChecksum ip udp (ulen - 8)).1)
      ∨ (∃ v, scanVerify ip udp ulen s =
            finish { s with
              draws := d, csum := v, ip6Pos := BitVec.ofNat 32 ip, udpPos := BitVec.ofNat 32 udp
              payloadPos := BitVec.ofNat 32 (udp + 8), payloadLen := BitVec.ofNat 32 (ulen - 8), viewValid := true }
          ∧ v = (s.udpChecksum ip udp (ulen - 8)).1
          ∧ ∀ st, s.mem.halfAt (udp + 6) = some st → st = v.toNat) := by
  obtain ⟨d, hd⟩ := s.udpChecksum_state ip udp (ulen - 8)
  generalize hk : (s.udpChecksum ip udp (ulen - 8)).1 = k
  let s1 : State := { s with draws := d, csum := k }
  refine ⟨(s1.mem.readBytes s1.draws (udp + 6) 2).2, ?_⟩
  by_cases h : k.toNat ≠ (s1.memRead (udp + 6) 2).1
  · refine .inl ⟨k, ?_, rfl⟩
    simp only [scanVerify, Config.udpHdrLen, hd, hk]
    rw [if_pos h, State.memRead_state]
  · refine .inr ⟨k, ?_, rfl, fun st hst => ?_⟩
    · simp only [scanVerify, Config.udpHdrLen, hd, hk]
      rw [if_neg h, State.memRead_state]
    · rw [State.memRead_half (s := s1) hst] at h
      simpa [eq_comm] using h

/-- S4 to S8: a header check fails, the checksum does not match, or the view is set over a frame whose lengths fit. -/
theorem scanIp6_cases (c : Config) (s : State) :
    ∃ d, (∃ e, scanIp6 c s = raise { s with draws := d } e ∧ e ∈ [ErrCode.ip6Trunc, .ip6Plen, .notUdp, .udpLen])
      ∨ (∃ k, scanIp6 c s = raise { s with draws := d, csum := k } .badCsum)
      ∨ (∃ k plen ulen d', scanIp6 c s = finish { s with
            draws := d, csum := k
            ip6Pos := BitVec.ofNat 32 (s.rawOffset.toNat + c.l2HdrLen)
            udpPos := BitVec.ofNat 32 (s.rawOffset.toNat + c.l2HdrLen + 40)
            payloadPos := BitVec.ofNat 32 (s.rawOffset.toNat + c.l2HdrLen + 40 + 8)
            payloadLen := BitVec.ofNat 32 (ulen - 8), viewValid := true }
          ∧ 8 ≤ ulen ∧ ulen ≤ plen ∧ ulen < 65536 ∧ c.l2HdrLen + 40 + plen ≤ s.rawLength.toNat
          ∧ k = (State.udpChecksum { s with draws := d' } (s.rawOffset.toNat + c.l2HdrLen)
              (s.rawOffset.toNat + c.l2HdrLen + 40) (ulen - 8)).1
          ∧ (∀ v, s.mem.halfAt (s.rawOffset.toNat + c.l2HdrLen + 4) = some v → v = plen)
          ∧ (∀ v, s.mem.halfAt (s.rawOffset.toNat + c.l2HdrLen + 40 + 4) = some v → v = ulen)
          ∧ (∀ v, s.mem.halfAt (s.rawOffset.toNat + c.l2HdrLen + 40 + 6) = some v → v = k.toNat)) := by
  simp only [scanIp6, scanUdp, Config.ip6HdrLen, Config.nhUdp, Config.udpHdrLen]
  generalize s.rawOffset.toNat + c.l2HdrLen = ip
  split
  · exact ⟨s.draws, .inl ⟨_, rfl, by simp⟩⟩
  · obtain ⟨plen, hp⟩ : ∃ p, p = (s.memRead (ip + 4) 2).1 := ⟨_, rfl⟩
    have hpv : ∀ v, s.mem.halfAt (ip + 4) = some v → v = plen := fun v hv => by
      rw [hp, State.memRead_half hv]
    rw [← hp, State.memRead_state]
    generalize (s.mem.readBytes s.draws (ip + 4) 2).2 = d1
    split
    · exact ⟨d1, .inl ⟨_, rfl, by simp⟩⟩
    · rw [State.memRead_state]
      generalize (State.mem { s with draws := d1 }).readBytes (State.draws { s with draws := d1 }) (ip + 6) 1 = r2
      split
      · exact ⟨r2.2, .inl ⟨_, rfl, by simp⟩⟩
      · split
        · exact ⟨r2.2, .inl ⟨_, rfl, by simp⟩⟩
        · obtain ⟨u, hu⟩ : ∃ u, u = (State.memRead { s with draws := r2.2 } (ip + 40 + 4) 2).1 := ⟨_, rfl⟩
          have huv : ∀ v, s.mem.halfAt (ip + 40 + 4) = some v → v = u := fun v hv => by
            rw [hu, State.memRead_half (s := { s with draws := r2.2 }) hv]
          have hult : u < 256 ^ 2 := hu ▸ State.memRead_lt _ _ _
          dsimp only
          rw [← hu, State.memRead_state]
          generalize (State.mem { s with draws := r2.2 }).readBytes (State.draws { s with draws := r2.2 })
            (ip + 40 + 4) 2 = r3
          split
          · exact ⟨r3.2, .inl ⟨_, rfl, by simp⟩⟩
          · obtain ⟨d, ⟨k, hk, -⟩ | ⟨k, hk, hk2, hst⟩⟩ :=
              scanVerify_cases ip (ip + 40) u { s with draws := r3.2 }
            · exact ⟨d, .inr (.inl ⟨k, hk⟩)⟩
            · exact ⟨d, .inr (.inr ⟨k, plen, u, r3.2, hk, by omega, by omega, by omega, by omega, hk2, hpv, huv,
                fun v hv => hst v hv⟩)⟩

/-- S0 to S3: a register check fails, there is no room, or the headers of the aligned frame are read. -/
theorem scanOn_cases (c : Config) (s : State) :
    (c.bufCap < s.rawOffset.toNat + s.rawLength.toNat ∧ scanOn c s = raise s.invalidate .rawRange)
    ∨ (s.rawOffset.toNat + s.rawLength.toNat ≤ c.bufCap ∧
      ((s.rxProto ≠ Config.etherTypeIPv6 ∧ scanOn c s = raise s.invalidate .notIpv6)
      ∨ (s.rxProto = Config.etherTypeIPv6 ∧ s.rxHatype ≠ Config.haTypeEther
          ∧ scanOn c s = raise s.invalidate .notEther)
      ∨ (s.rxProto = Config.etherTypeIPv6 ∧ s.rxHatype = Config.haTypeEther ∧
        ((alignTarget c s.rawOffset.toNat s.rawLength.toNat = none ∧ scanOn c s = raise s.invalidate .noRoom)
        ∨ ∃ nro, alignTarget c s.rawOffset.toNat s.rawLength.toNat = some nro
          ∧ scanOn c s = scanIp6 c (s.invalidate.shiftTo nro))))) := by
  by_cases h1 : c.bufCap < s.rawOffset.toNat + s.rawLength.toNat
  · exact .inl ⟨h1, by simp only [scanOn, if_pos h1]⟩
  · refine .inr ⟨by omega, ?_⟩
    by_cases h2 : s.rxProto = Config.etherTypeIPv6
    · by_cases h3 : s.rxHatype = Config.haTypeEther
      · refine .inr (.inr ⟨h2, h3, ?_⟩)
        cases h4 : alignTarget c s.rawOffset.toNat s.rawLength.toNat with
        | none => exact .inl ⟨rfl, by simp only [scanOn, if_neg h1, h2, h3, h4, ne_eq, not_true, if_false]⟩
        | some nro =>
          exact .inr ⟨nro, rfl, by simp only [scanOn, if_neg h1, h2, h3, h4, ne_eq, not_true, if_false]⟩
      · exact .inr (.inl ⟨h2, h3, by simp only [scanOn, if_neg h1, h2, ne_eq, not_true, if_false, h3,
          not_false_eq_true, if_true]⟩)
    · exact .inl ⟨h2, by simp only [scanOn, if_neg h1, ne_eq, h2, not_false_eq_true, if_true]⟩

/-! ### CSUM, SPLICE, SEND -/

theorem csumOn_cases (c : Config) (s : State) :
    (s.viewValid = false ∧ csumOn c s = raise s .noView)
    ∨ (s.viewValid = true ∧ s.checksumInBuffer c = false ∧ csumOn c s = .fault .engineOutsideBuffer)
    ∨ (s.viewValid = true ∧ s.checksumInBuffer c = true ∧ csumOn c s = finish s.embedChecksum) := by
  cases h1 : s.viewValid <;> cases h2 : s.checksumInBuffer c <;> simp [csumOn, h1, h2]

/-- SPLICE past its register checks: the two length fields are read, and a length that would leave its field is an error. -/
theorem spliceOn_fields (c : Config) (s : State) (h1 : s.viewValid = true) (h2 : s.spliceOperands.check c = none)
    (h3 : s.spliceOperands.accessesInBuffer c = true) :
    spliceOn c s =
      let r := s.memRead (s.ip6Pos.toNat + 4) 2
      let q := r.2.memRead (s.udpPos.toNat + 4) 2
      if s.spliceOperands.fieldOverflow r.1 q.1 = true then raise q.2 .fieldOvf
      else finish (q.2.spliceEffect s.spliceOperands r.1 q.1) := by
  simp only [spliceOn, h1, h2, h3, Bool.not_true, Bool.false_eq_true, if_false]
  rfl

theorem spliceOn_cases (c : Config) (s : State) :
    (s.viewValid = false ∧ spliceOn c s = raise s .noView)
    ∨ (s.viewValid = true ∧
      ((∃ e, s.spliceOperands.check c = some e ∧ spliceOn c s = raise s e)
      ∨ (s.spliceOperands.check c = none ∧
        ((s.spliceOperands.accessesInBuffer c = false ∧ spliceOn c s = .fault .engineOutsideBuffer)
        ∨ (s.spliceOperands.accessesInBuffer c = true ∧
          ∃ plen ulen d, plen = (s.memRead (s.ip6Pos.toNat + 4) 2).1
            ∧ ulen = ((s.memRead (s.ip6Pos.toNat + 4) 2).2.memRead (s.udpPos.toNat + 4) 2).1
            ∧ d = ((s.memRead (s.ip6Pos.toNat + 4) 2).2.memRead (s.udpPos.toNat + 4) 2).2.draws
            ∧ ((s.spliceOperands.fieldOverflow plen ulen = true
                ∧ spliceOn c s = raise { s with draws := d } .fieldOvf)
              ∨ (s.spliceOperands.fieldOverflow plen ulen = false
                ∧ spliceOn c s = finish (State.spliceEffect { s with draws := d } s.spliceOperands plen ulen)))))))) := by
  by_cases h1 : s.viewValid = true
  swap
  · exact .inl ⟨by simpa using h1, by simp [spliceOn, h1]⟩
  · refine .inr ⟨h1, ?_⟩
    cases h2 : s.spliceOperands.check c with
    | some e => exact .inl ⟨e, rfl, by simp [spliceOn, h1, h2]⟩
    | none =>
      refine .inr ⟨rfl, ?_⟩
      cases h3 : s.spliceOperands.accessesInBuffer c
      · exact .inl ⟨rfl, by simp [spliceOn, h1, h2, h3]⟩
      · refine .inr ⟨rfl, _, _, _, rfl, rfl, rfl, ?_⟩
        cases h4 : s.spliceOperands.fieldOverflow (s.memRead (s.ip6Pos.toNat + 4) 2).1
          ((s.memRead (s.ip6Pos.toNat + 4) 2).2.memRead (s.udpPos.toNat + 4) 2).1
        · exact .inr ⟨rfl, by rw [spliceOn_fields c s h1 h2 h3]; simp only [h4, Bool.false_eq_true, if_false]; rfl⟩
        · exact .inl ⟨rfl, by rw [spliceOn_fields c s h1 h2 h3]; simp only [h4, if_true]; rfl⟩

/-- After a hand-off the transmitter's answer is recorded with the frame, and it is idle again. -/
theorem State.txAnswer_handOff (s : State) (bytes : List Byte) (o : TxOutcome) :
    (s.handOff bytes).txAnswer o =
      { s with
        tx := .idle, draws := s.draws + 1
        obs := .frame bytes o (match o with | .ok => bytes | .fail => partLeft s.draws bytes) :: s.obs } := rfl

theorem sendOn_cases (c : Config) (o : TxOutcome) (s : State) :
    (s.viewValid = false ∧ sendOn c o s = raise s .noView)
    ∨ (s.viewValid = true ∧ s.sendInBuffer c = false ∧ sendOn c o s = .fault .engineOutsideBuffer)
    ∨ (s.viewValid = true ∧ s.sendInBuffer c = true ∧
      ∃ bytes d, (bytes, d) = s.embedChecksum.mem.readBytes s.embedChecksum.draws s.embedChecksum.rawOffset.toNat
          s.embedChecksum.rawLength.toNat
        ∧ sendOn c o s = .next (State.complete
            { s.embedChecksum with
              tx := .idle, draws := d + 1
              obs := .frame bytes o (match o with | .ok => bytes | .fail => partLeft d bytes) :: s.embedChecksum.obs }
            (match o with | .ok => .ok | .fail => .txError))) := by
  cases h1 : s.viewValid
  · exact .inl ⟨rfl, by simp [sendOn, h1]⟩
  · refine .inr ?_
    cases h2 : s.sendInBuffer c
    · exact .inl ⟨rfl, rfl, by simp [sendOn, h1, h2]⟩
    · refine .inr ⟨rfl, rfl, _, _, rfl, ?_⟩
      simp only [sendOn, h1, h2, Bool.not_true, Bool.false_eq_true, if_false]
      cases o <;> rfl

/-- What left of a frame is some of its bytes, in their order (R185). -/
theorem leftBytes_sublist (keep : Nat → Bool) (k : Nat) (bs : List Byte) : (leftBytes keep k bs).Sublist bs := by
  induction bs generalizing k with
  | nil => simp [leftBytes]
  | cons b bs ih =>
    rw [leftBytes]
    split
    · exact (ih (k + 1)).cons_cons b
    · exact (ih (k + 1)).cons b

end Sys2Proof.Machine
end

