-- ==== Sys2Proof/Laws/PerInstr.lean ====
section
/-! SUPPORT. Statements made per instruction, one lemma a constructor. -/
namespace Sys2Proof.Laws.FieldsOfTheWord

/-- R80, R82: the word of a command has `RSV` = 0 and its own `OP`, which is no illegal one. -/
def Statement (i : Instr) : Prop :=
  rsvField (encode i) = 0 ∧ opField (encode i) = opOf i ∧ 1 ≤ (encode i).toNat ∧ (encode i).toNat ≤ 4

theorem scan : Statement .scan := by simp [Statement, rsvField, opField, encode, opOf]
theorem csum : Statement .csum := by simp [Statement, rsvField, opField, encode, opOf]
theorem splice : Statement .splice := by simp [Statement, rsvField, opField, encode, opOf]
theorem send : Statement .send := by simp [Statement, rsvField, opField, encode, opOf]

end Sys2Proof.Laws.FieldsOfTheWord
end

