-- ==== Sys2Proof/Laws/Splice.lean ====
section
/-! SUPPORT. What SPLICE does to the buffer and to the registers, byte by byte (`42_splice.md` R158 to R161). -/
namespace Sys2Proof.Machine

/-- `sint32` is the two's-complement reading (R11). -/
theorem sint32_eq_toInt (v : Word) : sint32 v = v.toInt := by
  rw [sint32, BitVec.toInt_eq_msb_cond, BitVec.msb_eq_getLsbD_last]
  rfl

theorem SpliceOperands.fieldOverflow_eq_true (p : SpliceOperands) (plen ulen : Nat) :
    p.fieldOverflow plen ulen = true ↔
      plen + p.n < 0 ∨ 65535 < plen + p.n ∨ ulen + p.n < 0 ∨ 65535 < ulen + p.n ∨ 65535 < (p.len : Int) + 8 + p.n := by
  simp [SpliceOperands.fieldOverflow, or_assoc]

theorem SpliceOperands.fieldOverflow_eq_false (p : SpliceOperands) (plen ulen : Nat) :
    p.fieldOverflow plen ulen = false ↔
      0 ≤ plen + p.n ∧ plen + p.n ≤ 65535 ∧ 0 ≤ ulen + p.n ∧ ulen + p.n ≤ 65535 ∧ (p.len : Int) + 8 + p.n ≤ 65535 := by
  simp [SpliceOperands.fieldOverflow, and_assoc]

theorem SpliceOperands.accessesInBuffer_eq_true (c : Config) (p : SpliceOperands) :
    p.accessesInBuffer c = true ↔
      p.ip + 4 + 2 ≤ c.bufCap ∧ p.udp + 4 + 2 ≤ c.bufCap ∧ p.b ≤ p.e ∧ p.e ≤ c.bufCap := by
  simp [SpliceOperands.accessesInBuffer, inBuffer, and_assoc]

/-- The register checks pass (R153, R154, R155). -/
theorem SpliceOperands.check_eq_none (c : Config) (p : SpliceOperands) :
    p.check c = none ↔
      p.off ≤ p.len ∧ -p.n ≤ (p.off : Int) ∧ (0 < p.n → (p.ro : Int) + p.rl + p.n ≤ c.bufCap) := by
  unfold SpliceOperands.check
  split
  · simp; omega
  · split
    · simp; omega
    · split
      · simp; omega
      · simp; omega

/-- The move and the bytes it leaves `UNSPEC` (R158, R161): the bytes from `b` on move by `n`; the room and the vacated tail
hold no value. -/
theorem Memory.byteAt_splice (m : Memory) (p : SpliceOperands) (hbe : p.b ≤ p.e) (hn : 0 ≤ (p.b : Int) + p.n) (j : Nat) :
    (m.splice p).byteAt j =
      if (p.b : Int) + p.n ≤ j ∧ (j : Int) < p.e + p.n then m.byteAt ((j : Int) - p.n).toNat
      else if (p.b ≤ j ∧ (j : Int) < p.b + p.n) ∨ ((p.e : Int) + p.n ≤ j ∧ j < p.e) then none
      else m.byteAt j := by
  unfold Memory.splice
  dsimp only
  split
  · rw [Memory.byteAt_clear, Memory.byteAt_move]
    by_cases h1 : (p.b : Int) + p.n ≤ j ∧ (j : Int) < p.e + p.n
    · rw [if_pos h1, if_neg (by omega), if_pos (by omega)]
      congr 1; omega
    · rw [if_neg h1]
      by_cases h2 : p.b ≤ j ∧ (j : Int) < p.b + p.n
      · rw [if_pos (by omega), if_pos (.inl h2)]
      · rw [if_neg (by omega), if_neg (by omega), if_neg (by omega), if_neg (by omega)]
  · rw [Memory.byteAt_clear, Memory.byteAt_move]
    by_cases h1 : (p.b : Int) + p.n ≤ j ∧ (j : Int) < p.e + p.n
    · rw [if_pos h1, if_neg (by omega), if_pos (by omega)]
      congr 1; omega
    · rw [if_neg h1]
      by_cases h2 : (p.e : Int) + p.n ≤ j ∧ j < p.e
      · rw [if_pos (by omega), if_pos (.inr h2)]
      · rw [if_neg (by omega), if_neg (by omega), if_neg (by omega), if_neg (by omega)]

theorem Memory.wf_splice {cap : Nat} {m : Memory} (hm : m.wf cap) (p : SpliceOperands) (hbe : p.b ≤ p.e)
    (hn : 0 ≤ (p.b : Int) + p.n) (hcap : (p.e : Int) + p.n ≤ cap) : (m.splice p).wf cap := by
  unfold Memory.splice
  dsimp only
  split <;> exact Memory.wf_clear (Memory.wf_move hm (by omega)) _ _

end Sys2Proof.Machine
end

