-- ==== Sys2Proof/Laws/Step.lean ====
section
/-! SUPPORT. What a step can do: the engine's turn, the host's transaction, the reset. -/
namespace Sys2Proof.Machine

/-- What no command changes, and how it ends (R30, R31, R34, R205): with an error code, on a state that differs from the one
before only in the buffer, the range, the view, `CSUM`, `SPLICE_POS`, the draws and the record of frames. -/
def CompletesOn (s t : State) : Prop :=
  ∃ e mem ro rl vv ip udp pp pl cs sp tx d o,
    t = State.complete
      { s with
        mem := mem, rawOffset := ro, rawLength := rl, viewValid := vv, ip6Pos := ip, udpPos := udp, payloadPos := pp
        payloadLen := pl, csum := cs, splicePos := sp, tx := tx, draws := d, obs := o } e
    ∧ (s.tx = .idle → tx = .idle)

theorem csumOn_completes {c : Config} {s t : State} (h : csumOn c s = .next t) : CompletesOn s t := by
  rcases csumOn_cases c s with ⟨-, hc⟩ | ⟨-, -, hc⟩ | ⟨-, -, hc⟩ <;> rw [hc] at h
  · cases h; exact ⟨_, _, _, _, _, _, _, _, _, _, _, _, _, _, rfl, id⟩
  · cases h
  · obtain ⟨k, d, hk, -⟩ := s.embedChecksum_cases
    rw [hk] at h
    cases h
    exact ⟨_, _, _, _, _, _, _, _, _, _, _, _, _, _, rfl, id⟩

theorem spliceOn_completes {c : Config} {s t : State} (h : spliceOn c s = .next t) : CompletesOn s t := by
  rcases spliceOn_cases c s with ⟨-, hc⟩ | ⟨-, ⟨e, -, hc⟩ | ⟨-, ⟨-, hc⟩ | ⟨-, plen, ulen, d, -, -, -,
    ⟨-, hc⟩ | ⟨-, hc⟩⟩⟩⟩ <;> rw [hc] at h <;> cases h <;>
  exact ⟨_, _, _, _, _, _, _, _, _, _, _, _, _, _, rfl, id⟩

theorem sendOn_completes {c : Config} {o : TxOutcome} {s t : State} (h : sendOn c o s = .next t) : CompletesOn s t := by
  rcases sendOn_cases c o s with ⟨-, hc⟩ | ⟨-, -, hc⟩ | ⟨-, -, bytes, d, -, hc⟩ <;> rw [hc] at h
  · cases h; exact ⟨_, _, _, _, _, _, _, _, _, _, _, _, _, _, rfl, id⟩
  · cases h
  · obtain ⟨k, d', hk, -⟩ := s.embedChecksum_cases
    rw [hk] at h
    cases h
    exact ⟨_, _, _, _, _, _, _, _, _, _, _, _, _, _, rfl, fun _ => rfl⟩

theorem scanOn_completes (c : Config) (s : State) : ∃ t, scanOn c s = .next t ∧ CompletesOn s t := by
  rcases scanOn_cases c s with ⟨-, hc⟩ | ⟨-, ⟨-, hc⟩ | ⟨-, -, hc⟩ | ⟨-, -, ⟨-, hc⟩ | ⟨nro, -, hc⟩⟩⟩ <;> rw [hc]
  iterate 4 exact ⟨_, rfl, _, _, _, _, _, _, _, _, _, _, _, _, _, _, rfl, id⟩
  have hs : ∃ m ro, s.invalidate.shiftTo nro = { s.invalidate with mem := m, rawOffset := ro } := by
    unfold State.shiftTo
    split <;> exact ⟨_, _, rfl⟩
  obtain ⟨m, ro, hs⟩ := hs
  rw [hs]
  obtain ⟨d, ⟨e, hd, -⟩ | ⟨k, hd⟩ | ⟨k, plen, ulen, d', hd, -⟩⟩ :=
    scanIp6_cases c { s.invalidate with mem := m, rawOffset := ro } <;> rw [hd] <;>
  exact ⟨_, rfl, _, _, _, _, _, _, _, _, _, _, _, _, _, _, rfl, id⟩

/-- Every command that goes on completes (R205). -/
theorem exec_completes {i : Instr} {s t : State} (h : exec i s = .next t) : CompletesOn s t := by
  cases i with
  | scan =>
    obtain ⟨t', h', hc⟩ := scanOn_completes Config.hw s
    cases h'.symm.trans h
    exact hc
  | csum => exact csumOn_completes h
  | splice => exact spliceOn_completes h
  | send => exact sendOn_completes h

/-- Only SCAN changes `VIEW_VALID` (R46). -/
theorem exec_viewValid {i : Instr} {s t : State} (h : exec i s = .next t) (hi : i ≠ .scan) :
    t.viewValid = s.viewValid := by
  cases i with
  | scan => exact absurd rfl hi
  | csum =>
    rcases csumOn_cases Config.hw s with ⟨-, hc⟩ | ⟨-, -, hc⟩ | ⟨-, -, hc⟩ <;>
      rw [show exec .csum s = csumOn Config.hw s from rfl, hc] at h
    · cases h; rfl
    · cases h
    · obtain ⟨k, d, hk, -⟩ := s.embedChecksum_cases
      rw [hk] at h; cases h; rfl
  | splice =>
    rcases spliceOn_cases Config.hw s with ⟨-, hc⟩ | ⟨-, ⟨e, -, hc⟩ | ⟨-, ⟨-, hc⟩ | ⟨-, plen, ulen, d, -, -, -,
      ⟨-, hc⟩ | ⟨-, hc⟩⟩⟩⟩ <;> rw [show exec .splice s = spliceOn Config.hw s from rfl, hc] at h <;> cases h <;> rfl
  | send =>
    rcases sendOn_cases Config.hw (Config.txOutcome s.draws) s with ⟨-, hc⟩ | ⟨-, -, hc⟩ | ⟨-, -, bytes, d, -, hc⟩ <;>
      rw [show exec .send s = sendOn Config.hw (Config.txOutcome s.draws) s from rfl, hc] at h
    · cases h; rfl
    · cases h
    · obtain ⟨k, d', hk, -⟩ := s.embedChecksum_cases
      rw [hk] at h; cases h; rfl

/-- SCAN ends with a view and no error, or with an error and no view (R101). -/
theorem scanOn_view {c : Config} {s t : State} (h : scanOn c s = .next t) :
    (t.viewValid = true ∧ t.errCode = .ok) ∨ (t.viewValid = false ∧ t.errCode ≠ .ok) := by
  rcases scanOn_cases c s with ⟨-, hc⟩ | ⟨-, ⟨-, hc⟩ | ⟨-, -, hc⟩ | ⟨-, -, ⟨-, hc⟩ | ⟨nro, -, hc⟩⟩⟩ <;> rw [hc] at h
  iterate 4 cases h; exact .inr ⟨rfl, by simp [State.complete]⟩
  have hs : ∃ m ro, s.invalidate.shiftTo nro = { s.invalidate with mem := m, rawOffset := ro } := by
    unfold State.shiftTo
    split <;> exact ⟨_, _, rfl⟩
  obtain ⟨m, ro, hs⟩ := hs
  rw [hs] at h
  obtain ⟨d, ⟨e, hd, he⟩ | ⟨k, hd⟩ | ⟨k, plen, ulen, d', hd, -⟩⟩ :=
    scanIp6_cases c { s.invalidate with mem := m, rawOffset := ro } <;> rw [hd] at h <;> cases h
  · refine .inr ⟨rfl, ?_⟩
    simp only [List.mem_cons, List.mem_nil_iff, or_false] at he
    rcases he with rfl | rfl | rfl | rfl <;> simp [State.complete]
  · exact .inr ⟨rfl, by simp [State.complete]⟩
  · exact .inl ⟨rfl, rfl⟩

/-- What the engine's turn can do: nothing while idle; else the accepted word's command, or BAD_CMD (R84, R85). -/
theorem engineStep_cases {s t : State} (h : engineStep s = .next t) :
    (s.busy = false ∧ t = s)
    ∨ ∃ w, s.phase = .busy w ∧
      ((∃ i, decode w = .ok i ∧ exec i s = .next t) ∨ (∃ e, decode w = .error e ∧ t = s.complete .badCmd)) := by
  unfold engineStep at h
  split at h
  · rename_i hp
    cases h
    exact .inl ⟨by simp [State.busy, hp], rfl⟩
  · rename_i w hp
    refine .inr ⟨w, hp, ?_⟩
    split at h
    · rename_i i hi
      exact .inl ⟨i, hi, h⟩
    · rename_i e he
      cases h
      exact .inr ⟨e, he, rfl⟩

theorem State.busy_of_phase {s : State} {w : Word} (h : s.phase = .busy w) : s.busy = true := by simp [State.busy, h]

/-- What a step can be: the engine's turn, a host transaction, or a reset. -/
theorem step_cases {s t : State} (h : step s = .next t) :
    (s.inputs = [] ∧ engineStep s = .next t)
    ∨ (∃ rest, s.inputs = .engine :: rest ∧ engineStep { s with inputs := rest } = .next t)
    ∨ (∃ b rest, s.inputs = .bus b :: rest ∧ busStep Config.hw b { s with inputs := rest } = .next t)
    ∨ (∃ rest, s.inputs = .rst :: rest ∧ t = resetEvent { s with inputs := rest }) := by
  unfold step at h
  split at h
  · exact .inl ⟨‹_›, h⟩
  · exact .inr (.inl ⟨_, ‹_›, h⟩)
  · exact .inr (.inr (.inl ⟨_, _, ‹_›, h⟩))
  · cases h; exact .inr (.inr (.inr ⟨_, ‹_›, rfl⟩))

/-- A reset leaves the reset state, but for the draws, the inputs and what was observed (R230). -/
theorem resetEvent_eq (s : State) : ∃ d o, resetEvent s = { State.reset with draws := d, inputs := s.inputs, obs := o } := by
  unfold resetEvent
  split <;> exact ⟨_, _, rfl⟩

end Sys2Proof.Machine
end

