-- ==== Sys2Proof/Tests/Slice0.lean ====
section
/-! SUPPORT. Tests with results taken from the spec's vectors (`95_test_vectors.md`), and one witness for the
hypotheses of each statement. -/
namespace Sys2Proof.Machine.Tests

open Sys2Proof Sys2Proof.Machine

/-! ### What is refused as ill formed (R10) -/

theorem test_wellFormed_commands :
    Instr.scan.wellFormed = true ∧ Instr.csum.wellFormed = true ∧ Instr.splice.wellFormed = true
      ∧ Instr.send.wellFormed = true := by decide

theorem test_config_buffer_too_small : Config.legal { bufCap := 65539, l2HdrLen := 0 } = false := by decide

theorem test_config_buffer_too_large : Config.legal { bufCap := 131073, l2HdrLen := 0 } = false := by decide

theorem test_config_link_header_too_long : Config.legal { bufCap := 65540, l2HdrLen := 65 } = false := by decide

theorem test_config_hardware_and_bounds :
    Config.hw.legal = true ∧ Config.legal { bufCap := 131072, l2HdrLen := 64 } = true := by decide

/-! ### Words written out from format C (R80) and the table of R82: `RSV` in 31..8, `OP` in 7..0 -/

theorem test_decode_scan : decode 0b000000000000000000000000_00000001 = .ok .scan := by decide

theorem test_decode_csum : decode 0b000000000000000000000000_00000010 = .ok .csum := by decide

theorem test_decode_splice : decode 0b000000000000000000000000_00000011 = .ok .splice := by decide

theorem test_decode_send : decode 0b000000000000000000000000_00000100 = .ok .send := by decide

/-- R85: `OP` = 0x00, 0x05, 0xFF, and the lowest and the highest bit of `RSV`. -/
theorem test_decode_illegal :
    decode 0b000000000000000000000000_00000000 = .error .illegalOp
      ∧ decode 0b000000000000000000000000_00000101 = .error .illegalOp
      ∧ decode 0b000000000000000000000000_11111111 = .error .illegalOp
      ∧ decode 0b000000000000000000000001_00000001 = .error .reservedBits
      ∧ decode 0b100000000000000000000000_00000100 = .error .reservedBits := by decide

/-! ### Helpers -/

/-- Whether a step goes on to a state of which `p` holds. -/
def goesTo (o : StepOutcome) (p : State → Bool) : Bool :=
  match o with
  | .next t => p t
  | .fault _ => false
  | .refused _ => false

/-- The next state, or the state after reset when there is none. -/
def after (o : StepOutcome) : State :=
  match o with
  | .next t => t
  | .fault _ => State.reset
  | .refused _ => State.reset

theorem eq_next_of_goesTo {o : StepOutcome} (h : goesTo o (fun _ => true) = true) : o = .next (after o) := by
  cases o with
  | next t => rfl
  | fault f => simp [goesTo] at h
  | refused r => simp [goesTo] at h

/-- A next state of which `p` holds. -/
theorem exists_of_goesTo {o : StepOutcome} {p : State → Bool} (h : goesTo o p = true) : ∃ t, o = .next t ∧ p t = true := by
  cases o with
  | next t => exact ⟨t, rfl, h⟩
  | fault f => simp [goesTo] at h
  | refused r => simp [goesTo] at h

/-- The IPv6 header of frame F1. -/
def ipHeader : List Byte :=
  [0x60, 0, 0, 0, 0, 0x0C, 0x11, 0x01]
    ++ [0xFE, 0x80, 0, 0, 0, 0, 0, 0, 0, 0, 0, 0, 0, 0, 0, 0x01]
    ++ [0xFF, 0x02, 0, 0, 0, 0, 0, 0, 0, 0, 0, 0, 0, 0x01, 0, 0x02]

/-- Frame F1 with a stored checksum and a payload of 4 bytes (F1 itself: `C8 A1` and `01 12 34 56`). -/
def frameOf (csum payload : List Byte) : List Byte := ipHeader ++ [0x02, 0x22, 0x02, 0x23, 0, 0x0C] ++ csum ++ payload

/-- Frame F1. -/
def f1 : List Byte := frameOf [0xC8, 0xA1] [0x01, 0x12, 0x34, 0x56]

/-- A frame loaded at an index with its tags. -/
def loaded (at_ : Nat) (bytes : List Byte) : State :=
  { State.reset with
    mem := Memory.cells at_ bytes, rawOffset := BitVec.ofNat 32 at_, rawLength := BitVec.ofNat 32 bytes.length
    rxMeta := 0x000186DD }

/-- The state after a SCAN of F1, or of a frame of its shape, at index 0 (SCAN-1). -/
def viewed (bytes : List Byte) : State :=
  { loaded 0 bytes with
    viewValid := true, done := true, ip6Pos := 0, udpPos := 40, payloadPos := 48, payloadLen := 4, csum := 0xC8A1 }

/-- The same with SPLICE's arguments. -/
def viewedArgs (off n : Word) : State := { viewed f1 with arg0 := off, arg1 := n }

/-- The held bytes of a range, `256` standing for `UNSPEC`. -/
def peek (s : State) (i n : Nat) : List Nat :=
  (List.range n).map (fun k => match s.mem.byteAt (i + k) with | some b => b.toNat | none => 256)

/-! ### The commands -/

/-- SCAN-2.2: F1 at index 2 is moved to index 0. -/
theorem test_scan_shifts_down :
    goesTo (exec .scan (loaded 2 f1)) (fun t =>
      t.statusWord = 0x0000000A && t.rawOffset = 0 && t.payloadPos = 48 && t.payloadLen = 4 && t.csum = 0xC8A1
        && peek t 0 2 = [0x60, 0] && peek t 50 4 = [0x34, 0x56, 256, 256]) = true := by decide +kernel

/-- SCAN-18: with 14 bytes before the IPv6 header, F1 at index 0 is moved up by 2. -/
theorem test_scan_shifts_up :
    goesTo (scanOn { bufCap := 65540, l2HdrLen := 14 } (loaded 0 (List.replicate 12 0xAA ++ [0x86, 0xDD] ++ f1)))
      (fun t => t.statusWord = 0x0000000A && t.rawOffset = 2 && t.ip6Pos = 16 && t.udpPos = 56 && t.payloadPos = 64
        && t.payloadLen = 4 && t.csum = 0xC8A1 && peek t 0 3 = [256, 256, 0xAA]) = true := by decide +kernel

/-- CSM-8: payload `DE AD BE EF`. -/
theorem test_csum_writes_header :
    goesTo (exec .csum (viewed (frameOf [0, 0] [0xDE, 0xAD, 0xBE, 0xEF])))
      (fun t => t.statusWord = 0x0000000A && t.csum = 0x606C && peek t 45 4 = [0x0C, 0x60, 0x6C, 0xDE]) = true := by
  decide +kernel

/-- CSM-5: a computed 0x0000 becomes 0xFFFF: the payload `FE 0D`. -/
theorem test_csum_zero_becomes_ffff :
    checksumOfSum (checksumSum (ipHeader.drop 8 |>.take 16) (ipHeader.drop 24) [0x02, 0x22, 0x02, 0x23, 0, 0x0A]
      [0xFE, 0x0D]) = 0xFFFF := by decide +kernel

/-- E2: `splice 1, 3`. -/
theorem test_splice_opens_room :
    goesTo (exec .splice (viewedArgs 1 3)) (fun t =>
      t.statusWord = 0x0000000A && t.rawLength = 55 && t.payloadLen = 7 && t.splicePos = 49 && peek t 4 2 = [0, 15]
        && peek t 44 2 = [0, 15] && peek t 48 8 = [0x01, 256, 256, 256, 0x12, 0x34, 0x56, 256]) = true := by decide +kernel

/-- SPL-4: `splice 2, -2`. -/
theorem test_splice_deletes_before :
    goesTo (exec .splice (viewedArgs 2 0xFFFFFFFE)) (fun t =>
      t.statusWord = 0x0000000A && t.rawLength = 50 && t.payloadLen = 2 && t.splicePos = 48 && peek t 4 2 = [0, 10]
        && peek t 44 2 = [0, 10] && peek t 48 4 = [0x34, 0x56, 256, 256]) = true := by decide +kernel

/-- SND-3: the checksum is recomputed, and the frame F1 handed over whole. -/
theorem test_send_ok :
    goesTo (sendOn Config.hw .ok (viewed (frameOf [0, 0] [0x01, 0x12, 0x34, 0x56])))
      (fun t => t.statusWord = 0x0000000A && t.csum = 0xC8A1 && t.obs = [.frame f1 .ok f1] && t.tx = .idle) = true := by
  decide +kernel

/-- SND-2: the transmitter fails; the view stays. -/
theorem test_send_fail :
    goesTo (sendOn Config.hw .fail (viewed f1)) (fun t => t.statusWord = 0x0000200E && t.csum = 0xC8A1 && t.tx = .idle)
      = true := by decide +kernel

/-- CMD-2: the word 0x00000005 (R85). -/
theorem test_bad_cmd :
    goesTo (step ((viewed f1).withFetchWord 32 5)) (fun t => t.statusWord = 0x0000010E && peek t 0 1 = [0x60]) = true := by
  decide +kernel

/-! ### Witnesses: for each statement that has hypotheses, states and operands that meet them -/

/-- A state in which the word is accepted and the engine is busy. -/
def busyWith (w : Word) : State := (viewed f1).acceptCmd w

/-- The state with the inputs given. -/
def withInputs (s : State) (l : List Input) : State := { s with inputs := l }

theorem inv_viewed (a b : Word) : Inv Config.hw { viewed f1 with arg0 := a, arg1 := b } :=
  show Inv Config.hw (viewed f1) by decide +kernel

theorem witness_DecodeOfEncodeIsTheCommand : ∃ i : Instr, i.wellFormed = true := ⟨.send, rfl⟩

theorem witness_EngineTurnRunsTheDecodedCommand :
    (∀ i : Instr, ∃ w : Word, (busyWith w).phase = .busy w ∧ decode w = .ok i) ∧ (busyWith 1).inputs = [] := by
  refine ⟨fun i => ?_, rfl⟩
  cases i
  exacts [⟨1, rfl, by decide⟩, ⟨2, rfl, by decide⟩, ⟨3, rfl, by decide⟩, ⟨4, rfl, by decide⟩]

theorem witness_IdleEngineWaits : State.reset.busy = false ∧ State.reset.inputs = [] := ⟨rfl, rfl⟩

theorem witness_FetchedWordRunsNext :
    decodeTableWord 32 1 = some .scan ∧ decodeTableWord 3 4 = some .send ∧ decodeTableWord 40 3 = some .splice := by decide

theorem witness_IllegalWordCompletesWithBadCmd :
    ∃ w₁ w₂ : Word, (busyWith w₁).phase = .busy w₁ ∧ (busyWith w₂).phase = .busy w₂
      ∧ (w₁ ≠ 1 ∧ w₁ ≠ 2 ∧ w₁ ≠ 3 ∧ w₁ ≠ 4) ∧ (w₂ ≠ 1 ∧ w₂ ≠ 2 ∧ w₂ ≠ 3 ∧ w₂ ≠ 4) :=
  ⟨0, 0x101, rfl, rfl, by decide, by decide⟩

theorem witness_RegistersReadTheirValuesWhileIdle : (viewed f1).busy = false := rfl

/-- The lowest and the highest legal buffer access of each width. -/
theorem witness_HostAccessesWhileBusy :
    (busyWith 1).busy = true
      ∧ legalAccess 0x20000 1 ∧ legalAccess 0x30003 1 ∧ legalAccess 0x20000 2 ∧ legalAccess 0x30002 2
      ∧ legalAccess 0x20000 4 ∧ legalAccess 0x30000 4 ∧ 0x20000 ≤ (0x20000 : HostAddr).toNat := by decide +kernel

theorem witness_ReservedOffsetsReadZeroIgnoreWrites :
    ∃ a₁ a₂ : HostAddr, (0x3C = a₁.toNat ∧ a₁.toNat ≤ 0xFC ∧ a₁.toNat % 4 = 0)
      ∧ (0x3C ≤ a₂.toNat ∧ a₂.toNat = 0xFC ∧ a₂.toNat % 4 = 0) := ⟨0x3C, 0xFC, by decide, by decide⟩

theorem witness_RegisterWritesWhileIdle : (viewed f1).busy = false := rfl

theorem witness_IgnoredWritesSetStickyOvr :
    (busyWith 2).busy = true
      ∧ (∃ s t : State, s.inputs = [.bus (.write 0x08 4 0x10)] ∧ step s = .next t ∧ s.ovr = true ∧ t.ovr = false)
      ∧ (∃ s t : State, s.inputs = [.rst] ∧ step s = .next t ∧ s.ovr = true ∧ t.ovr = false) :=
  ⟨rfl, ⟨withInputs { busyWith 2 with ovr := true } [.bus (.write 0x08 4 0x10)], _, rfl, rfl, rfl, rfl⟩,
    ⟨withInputs { busyWith 2 with ovr := true } [.rst], _, rfl, rfl, rfl, rfl⟩⟩

/-- A word of held bytes at the bottom of the buffer, and one of `UNSPEC` bytes at its top. -/
theorem witness_BufferWindowAccesses :
    (viewed f1).busy = false ∧ legalAccess 0x20000 4 ∧ legalAccess 0x30000 4 ∧ legalAccess 0x30003 1
      ∧ (viewed f1).mem.bytesAt 0 4 = some [0x60, 0, 0, 0] ∧ (viewed f1).mem.bytesAt 65536 4 = none := by decide +kernel

/-- A byte that is `UNSPEC` at the end of the frame and one at the top of the buffer, and a word half of which is held. -/
theorem witness_BufferReadsDrawUnspecifiedBytes :
    ((viewed f1).busy = false ∧ legalAccess 0x20034 1 ∧ legalAccess 0x30003 1 ∧ (viewed f1).mem.byteAt 52 = none
      ∧ (viewed f1).mem.byteAt 65539 = none)
    ∧ (∃ s : State, s.busy = false ∧ legalAccess 0x20000 4 ∧ s.mem.unspecCount 0 4 = 2) :=
  ⟨by decide +kernel, { State.reset with mem := [(1, 0xAB), (3, 0xCD)] }, by decide, by decide, by decide⟩

theorem witness_HostReadsHaveNoSideEffect :
    (∃ t, step ((viewed f1).withBus (.read 0x18 4)) = .next t)
      ∧ (∃ t, step ((viewed f1).withBus (.read 0x20030 4)) = .next t) := ⟨⟨_, rfl⟩, ⟨_, rfl⟩⟩

/-- A SEND in progress with a view, one without, and another command in progress. -/
theorem witness_ResetEventResetsEverything :
    ((busyWith 4).phase = .busy 4 ∧ (busyWith 4).viewValid = true)
      ∧ ¬ ((State.reset.acceptCmd 4).phase = .busy 4 ∧ (State.reset.acceptCmd 4).viewValid = true)
      ∧ ¬ ((busyWith 3).phase = .busy 4 ∧ (busyWith 3).viewValid = true) := by decide

theorem witness_CommandsNeedAView : State.reset.viewValid = false := rfl

theorem witness_EveryCommandCompletes : Inv Config.hw (viewed f1) := inv_viewed _ _

theorem witness_InterruptLevel :
    ∃ s : State, s.done = true ∧ s.ie = true ∧ s.busy = false
      ∧ (∃ t, s.WriteLeadsTo 0x08 0x02 t) ∧ (0x02 : Word).getLsbD 1 = true ∧ (∃ t, s.WriteLeadsTo 0x0C 1 t)
      ∧ (∃ t, s.WriteLeadsTo 0x04 0 t) ∧ (0 : Word).getLsbD 0 = false
      ∧ (∃ t, step { s with inputs := .rst :: s.inputs } = .next t) :=
  ⟨{ viewed f1 with ie := true }, rfl, rfl, rfl, ⟨_, rfl⟩, rfl, ⟨_, rfl⟩, ⟨_, rfl⟩, rfl, ⟨_, rfl⟩⟩

theorem witness_FlagsAreSetOnlyByTheirEvents :
    (goesTo (step (withInputs (viewed f1) [.bus (.write 0x0C 4 1)])) (fun t => !(viewed f1).busy && t.busy) = true)
      ∧ (goesTo (step (withInputs (busyWith 2) [.engine])) (fun t => !(busyWith 2).done && t.done) = true)
      ∧ (goesTo (step (withInputs ((loaded 0 f1).acceptCmd 2) [.engine])) (fun t => t.err) = true)
      ∧ (goesTo (step (withInputs ((loaded 0 f1).acceptCmd 1) [.engine])) (fun t => t.viewValid) = true)
      ∧ (goesTo (step (withInputs (busyWith 1) [.bus (.write 0x10 4 7)])) (fun t => t.ovr) = true) := by decide +kernel

theorem witness_FlagsAreClearedOnlyByTheirEvents :
    (goesTo (step (withInputs (busyWith 2) [.engine])) (fun t => !t.busy) = true)
      ∧ (goesTo (step (withInputs (busyWith 5) [.rst])) (fun t => !t.busy) = true)
      ∧ (goesTo (step (withInputs (viewed f1) [.bus (.write 0x08 4 2)])) (fun t => !t.done) = true)
      ∧ (goesTo (step (withInputs (viewed f1) [.bus (.write 0x0C 4 2)])) (fun t => !t.done) = true)
      ∧ (goesTo (step (withInputs (viewed f1) [.rst])) (fun t => !t.done) = true)
      ∧ (goesTo (step (withInputs (State.failedWith (viewed f1) .fieldOvf) [.bus (.write 0x0C 4 2)])) (fun t => !t.err) = true)
      ∧ (goesTo (step (withInputs { busyWith 2 with err := true } [.engine])) (fun t => !t.err) = true)
      ∧ (goesTo (step (withInputs (viewed f1) [.bus (.write 0x18 4 0)])) (fun t => !t.viewValid) = true)
      ∧ (goesTo (step (withInputs { busyWith 1 with rxMeta := 0 } [.engine])) (fun t => !t.viewValid) = true)
      ∧ (goesTo (step (withInputs (viewed f1) [.rst])) (fun t => !t.viewValid) = true) := by decide +kernel

theorem witness_ScanRejectsARangePastTheBuffer :
    ∃ s : State, s.rawOffset.toNat + s.rawLength.toNat = 65541 :=
  ⟨{ State.reset with rawOffset := 65540, rawLength := 1 }, by decide⟩

theorem witness_ScanChecksTheTags :
    (∃ s : State, s.rawOffset.toNat + s.rawLength.toNat = 65540 ∧ s.rxMeta.extractLsb' 0 16 ≠ 0x86DD)
      ∧ (∃ s : State, s.rawOffset.toNat + s.rawLength.toNat = 65540 ∧ s.rxMeta.extractLsb' 0 16 = 0x86DD
          ∧ s.rxMeta.extractLsb' 16 16 ≠ 1) :=
  ⟨⟨{ State.reset with rawOffset := 65540, rxMeta := 0x00010800 }, by decide, by decide⟩,
    ⟨{ State.reset with rawLength := 65540, rxMeta := 0x000686DD }, by decide, by decide, by decide⟩⟩

/-- An aligned frame, a move down, a move up that just fits, and one that does not (SCAN-19). -/
theorem witness_ScanShiftsTheFrame :
    ∃ c : Config, c.legal = true ∧ c.bufCap = 65540 ∧ c.l2HdrLen = 14
      ∧ (∃ s : State, s.rxMeta = 0x000186DD ∧ s.rawOffset.toNat + s.rawLength.toNat ≤ 65540 ∧ (s.rawOffset.toNat + 14) % 4 = 0)
      ∧ (∃ s : State, s.rxMeta = 0x000186DD ∧ s.rawOffset.toNat + s.rawLength.toNat ≤ 65540 ∧ (s.rawOffset.toNat + 14) % 4 ≠ 0
          ∧ (s.rawOffset.toNat + 14) % 4 ≤ s.rawOffset.toNat)
      ∧ (∃ s : State, s.rxMeta = 0x000186DD ∧ s.rawOffset.toNat < (s.rawOffset.toNat + 14) % 4
          ∧ s.rawOffset.toNat + (4 - (s.rawOffset.toNat + 14) % 4) + s.rawLength.toNat = 65540)
      ∧ (∃ s : State, s.rxMeta = 0x000186DD ∧ s.rawOffset.toNat + s.rawLength.toNat ≤ 65540
          ∧ s.rawOffset.toNat < (s.rawOffset.toNat + 14) % 4
          ∧ s.rawOffset.toNat + (4 - (s.rawOffset.toNat + 14) % 4) + s.rawLength.toNat = 65541)
      ∧ (∃ s : State, s.scanReady ∧ s.rawOffset.toNat % 4 = 3) :=
  ⟨⟨65540, 14⟩, by decide, rfl, rfl, ⟨loaded 2 [], by decide⟩, ⟨loaded 3 [], by decide⟩,
    ⟨{ loaded 0 [] with rawLength := 65538 }, by decide⟩, ⟨{ loaded 0 [] with rawLength := 65539 }, by decide⟩,
    ⟨loaded 3 [], by decide⟩⟩

/-- F1 with one byte replaced. -/
def f1With (i : Nat) (b : Byte) : State := loaded 0 (f1.set i b)

/-- One frame for each check: `RAW_LENGTH` 39, an IPv6 length one too large, a next header that is not UDP, IPv6 length 7, UDP
length one above the IPv6 length, UDP length 7. -/
theorem witness_ScanChecksTheHeaders :
    (∃ s : State, s.scanReady ∧ s.rawLength.toNat = 39)
      ∧ ((f1With 5 13).scanReady ∧ (f1With 5 13).mem.halfAt 4 = some 13 ∧ (f1With 5 13).rawLength.toNat = 40 + 12)
      ∧ ((f1With 6 6).scanReady ∧ (f1With 6 6).mem.halfAt 4 = some 12 ∧ (f1With 6 6).mem.byteAt 6 = some 6)
      ∧ ((f1With 5 7).scanReady ∧ (f1With 5 7).mem.halfAt 4 = some 7 ∧ (f1With 5 7).mem.byteAt 6 = some 17)
      ∧ ((f1With 45 13).mem.halfAt 4 = some 12 ∧ (f1With 45 13).mem.byteAt 6 = some 17
          ∧ (f1With 45 13).mem.halfAt 44 = some 13)
      ∧ ((f1With 45 7).mem.halfAt 4 = some 12 ∧ (f1With 45 7).mem.byteAt 6 = some 17
          ∧ (f1With 45 7).mem.halfAt 44 = some 7) := by
  refine ⟨⟨{ loaded 0 f1 with rawLength := 39 }, by decide +kernel⟩, ?_⟩
  decide +kernel

/-- F1, whose checksum matches, and F1 with a flipped payload bit (SCAN-1, SCAN-14). -/
theorem witness_ScanVerifiesTheChecksumAndSetsTheView :
    (loaded 0 f1).scanReady ∧ (loaded 0 f1).mem.halfAt 4 = some 12 ∧ (loaded 0 f1).mem.byteAt 6 = some 17
      ∧ (loaded 0 f1).mem.halfAt 44 = some 12 ∧ (loaded 0 f1).mem.checksumAt 0 40 4 = some 0xC8A1
      ∧ (loaded 0 f1).mem.halfAt 46 = some 0xC8A1
      ∧ (f1With 51 0x57).mem.checksumAt 0 40 4 = some 0xC8A0 ∧ (f1With 51 0x57).mem.halfAt 46 = some 0xC8A1 := by
  decide +kernel

theorem witness_ScanNeverAcceptsAZeroChecksum : ∃ t, exec .scan (loaded 0 f1) = .next t ∧ t.viewValid = true :=
  exists_of_goesTo (p := fun t => t.viewValid) (by decide +kernel)

/-- F1, whose four payload bytes also serve for the payloads of 0 and of 3 bytes. -/
theorem witness_ChecksumSumsTheBigEndianWords :
    ∀ n ≤ 4, ∀ j, checksumReads 0 40 n j → (loaded 0 f1).mem.byteAt j = some (f1.getD j 0) := by
  intro n hn j hj
  have hlen : f1.length = 52 := rfl
  show Memory.byteAt (Memory.cells 0 f1) j = _
  simp only [checksumReads] at hj
  rw [Memory.byteAt_cells, if_pos (Nat.zero_le j), Nat.sub_zero, List.getElem?_eq_getElem (by omega),
    List.getD_eq_getElem _ _ (by omega)]

theorem witness_ChecksumClosedForm :
    ∃ S₁ S₂ : Nat, 0 < S₁ ∧ S₁ ≤ 2148499457 ∧ S₁ % 65535 ≠ 0 ∧ 0 < S₂ ∧ S₂ ≤ 2148499457 ∧ S₂ % 65535 = 0 :=
  ⟨2148499457, 65535, by decide, by decide, by decide, by decide, by decide, by decide⟩

theorem witness_ChecksumIsNeverZero : ∃ S : Nat, 17 ≤ S ∧ S ≤ 2148499457 := ⟨17, by decide, by decide⟩

/-- The longest payload. -/
theorem witness_ChecksumAccumulatorNeverWraps :
    ∃ src dst hdr pay : List Byte, src.length = 16 ∧ dst.length = 16 ∧ hdr.length = 6 ∧ pay.length = 65527 :=
  ⟨List.replicate 16 0xFF, List.replicate 16 0xFF, List.replicate 6 0xFF, List.replicate 65527 0xFF,
    List.length_replicate, List.length_replicate, List.length_replicate, List.length_replicate⟩

theorem witness_ChecksumReadsOnlyItsBytes :
    (∃ m m' : Memory, m ≠ m' ∧ ∀ j, checksumReads 0 40 4 j → m'.byteAt j = m.byteAt j)
      ∧ (∀ j ∈ [8, 39, 40, 45, 48, 51], checksumReads 0 40 4 j ∧ State.reset.mem.byteAt j = none) := by
  refine ⟨⟨[], [(52, 0)], by decide, fun j h => ?_⟩, by decide⟩
  simp only [checksumReads] at h
  simp only [Memory.byteAt]
  rw [if_neg (by omega)]

/-- The frame in memory, and the same with bit `k` of byte `j` flipped. -/
def flipped (j k : Nat) : Memory := f1.set j (f1.getD j 0 ^^^ BitVec.ofNat 8 (2 ^ k)) |> Memory.cells 0

theorem flipped_else (j k i : Nat) (h : i ≠ j) : (flipped j k).byteAt i = (loaded 0 f1).mem.byteAt i := by
  show Memory.byteAt (Memory.cells 0 _) i = Memory.byteAt (Memory.cells 0 _) i
  rw [Memory.byteAt_cells, Memory.byteAt_cells]
  simp [Ne.symm h]

/-- The first and the last byte that are summed. -/
theorem witness_FlippedBitChangesTheChecksum :
    ∀ x ∈ [(8, 7), (51, 0)], checksumReads 0 40 4 x.1 ∧ ¬ (44 ≤ x.1 ∧ x.1 < 46)
      ∧ (loaded 0 f1).mem.byteAt x.1 = some (f1.getD x.1 0)
      ∧ (flipped x.1 x.2).byteAt x.1 = some (f1.getD x.1 0 ^^^ BitVec.ofNat 8 (2 ^ x.2))
      ∧ ((loaded 0 f1).mem.checksumAt 0 40 4).isSome = true ∧ ((flipped x.1 x.2).checksumAt 0 40 4).isSome = true := by
  decide +kernel

theorem witness_FlippedPayloadBitFailsScan :
    (loaded 0 f1).scanReady ∧ (loaded 0 f1).mem.halfAt 4 = some 12 ∧ (loaded 0 f1).mem.byteAt 6 = some 17
      ∧ (loaded 0 f1).mem.halfAt 44 = some 12 ∧ ((loaded 0 f1).mem.checksumAt 0 40 4).isSome = true
      ∧ ((loaded 0 f1).mem.halfAt 46).isSome = true ∧ (loaded 0 f1).mem.byteAt 51 = some 0x56
      ∧ (flipped 51 0).byteAt 51 = some (0x56 ^^^ BitVec.ofNat 8 (2 ^ 0))
      ∧ goesTo (exec .scan (loaded 0 f1)) (fun t => !t.err) = true := by decide +kernel

/-- A view over held bytes, and a view whose payload is `UNSPEC`. -/
theorem witness_CsumWritesTheChecksum :
    Inv Config.hw (viewed f1) ∧ (viewed f1).viewValid = true ∧ (viewed f1).mem.checksumAt 0 40 4 = some 0xC8A1
      ∧ Inv Config.hw { viewed f1 with mem := [] } ∧ Memory.checksumAt [] 0 40 4 = none :=
  ⟨inv_viewed _ _, rfl, by decide +kernel, by decide +kernel, by decide +kernel⟩

theorem witness_CsumIsIdempotent :
    Inv Config.hw (viewed f1) ∧ (viewed f1).viewValid = true ∧ ((viewed f1).mem.checksumAt 0 40 4).isSome = true
      ∧ goesTo (exec .csum (viewed f1)) (fun _ => true) = true := by decide +kernel

theorem witness_CsumThenScanSucceeds :
    Inv Config.hw (viewed f1) ∧ (viewed f1).viewValid = true ∧ (viewed f1).fieldsAgree Config.hw = true
      ∧ (viewed f1).rxMeta = 0x000186DD ∧ (viewed f1).mem.byteAt 6 = some 17
      ∧ ((viewed f1).mem.checksumAt 0 40 4).isSome = true ∧ goesTo (exec .csum (viewed f1)) (fun _ => true) = true := by
  decide +kernel

/-- One past each bound: offset 5 of a payload of 4, 3 bytes before offset 2, 65489 bytes after 52. -/
theorem witness_SpliceChecksItsOperands :
    (viewedArgs 5 1).viewValid = true ∧ (viewedArgs 5 1).payloadLen.toNat < (viewedArgs 5 1).arg0.toNat
      ∧ ((viewedArgs 2 0xFFFFFFFD).arg1.toInt = -3 ∧ (viewedArgs 2 0xFFFFFFFD).arg0.toNat = 2)
      ∧ ((viewedArgs 0 65489).arg1.toInt = 65489
          ∧ (viewedArgs 0 65489).rawOffset.toNat + (viewedArgs 0 65489).rawLength.toNat + 65489 = 65541) := by decide

theorem witness_FailedSpliceChangesNothing : goesTo (exec .splice (viewedArgs 5 1)) (fun t => t.err) = true := by
  decide +kernel

/-- F1 with the UDP length field at its largest value: inserting one byte overflows it (SPL-14.1); and F1 itself. -/
theorem witness_SpliceFieldOverflow :
    (∃ s : State, Inv Config.hw s ∧ s.spliceReady ∧ s.mem.halfAt (s.ip6Pos.toNat + 4) = some 12
      ∧ s.mem.halfAt (s.udpPos.toNat + 4) = some 65535 ∧ s.arg1.toInt = 1)
    ∧ (Inv Config.hw (viewedArgs 0 1) ∧ (viewedArgs 0 1).fieldsAgree Config.hw = true
      ∧ goesTo (exec .splice (viewedArgs 0 1)) (fun _ => true) = true) :=
  ⟨⟨{ viewedArgs 0 1 with mem := Memory.cells 0 ((f1.set 44 0xFF).set 45 0xFF) }, by decide +kernel, by decide +kernel,
    by decide +kernel, by decide +kernel, by decide +kernel⟩, inv_viewed _ _, by decide +kernel, by decide +kernel⟩

/-- An insertion that fills the buffer, a deletion of the whole payload, and one that changes nothing. -/
theorem witness_SpliceMovesTheBytesAndTheLengths :
    (viewed f1).mem.halfAt 4 = some 12 ∧ (viewed f1).mem.halfAt 44 = some 12
      ∧ ((viewedArgs 0 65488).spliceReady ∧ (viewedArgs 0 65488).arg1.toInt = 65488)
      ∧ ((viewedArgs 4 0xFFFFFFFC).spliceReady ∧ (viewedArgs 4 0xFFFFFFFC).arg1.toInt = -4)
      ∧ ((viewedArgs 4 0).spliceReady ∧ (viewedArgs 4 0).arg1.toInt = 0)
      ∧ Inv Config.hw (viewedArgs 0 65488) ∧ Inv Config.hw (viewedArgs 4 0xFFFFFFFC) ∧ Inv Config.hw (viewedArgs 4 0) :=
  ⟨by decide +kernel, by decide +kernel, by decide +kernel, by decide +kernel, by decide +kernel, inv_viewed _ _,
    inv_viewed _ _, inv_viewed _ _⟩

theorem witness_SpliceEditsThePayload :
    Inv Config.hw (viewedArgs 2 3) ∧ (viewedArgs 2 3).viewValid = true
      ∧ goesTo (exec .splice (viewedArgs 2 3)) (fun t => !t.err) = true ∧ 0 ≤ (viewedArgs 2 3).arg1.toInt
      ∧ goesTo (exec .splice (viewedArgs 2 0xFFFFFFFE)) (fun t => !t.err) = true
      ∧ (viewedArgs 2 0xFFFFFFFE).arg1.toInt < 0 := by decide +kernel

theorem witness_SpliceIsInvertible :
    Inv Config.hw (viewed f1) ∧ (viewed f1).mem.halfAt 4 = some 12 ∧ (viewed f1).mem.halfAt 44 = some 12
      ∧ goesTo (exec .splice { viewed f1 with arg0 := BitVec.ofNat 32 1, arg1 := BitVec.ofNat 32 3 }) (fun t => !t.err) = true
      := by decide +kernel

theorem witness_ZeroLengthSpliceOnlyReports :
    (∃ s : State, s.arg1 = 0 ∧ s.viewValid = false)
      ∧ ((viewedArgs 5 0).viewValid = true ∧ (viewedArgs 5 0).payloadLen.toNat + 1 = (viewedArgs 5 0).arg0.toNat)
      ∧ (Inv Config.hw (viewedArgs 4 0) ∧ (viewedArgs 4 0).arg0.toNat = (viewedArgs 4 0).payloadLen.toNat
        ∧ (viewedArgs 4 0).mem.halfAt 4 = some 12 ∧ (viewedArgs 4 0).mem.halfAt 44 = some 12) :=
  ⟨⟨State.reset, rfl, rfl⟩, by decide, inv_viewed _ _, by decide, by decide +kernel, by decide +kernel⟩

theorem witness_SendHandsOverTheFrame :
    State.reset.viewValid = false ∧ Inv Config.hw (viewed f1) ∧ (viewed f1).viewValid = true :=
  ⟨rfl, inv_viewed _ _, rfl⟩

theorem witness_SendAgainSendsTheSameFrame :
    Inv Config.hw (viewed f1) ∧ (viewed f1).viewValid = true ∧ ((viewed f1).mem.bytesAt 0 52).isSome = true
      ∧ ∃ t, exec .send (viewed f1) = .next t := by
  refine ⟨inv_viewed _ _, rfl, by decide +kernel, ?_⟩
  have h : ∀ o, ∃ t, sendOn Config.hw o (viewed f1) = .next t := fun o => by
    cases o <;> exact ⟨_, eq_next_of_goesTo (by decide +kernel)⟩
  exact h _

theorem witness_EveryStepKeepsTheInvariant :
    Inv Config.hw (busyWith 3) ∧ goesTo (step (busyWith 3)) (fun _ => true) = true := by decide +kernel

theorem witness_CommandsKeepTheInvariantOnEveryConfiguration :
    ∃ c : Config, c.legal = true ∧ c ≠ Config.hw ∧ Inv c State.reset := ⟨⟨131072, 14⟩, by decide, by decide, by decide⟩

theorem witness_CommandsKeepTheLengthFieldsAgreed :
    (Inv Config.hw (loaded 0 f1) ∧ (loaded 0 f1).viewValid = false ∧ ((loaded 0 f1).mem.halfAt 4).isSome = true
      ∧ ((loaded 0 f1).mem.halfAt 44).isSome = true ∧ goesTo (exec .scan (loaded 0 f1)) (fun t => t.viewValid) = true)
    ∧ (Inv Config.hw (viewedArgs 1 3) ∧ (viewedArgs 1 3).fieldsAgree Config.hw = true
      ∧ goesTo (exec .splice (viewedArgs 1 3)) (fun t => t.viewValid) = true) :=
  ⟨by decide +kernel, inv_viewed _ _, by decide +kernel, by decide +kernel⟩

theorem witness_AcceptedCommandFinishesAtTheEnginesTurn :
    ∃ s : State, Inv Config.hw s ∧ s.phase = .busy 3
      ∧ s.inputs = List.replicate 2 (HostProgram.rd .status) ++ .engine :: [] :=
  ⟨withInputs (busyWith 3) (List.replicate 2 (HostProgram.rd .status) ++ [.engine]),
    show Inv Config.hw (busyWith 3) by decide +kernel, rfl, rfl⟩

end Sys2Proof.Machine.Tests
end

section
/-! The buffer is big-endian, and `MemRead` reads what `MemWrite` wrote (`00_scope.md` R12, `20_memory.md` R65). -/
namespace Sys2Proof.Machine

/-- A byte appended on the right is one step of the fold that computes `beValue`. -/
theorem toNat_append_byte {w : Nat} (a : BitVec w) (b : Byte) : (a ++ b).toNat = 256 * a.toNat + b.toNat := by
  rw [BitVec.toNat_append, ← Nat.shiftLeft_add_eq_or_of_lt b.isLt, Nat.shiftLeft_eq, Nat.mul_comm]

theorem ofNat_beValue_two (b0 b1 : Byte) : BitVec.ofNat 16 (beValue [b0, b1]) = b0 ++ b1 := by
  have hv : beValue [b0, b1] = (b0 ++ b1).toNat := by simp [beValue, toNat_append_byte]
  rw [hv, BitVec.ofNat_toNat, BitVec.setWidth_eq]

theorem ofNat_beValue_four (b0 b1 b2 b3 : Byte) :
    BitVec.ofNat 32 (beValue [b0, b1, b2, b3]) = b0 ++ b1 ++ b2 ++ b3 := by
  have hv : beValue [b0, b1, b2, b3] = (b0 ++ b1 ++ b2 ++ b3).toNat := by simp [beValue, toNat_append_byte]
  rw [hv, BitVec.ofNat_toNat, BitVec.setWidth_eq]

/-- Every byte just written is held, so reading it back draws nothing. -/
theorem State.memRead_memWrite (s : State) (i n v : Nat) :
    (s.memWrite i n v).memRead i n = (v % 2 ^ (8 * n), s.memWrite i n v) := by
  have hheld : (s.memWrite i n v).mem.bytesAt i n = some (beBytes n v) := by
    simpa using Memory.bytesAt_store s.mem i (beBytes n v)
  rw [State.memRead_of_bytesAt hheld, beValue_beBytes, Nat.pow_mul]

/-- Settles O17: two and four bytes by the value of an appended byte, the read-back for every width. -/
theorem bufferIsBigEndian : Obligations.BufferIsBigEndian :=
  ⟨ofNat_beValue_two, ofNat_beValue_four, State.memRead_memWrite⟩

end Sys2Proof.Machine
end

section
/-! On every legal configuration the commands complete and keep the invariant (`00_scope.md` R10, `10_state.md` R45,
`20_memory.md` R69). -/
namespace Sys2Proof.Machine

/-- R10: on a legal configuration every buffer index and length fits its 32-bit register. -/
theorem bufCap_le_of_legal {c : Config} (h : c.legal = true) : c.bufCap ≤ 131072 := by
  simp only [Config.legal, Bool.and_eq_true, decide_eq_true_eq] at h
  obtain ⟨⟨-, hmax⟩, -⟩ := h
  exact hmax

/-- An integer that fits a 32-bit register is stored as it is. -/
theorem toNat_ofInt_of_fits {z : Int} (h0 : 0 ≤ z) (h1 : z < 2 ^ 32) : ((BitVec.ofInt 32 z).toNat : Int) = z := by
  rw [BitVec.toNat_ofInt]
  omega

/-! ### What keeps the invariant -/

/-- R45, first group: what a valid view gives. -/
theorem Inv.view {c : Config} {s : State} (h : Inv c s) (hv : s.viewValid = true) : s.ViewConsistent c := by
  obtain ⟨-, hview, -⟩ := h
  exact hview hv

/-- A completion writes the flags that go together and ends `BUSY` (R205), so what is left of the invariant is the buffer,
the view and the transmitter. -/
theorem inv_complete {c : Config} {s : State} (e : ErrCode) (hmem : s.mem.wf c.bufCap)
    (hview : s.viewValid = true → s.ViewConsistent c) (hunset : s.viewValid = false → s.ViewUnset)
    (htx : s.tx = .idle) : Inv c (s.complete e) :=
  ⟨hmem, hview, hunset, fun hb => by simp at hb, by simp, htx⟩

theorem Inv.complete {c : Config} {s : State} (h : Inv c s) (e : ErrCode) : Inv c (s.complete e) := by
  obtain ⟨hmem, hview, hunset, -, -, htx⟩ := h
  exact inv_complete e hmem hview hunset htx

theorem inv_complete_of_view {c : Config} {s : State} (e : ErrCode) (hmem : s.mem.wf c.bufCap)
    (hvalid : s.viewValid = true) (hview : s.ViewConsistent c) (htx : s.tx = .idle) : Inv c (s.complete e) :=
  inv_complete e hmem (fun _ => hview) (fun hn => by simp [hvalid] at hn) htx

theorem Inv.invalidate {c : Config} {s : State} (h : Inv c s) : Inv c s.invalidate := by
  obtain ⟨hmem, -, -, hflags⟩ := h
  exact ⟨hmem, fun hv => by simp at hv, fun _ => ⟨rfl, rfl, rfl, rfl⟩, hflags⟩

/-- Without a view the frame may stand anywhere. -/
theorem Inv.withFrame {c : Config} {s : State} (h : Inv c s) (hv : s.viewValid = false) {m : Memory}
    (hm : m.wf c.bufCap) (ro : Word) : Inv c { s with mem := m, rawOffset := ro } := by
  obtain ⟨-, -, hrest⟩ := h
  exact ⟨hm, fun hn => by simp [hv] at hn, hrest⟩

/-- The checksum field of a valid view lies in the buffer, so writing it keeps the canonical form. -/
theorem Inv.embedChecksum {c : Config} {s : State} (h : Inv c s) (hv : s.viewValid = true) :
    Inv c s.embedChecksum := by
  obtain ⟨hcap, -, -, -, hpos, hend, -⟩ := h.view hv
  obtain ⟨hmem, hrest⟩ := h
  obtain ⟨k, d, hk, -⟩ := s.embedChecksum_cases
  rw [hk]
  exact ⟨Memory.wf_store hmem (by rw [beBytes_length]; omega), hrest⟩

/-- P5 to P7 of a splice that passed its checks (R153 to R157): the move and both length fields stay inside the buffer, and
the payload and the valid range grow or shrink alike. -/
theorem inv_spliceEffect_complete {c : Config} {s : State} {plen ulen : Nat} (hc : c.legal = true) (h : Inv c s)
    (hv : s.viewValid = true) (hcheck : s.spliceOperands.check c = none)
    (hfields : s.spliceOperands.fieldOverflow plen ulen = false) :
    Inv c ((s.spliceEffect s.spliceOperands plen ulen).complete .ok) := by
  have hbuf := bufCap_le_of_legal hc
  obtain ⟨hcap, hip, hal, hudp, hpos, hend, hlen⟩ := h.view hv
  obtain ⟨hmem, -, -, -, -, htx⟩ := h
  obtain ⟨hoff, hneg, hgrow⟩ := (SpliceOperands.check_eq_none _ _).mp hcheck
  obtain ⟨-, -, -, -, hmax⟩ := (SpliceOperands.fieldOverflow_eq_false _ _ _).mp hfields
  simp only [State.spliceOperands] at hoff hneg hgrow hmax
  refine inv_complete_of_view .ok ?_ hv ?_ htx
  · refine Memory.wf_store (Memory.wf_store (Memory.wf_splice hmem _ ?_ ?_ ?_) ?_) ?_
    all_goals simp only [State.spliceOperands, SpliceOperands.b, SpliceOperands.e, beBytes_length]; omega
  · have hrl := toNat_ofInt_of_fits (z := s.rawLength.toNat + sint32 s.arg1) (by omega) (by omega)
    have hpl := toNat_ofInt_of_fits (z := s.payloadLen.toNat + sint32 s.arg1) (by omega) (by omega)
    simp only [State.ViewConsistent, State.spliceEffect, State.memWrite, State.spliceOperands]
    omega

/-! ### Every access of a consistent view lies in the buffer (R69) -/

theorem State.ViewConsistent.checksumInBuffer {c : Config} {s : State} (h : s.ViewConsistent c) :
    s.checksumInBuffer c = true := by
  obtain ⟨hcap, hip, -, hudp, hpos, hend, -⟩ := h
  simp only [State.checksumInBuffer, inBuffer, Bool.and_eq_true, decide_eq_true_eq]
  omega

theorem State.ViewConsistent.sendInBuffer {c : Config} {s : State} (h : s.ViewConsistent c) :
    s.sendInBuffer c = true := by
  obtain ⟨hcap, -⟩ := id h
  simp [State.sendInBuffer, inBuffer, h.checksumInBuffer, hcap]

theorem State.ViewConsistent.spliceInBuffer {c : Config} {s : State} (h : s.ViewConsistent c)
    (hcheck : s.spliceOperands.check c = none) : s.spliceOperands.accessesInBuffer c = true := by
  obtain ⟨hcap, hip, -, hudp, hpos, hend, -⟩ := h
  obtain ⟨hoff, -⟩ := (SpliceOperands.check_eq_none _ _).mp hcheck
  rw [SpliceOperands.accessesInBuffer_eq_true]
  simp only [State.spliceOperands, SpliceOperands.b, SpliceOperands.e] at hoff ⊢
  omega

/-! ### Each command completes and keeps the invariant -/

/-- S4 to S8 on an aligned frame inside the buffer: an error keeps the view as it was, success sets a consistent one
(R114). -/
theorem scanIp6_keeps_inv {c : Config} {s : State} (hc : c.legal = true) (h : Inv c s)
    (hal : (s.rawOffset.toNat + c.l2HdrLen) % 4 = 0)
    (hcap : s.rawOffset.toNat + s.rawLength.toNat ≤ c.bufCap) : ∃ t, scanIp6 c s = .next t ∧ Inv c t := by
  have hbuf := bufCap_le_of_legal hc
  obtain ⟨d, ⟨e, hs, -⟩ | ⟨k, hs⟩ | ⟨k, plen, ulen, d', hs, hlo, hle, hlt, hfit, -⟩⟩ := scanIp6_cases c s
  · exact ⟨_, hs, Inv.complete (s := { s with draws := d }) h e⟩
  · exact ⟨_, hs, Inv.complete (s := { s with draws := d, csum := k }) h .badCsum⟩
  · obtain ⟨hmem, -, -, -, -, htx⟩ := h
    refine ⟨_, hs, inv_complete_of_view .ok hmem rfl ?_ htx⟩
    simp only [State.ViewConsistent, BitVec.toNat_ofNat]
    omega

theorem scanOn_keeps_inv {c : Config} {s : State} (hc : c.legal = true) (h : Inv c s) :
    ∃ t, scanOn c s = .next t ∧ Inv c t := by
  obtain ⟨-, hs⟩ | ⟨hcap, ⟨-, hs⟩ | ⟨-, -, hs⟩ | ⟨-, -, ⟨-, hs⟩ | ⟨nro, hn, hs⟩⟩⟩ := scanOn_cases c s
  iterate 4 exact ⟨_, hs, h.invalidate.complete _⟩
  have hbuf := bufCap_le_of_legal hc
  obtain ⟨hal, hfit⟩ := alignTarget_cases c _ _ nro hn hcap
  have hlt : nro < 2 ^ 32 := by omega
  have hro : (BitVec.ofNat 32 nro).toNat = nro := Nat.mod_eq_of_lt hlt
  obtain ⟨m, hshift, -, -, hwf⟩ := s.invalidate.shiftTo_spec nro hlt
  obtain ⟨hmem, -⟩ := id h
  rw [hs, hshift]
  refine scanIp6_keeps_inv hc (h.invalidate.withFrame rfl (hwf c.bufCap hmem hfit) _) ?_ ?_
  · simpa only [hro] using hal
  · simpa only [hro, State.invalidate_rawLength] using hfit

theorem csumOn_keeps_inv {c : Config} {s : State} (h : Inv c s) : ∃ t, csumOn c s = .next t ∧ Inv c t := by
  obtain ⟨-, hs⟩ | ⟨hv, hout, -⟩ | ⟨hv, -, hs⟩ := csumOn_cases c s
  · exact ⟨_, hs, h.complete _⟩
  · simp [(h.view hv).checksumInBuffer] at hout
  · exact ⟨_, hs, (h.embedChecksum hv).complete _⟩

theorem spliceOn_keeps_inv {c : Config} {s : State} (hc : c.legal = true) (h : Inv c s) :
    ∃ t, spliceOn c s = .next t ∧ Inv c t := by
  obtain ⟨-, hs⟩ | ⟨hv, ⟨e, -, hs⟩ | ⟨hcheck, ⟨hout, -⟩ | ⟨-, plen, ulen, d, -, -, -,
    ⟨-, hs⟩ | ⟨hfields, hs⟩⟩⟩⟩ := spliceOn_cases c s
  · exact ⟨_, hs, h.complete _⟩
  · exact ⟨_, hs, h.complete _⟩
  · simp [(h.view hv).spliceInBuffer hcheck] at hout
  · exact ⟨_, hs, Inv.complete (s := { s with draws := d }) h _⟩
  · exact ⟨_, hs, inv_spliceEffect_complete (s := { s with draws := d }) hc h hv hcheck hfields⟩

/-- The transmitter is idle again after its answer, whatever it was (R183). -/
theorem sendOn_keeps_inv {c : Config} {s : State} (h : Inv c s) (o : TxOutcome) :
    ∃ t, sendOn c o s = .next t ∧ Inv c t := by
  obtain ⟨-, hs⟩ | ⟨hv, hout, -⟩ | ⟨hv, -, bytes, d, -, hs⟩ := sendOn_cases c o s
  · exact ⟨_, hs, h.complete _⟩
  · simp [(h.view hv).sendInBuffer] at hout
  · obtain ⟨hmem, hview, hunset, -⟩ := h.embedChecksum hv
    exact ⟨_, hs, inv_complete _ hmem hview hunset rfl⟩

/-- Settles O54, one command at a time. -/
theorem commandsKeepTheInvariantOnEveryConfiguration : Obligations.CommandsKeepTheInvariantOnEveryConfiguration :=
  fun _ _ hc h => ⟨scanOn_keeps_inv hc h, csumOn_keeps_inv h, spliceOn_keeps_inv hc h, sendOn_keeps_inv h⟩

end Sys2Proof.Machine
end

section
/-! What one step can be, and the invariant it keeps (`10_state.md` R35, R36, R41, R45; `30_encoding.md` R84). -/
namespace Sys2Proof.Machine

/-! ### Every step, as one of eight events -/

/-- A word is its two fields (R80). -/
theorem rsvField_append_opField (w : Word) : rsvField w ++ opField w = w :=
  (BitVec.extractLsb'_append_extractLsb'_eq_extractLsb' (start₂ := 8) (len₂ := 24) rfl).trans BitVec.extractLsb'_eq_self

/-- The decoder accepts a command's own word and no other (R81, R82). -/
theorem encode_of_decode {w : Word} {i : Instr} (h : decode w = .ok i) : encode i = w := by
  have hw : ∀ op, rsvField w = 0 → opField w = op → (0 : BitVec 24) ++ op = w := fun op hr ho => by
    rw [← hr, ← ho, rsvField_append_opField]
  unfold decode at h
  split_ifs at h with hrsv hop hop hop hop <;> cases h <;> exact hw _ (not_not.mp hrsv) hop

/-- The next state of a step from `s`, by what the step was. `other` leaves the flags, the view and the phase as they
are: an idle engine's turn, a host read, a buffer write, or a register write that does none of what follows. -/
inductive StepEvent (s : State) : State → Prop
  | other {mem ie arg0 arg1 draws inputs obs} (hmem : s.mem.wf Config.hw.bufCap → mem.wf Config.hw.bufCap) :
      StepEvent s
        { s with mem := mem, ie := ie, arg0 := arg0, arg1 := arg1, draws := draws, inputs := inputs, obs := obs }
  | statusWrite {v rest} (hin : s.inputs = .bus (.write 0x08 4 v) :: rest) :
      StepEvent s (State.writeStatus { s with inputs := rest } v)
  | cmdWrite {v rest} (hidle : s.busy = false) (hin : s.inputs = .bus (.write 0x0C 4 v) :: rest) :
      StepEvent s (State.acceptCmd { s with inputs := rest } v)
  | frameWrite {a v rest ro rl m} (hidle : s.busy = false) (ha : a ∈ ([0x18, 0x1C, 0x20] : List HostAddr))
      (hin : s.inputs = .bus (.write a 4 v) :: rest) :
      StepEvent s { State.invalidate { s with inputs := rest } with rawOffset := ro, rawLength := rl, rxMeta := m }
  | ignoredWrite {a v rest} (hbusy : s.busy = true) (ha : a ∈ busyGuarded)
      (hin : s.inputs = .bus (.write a 4 v) :: rest) : StepEvent s (State.ignoredWrite { s with inputs := rest })
  | command {i inputs t} (hphase : s.phase = .busy (encode i)) (hexec : exec i { s with inputs := inputs } = .next t) :
      StepEvent s t
  | badCommand {inputs} (hbusy : s.busy = true) : StepEvent s (State.complete { s with inputs := inputs } .badCmd)
  | reset {draws rest obs} (hin : s.inputs = .rst :: rest) :
      StepEvent s { State.reset with draws := draws, inputs := rest, obs := obs }

theorem stepEvent_of_engineStep {s t : State} {inputs : List Input}
    (h : engineStep { s with inputs := inputs } = .next t) : StepEvent s t := by
  obtain ⟨-, rfl⟩ | ⟨w, hw, ⟨i, hi, hexec⟩ | ⟨e, -, rfl⟩⟩ := engineStep_cases h
  · exact .other id
  · exact .command (encode_of_decode hi ▸ hw) hexec
  · exact .badCommand (State.busy_of_busy s w hw)

theorem stepEvent_of_regWrite {s : State} {a : HostAddr} {n : Nat} {v : Word} {rest : List Input} {r : Reg}
    (hin : s.inputs = .bus (.write a n v) :: rest) (hr : busTarget Config.hw a n = some (.reg r)) :
    StepEvent s (State.regWrite { s with inputs := rest } r v) := by
  obtain h | ⟨rfl, h⟩ | ⟨rfl, h⟩ | ⟨hbusy, ha, h⟩ | ⟨hidle, ⟨rfl, h⟩ | ⟨a0, a1, h⟩ | ⟨ro, rl, m, ha, h⟩⟩ :=
    State.regWrite_cases { s with inputs := rest } r v <;> rw [h]
  · exact .other id
  · exact .other id
  · obtain ⟨rfl, rfl⟩ := busTarget_eq_reg hr (by decide)
    exact .statusWrite hin
  · obtain ⟨rfl, rfl⟩ := busTarget_eq_reg hr (by rintro rfl; revert ha; decide)
    exact .ignoredWrite hbusy ha hin
  · obtain ⟨rfl, rfl⟩ := busTarget_eq_reg hr (by decide)
    exact .cmdWrite hidle hin
  · exact .other id
  · obtain ⟨rfl, rfl⟩ := busTarget_eq_reg hr (by rintro rfl; revert ha; decide)
    exact .frameWrite hidle ha hin

theorem stepEvent_of_busStep {s t : State} {b : BusOp} {rest : List Input} (hin : s.inputs = .bus b :: rest)
    (h : busStep Config.hw b { s with inputs := rest } = .next t) : StepEvent s t := by
  cases b with
  | read a n =>
    obtain ⟨d, v, rfl⟩ := busStep_read h
    exact .other id
  | write a n v =>
    obtain ⟨r, hr, rfl⟩ | ⟨i, k, hk, -, rfl⟩ := busStep_write h
    · exact stepEvent_of_regWrite hin hr
    · obtain ⟨hfit, -⟩ := busTarget_eq_buf hk
      exact .other fun hm => Memory.wf_store hm (by rwa [beBytes_length])

theorem stepEvent_of_step {s t : State} (h : step s = .next t) : StepEvent s t := by
  obtain ⟨-, h⟩ | ⟨rest, -, h⟩ | ⟨b, rest, hin, h⟩ | ⟨rest, hin, rfl⟩ := step_cases h
  · exact stepEvent_of_engineStep (inputs := s.inputs) h
  · exact stepEvent_of_engineStep h
  · exact stepEvent_of_busStep hin h
  · obtain ⟨d, o, hr⟩ := resetEvent_eq { s with inputs := rest }
    rw [hr]
    exact .reset hin

/-! ### The invariant -/

/-- R47: the buffer holds nothing, there is no view, and no flag is set. -/
theorem inv_reset (c : Config) : Inv c State.reset :=
  ⟨Memory.wf_nil _, by simp [State.reset], fun _ => ⟨rfl, rfl, rfl, rfl⟩, by simp [State.reset, State.busy],
    by simp [State.reset], rfl⟩

/-- The commands on the hardware's own configuration (R9), which is a legal one. -/
theorem exec_keeps_inv {i : Instr} {s t : State} (h : Inv Config.hw s) (hexec : exec i s = .next t) :
    Inv Config.hw t := by
  have hkeeps : ∃ t', exec i s = .next t' ∧ Inv Config.hw t' := by
    cases i with
    | scan => exact scanOn_keeps_inv (by decide) h
    | csum => exact csumOn_keeps_inv h
    | splice => exact spliceOn_keeps_inv (by decide) h
    | send => exact sendOn_keeps_inv h _
  obtain ⟨t', ht', hinv⟩ := hkeeps
  cases ht'.symm.trans hexec
  exact hinv

theorem Inv.withInputs {c : Config} {s : State} (h : Inv c s) (inputs : List Input) :
    Inv c { s with inputs := inputs } := h

/-- R84: accepting a command clears the flags of the one before. -/
theorem Inv.acceptCmd {c : Config} {s : State} (h : Inv c s) (w : Word) : Inv c (s.acceptCmd w) := by
  obtain ⟨hmem, hview, hunset, -, -, htx⟩ := h
  exact ⟨hmem, hview, hunset, fun _ => ⟨rfl, rfl, rfl⟩, by simp, htx⟩

/-- R28: a write to `STATUS` cannot set `DONE`. -/
theorem Inv.writeStatus {c : Config} {s : State} (h : Inv c s) (v : Word) : Inv c (s.writeStatus v) := by
  obtain ⟨hmem, hview, hunset, hbusy, herr, htx⟩ := h
  refine ⟨hmem, hview, hunset, fun hb => ?_, herr, htx⟩
  obtain ⟨hdone, hclear⟩ := hbusy hb
  exact ⟨by simp [hdone], hclear⟩

/-- Without a view the range may be anything (R32, R33). -/
theorem Inv.withRange {c : Config} {s : State} (h : Inv c s) (hv : s.viewValid = false) (ro rl m : Word) :
    Inv c { s with rawOffset := ro, rawLength := rl, rxMeta := m } := by
  obtain ⟨hmem, -, hrest⟩ := h
  exact ⟨hmem, fun hn => by simp [hv] at hn, hrest⟩

theorem StepEvent.keeps_inv {s t : State} (ht : StepEvent s t) (h : Inv Config.hw s) : Inv Config.hw t := by
  cases ht with
  | other hmem =>
    obtain ⟨hm, hrest⟩ := h
    exact ⟨hmem hm, hrest⟩
  | statusWrite => exact (h.withInputs _).writeStatus _
  | cmdWrite => exact (h.withInputs _).acceptCmd _
  | frameWrite => exact (h.withInputs _).invalidate.withRange rfl _ _ _
  | ignoredWrite => exact h
  | command _ hexec => exact exec_keeps_inv (h.withInputs _) hexec
  | badCommand => exact (h.withInputs _).complete _
  | reset => exact inv_reset _

/-- Settles O52: the base case of the invariant. -/
theorem invariantHoldsAtReset : Obligations.InvariantHoldsAtReset :=
  inv_reset Config.hw

/-- Settles O53, one event at a time. -/
theorem everyStepKeepsTheInvariant : Obligations.EveryStepKeepsTheInvariant :=
  fun _ _ h hstep => (stepEvent_of_step hstep).keeps_inv h

end Sys2Proof.Machine
end

section
/-! How one step moves each flag of `STATUS` (`10_state.md` R46). -/
namespace Sys2Proof.Machine

/-- R205: how every command that goes on leaves the flags. -/
theorem CompletesOn.flags {s t : State} (h : CompletesOn s t) :
    t.busy = false ∧ t.done = true ∧ t.ovr = s.ovr ∧ (t.err = true ↔ t.errCode ≠ .ok) := by
  obtain ⟨e, mem, ro, rl, vv, ip, udp, pp, pl, cs, sp, tx, d, o, rfl, -⟩ := h
  exact ⟨rfl, rfl, rfl, by simp⟩

/-! ### The rows of R46: a flag keeps its value, or one of its events gives it a new one -/

theorem StepEvent.busy_cases {s t : State} (h : StepEvent s t) :
    t.busy = s.busy
    ∨ (∃ v rest, s.inputs = .bus (.write 0x0C 4 v) :: rest ∧ t.phase = .busy v)
    ∨ (t.busy = false ∧ t.done = true)
    ∨ ((∃ rest, s.inputs = .rst :: rest) ∧ t.busy = false) := by
  cases h with
  | other | statusWrite | frameWrite | ignoredWrite => exact .inl rfl
  | cmdWrite _ hin => exact .inr (.inl ⟨_, _, hin, rfl⟩)
  | command _ hexec =>
    obtain ⟨hbusy, hdone, -⟩ := (exec_completes hexec).flags
    exact .inr (.inr (.inl ⟨hbusy, hdone⟩))
  | badCommand => exact .inr (.inr (.inl ⟨rfl, rfl⟩))
  | reset hin => exact .inr (.inr (.inr ⟨⟨_, hin⟩, rfl⟩))

theorem StepEvent.done_cases {s t : State} (h : StepEvent s t) :
    t.done = s.done
    ∨ (∃ v rest, s.inputs = .bus (.write 0x08 4 v) :: rest ∧ t.done = (s.done && !v.getLsbD 1))
    ∨ ((s.busy = false ∧ ∃ v rest, s.inputs = .bus (.write 0x0C 4 v) :: rest) ∧ t.done = false)
    ∨ (s.busy = true ∧ t.busy = false ∧ t.done = true)
    ∨ ((∃ rest, s.inputs = .rst :: rest) ∧ t.done = false) := by
  cases h with
  | other | frameWrite | ignoredWrite => exact .inl rfl
  | statusWrite hin => exact .inr (.inl ⟨_, _, hin, rfl⟩)
  | cmdWrite hidle hin => exact .inr (.inr (.inl ⟨⟨hidle, _, _, hin⟩, rfl⟩))
  | command hphase hexec =>
    obtain ⟨hbusy, hdone, -⟩ := (exec_completes hexec).flags
    exact .inr (.inr (.inr (.inl ⟨State.busy_of_phase hphase, hbusy, hdone⟩)))
  | badCommand hbusy => exact .inr (.inr (.inr (.inl ⟨hbusy, rfl, rfl⟩)))
  | reset hin => exact .inr (.inr (.inr (.inr ⟨⟨_, hin⟩, rfl⟩)))

theorem StepEvent.err_cases {s t : State} (h : StepEvent s t) :
    t.err = s.err
    ∨ ((s.busy = false ∧ ∃ v rest, s.inputs = .bus (.write 0x0C 4 v) :: rest) ∧ t.err = false)
    ∨ (s.busy = true ∧ t.busy = false ∧ (t.err = true ↔ t.errCode ≠ .ok))
    ∨ ((∃ rest, s.inputs = .rst :: rest) ∧ t.err = false) := by
  cases h with
  | other | statusWrite | frameWrite | ignoredWrite => exact .inl rfl
  | cmdWrite hidle hin => exact .inr (.inl ⟨⟨hidle, _, _, hin⟩, rfl⟩)
  | command hphase hexec =>
    obtain ⟨hbusy, -, -, herr⟩ := (exec_completes hexec).flags
    exact .inr (.inr (.inl ⟨State.busy_of_phase hphase, hbusy, herr⟩))
  | badCommand hbusy => exact .inr (.inr (.inl ⟨hbusy, rfl, by simp⟩))
  | reset hin => exact .inr (.inr (.inr ⟨⟨_, hin⟩, rfl⟩))

theorem StepEvent.viewValid_cases {s t : State} (h : StepEvent s t) :
    t.viewValid = s.viewValid
    ∨ ((s.busy = false ∧ ∃ a v rest, a ∈ ([0x18, 0x1C, 0x20] : List HostAddr)
          ∧ s.inputs = .bus (.write a 4 v) :: rest) ∧ t.viewValid = false)
    ∨ (s.phase = .busy 0x00000001 ∧ t.busy = false
        ∧ ((t.viewValid = true ∧ t.errCode = .ok) ∨ (t.viewValid = false ∧ t.errCode ≠ .ok)))
    ∨ ((∃ rest, s.inputs = .rst :: rest) ∧ t.viewValid = false) := by
  cases h with
  | other | statusWrite | cmdWrite | ignoredWrite | badCommand => exact .inl rfl
  | frameWrite hidle ha hin => exact .inr (.inl ⟨⟨hidle, _, _, _, ha, hin⟩, rfl⟩)
  | @command i inputs t hphase hexec =>
    by_cases hscan : i = .scan
    · subst hscan
      obtain ⟨hbusy, -⟩ := (exec_completes hexec).flags
      exact .inr (.inr (.inl ⟨hphase, hbusy, scanOn_view hexec⟩))
    · exact .inl (exec_viewValid (s := { s with inputs := inputs }) hexec hscan)
  | reset hin => exact .inr (.inr (.inr ⟨⟨_, hin⟩, rfl⟩))

theorem StepEvent.ovr_cases {s t : State} (h : StepEvent s t) :
    t.ovr = s.ovr
    ∨ (∃ v rest, s.inputs = .bus (.write 0x08 4 v) :: rest ∧ t.ovr = (s.ovr && !v.getLsbD 4))
    ∨ ((s.busy = true ∧ ∃ a v rest, a ∈ busyGuarded ∧ s.inputs = .bus (.write a 4 v) :: rest) ∧ t.ovr = true)
    ∨ ((∃ rest, s.inputs = .rst :: rest) ∧ t.ovr = false) := by
  cases h with
  | other | cmdWrite | frameWrite | badCommand => exact .inl rfl
  | statusWrite hin => exact .inr (.inl ⟨_, _, hin, rfl⟩)
  | ignoredWrite hbusy ha hin => exact .inr (.inr (.inl ⟨⟨hbusy, _, _, _, ha, hin⟩, rfl⟩))
  | command _ hexec =>
    obtain ⟨-, -, hovr, -⟩ := (exec_completes hexec).flags
    exact .inl hovr
  | reset hin => exact .inr (.inr (.inr ⟨⟨_, hin⟩, rfl⟩))

/-! ### The two columns of R46 -/

/-- Settles O25: the events of each row that can leave the flag set. -/
theorem flagsAreSetOnlyByTheirEvents : Obligations.FlagsAreSetOnlyByTheirEvents := by
  intro s t hstep
  have hev := stepEvent_of_step hstep
  refine ⟨fun h0 h1 => ?_, fun h0 h1 => ?_, fun h0 h1 => ?_, fun h0 h1 => ?_, fun h0 h1 => ?_⟩
  · obtain h | hcmd | ⟨h, -⟩ | ⟨-, h⟩ := hev.busy_cases
    · simp [h0, h1] at h
    · exact hcmd
    · simp [h1] at h
    · simp [h1] at h
  · obtain h | ⟨v, rest, -, h⟩ | ⟨-, h⟩ | ⟨hb, hb', -⟩ | ⟨-, h⟩ := hev.done_cases
    · simp [h0, h1] at h
    · simp [h0, h1] at h
    · simp [h1] at h
    · exact ⟨hb, hb'⟩
    · simp [h1] at h
  · obtain h | ⟨-, h⟩ | ⟨hb, hb', herr⟩ | ⟨-, h⟩ := hev.err_cases
    · simp [h0, h1] at h
    · simp [h1] at h
    · exact ⟨hb, hb', herr.mp h1⟩
    · simp [h1] at h
  · obtain h | ⟨-, h⟩ | ⟨hb, hb', ⟨-, hok⟩ | ⟨h, -⟩⟩ | ⟨-, h⟩ := hev.viewValid_cases
    · simp [h0, h1] at h
    · simp [h1] at h
    · exact ⟨hb, hb', hok⟩
    · simp [h1] at h
    · simp [h1] at h
  · obtain h | ⟨v, rest, -, h⟩ | ⟨hguard, -⟩ | ⟨-, h⟩ := hev.ovr_cases
    · simp [h0, h1] at h
    · simp [h0, h1] at h
    · exact hguard
    · simp [h1] at h

/-- Settles O26: the events of each row that can leave the flag clear. -/
theorem flagsAreClearedOnlyByTheirEvents : Obligations.FlagsAreClearedOnlyByTheirEvents := by
  intro s t hstep
  have hev := stepEvent_of_step hstep
  refine ⟨fun h1 h0 => ?_, fun h1 h0 => ?_, fun h1 h0 => ?_, fun h1 h0 => ?_⟩
  · obtain h | ⟨v, rest, -, h⟩ | ⟨-, h⟩ | ⟨hrst, -⟩ := hev.busy_cases
    · simp [h0, h1] at h
    · simp [State.busy_of_phase h] at h0
    · exact .inl h
    · exact .inr hrst
  · obtain h | ⟨v, rest, hin, h⟩ | ⟨hcmd, -⟩ | ⟨-, -, h⟩ | ⟨hrst, -⟩ := hev.done_cases
    · simp [h0, h1] at h
    · exact .inl ⟨v, rest, hin, by simpa [h1, h0] using h⟩
    · exact .inr (.inl hcmd)
    · simp [h0] at h
    · exact .inr (.inr hrst)
  · obtain h | ⟨hcmd, -⟩ | ⟨hb, hb', herr⟩ | ⟨hrst, -⟩ := hev.err_cases
    · simp [h0, h1] at h
    · exact .inl hcmd
    · exact .inr (.inl ⟨hb, hb', by simpa [h0] using herr⟩)
    · exact .inr (.inr hrst)
  · obtain h | ⟨hframe, -⟩ | ⟨hscan, hb, ⟨h, -⟩ | ⟨-, hne⟩⟩ | ⟨hrst, -⟩ := hev.viewValid_cases
    · simp [h0, h1] at h
    · exact .inl hframe
    · simp [h0] at h
    · exact .inr (.inl ⟨hscan, hb, hne⟩)
    · exact .inr (.inr hrst)

/-- R41: `OVR` is sticky. -/
theorem ovr_cleared_by_status_write_or_reset {s t : State} (hstep : step s = .next t) (h1 : s.ovr = true)
    (h0 : t.ovr = false) :
    (∃ v rest, s.inputs = .bus (.write 0x08 4 v) :: rest ∧ v.getLsbD 4 = true) ∨ ∃ rest, s.inputs = .rst :: rest := by
  obtain h | ⟨v, rest, hin, h⟩ | ⟨-, h⟩ | ⟨hrst, -⟩ := (stepEvent_of_step hstep).ovr_cases
  · simp [h0, h1] at h
  · exact .inl ⟨v, rest, hin, by simpa [h1, h0] using h⟩
  · simp [h0] at h
  · exact .inr hrst

end Sys2Proof.Machine
end

section
/-! The host's register accesses (`10_state.md` R24 to R41), the layout of `STATUS` (R27) and the reset state (R47). -/
namespace Sys2Proof.Machine

/-! ### The register map (R39) -/

theorem regAt_eq_reserved {o : Nat} (h : 0x3C ≤ o) : regAt o = .reserved := by
  unfold regAt
  split
  case h_16 => rfl
  all_goals omega

/-! ### A register read, and a register write, by the host -/

/-- R64, R67: a read that is exact answers the register's value and leaves the CSE as it is. -/
theorem State.readsAs_of_exact (s : State) {a : HostAddr} (ha : a.toNat ≤ 0xFC ∧ a.toNat % 4 = 0)
    (hexact : s.busy = false ∨ (regAt a.toNat).exactWhileBusy = true) :
    s.ReadsAs a (s.regValue Config.hw (regAt a.toNat)) := by
  have hread : s.regRead Config.hw (regAt a.toNat) = (s.regValue Config.hw (regAt a.toNat), s) := by
    obtain h | h := hexact <;> simp [State.regRead, h]
  rw [State.ReadsAs, step_withBus, busStep, busTarget_reg _ ⟨ha.1, ha.2, rfl⟩]
  simp only [hread]
  rfl

theorem State.readsAs_of_idle {s : State} (h : s.busy = false) (r : Reg) :
    s.ReadsAs (BitVec.ofNat 18 r.offset) (s.regValue Config.hw r) := by
  cases r <;> exact s.readsAs_of_exact (by decide) (.inl h)

theorem State.writeLeadsTo_regWrite (s : State) {a : HostAddr} (ha : a.toNat ≤ 0xFC ∧ a.toNat % 4 = 0) (v : Word) :
    s.WriteLeadsTo a v (s.regWrite (regAt a.toNat) v) := by
  rw [State.WriteLeadsTo, step_withBus, busStep, busTarget_reg _ ⟨ha.1, ha.2, rfl⟩]

theorem State.writeLeadsTo_reg (s : State) (r : Reg) (v : Word) :
    s.WriteLeadsTo (BitVec.ofNat 18 r.offset) v (s.regWrite r v) := by
  cases r <;> exact s.writeLeadsTo_regWrite (by decide) v

@[simp] theorem State.idleWrite_of_idle {s : State} (h : s.busy = false) (t : State) : s.idleWrite t = t := by
  simp [State.idleWrite, h]

@[simp] theorem State.idleWrite_of_busy {s : State} (h : s.busy = true) (t : State) :
    s.idleWrite t = s.ignoredWrite := by
  simp [State.idleWrite, h]

/-- R41: the six guarded registers. -/
theorem State.writeLeadsTo_guarded {s : State} (h : s.busy = true) {a : HostAddr} (ha : a ∈ busyGuarded) (v : Word) :
    s.WriteLeadsTo a v s.ignoredWrite := by
  have hw : ∀ r t, s.regWrite r v = s.idleWrite t → s.WriteLeadsTo (BitVec.ofNat 18 r.offset) v s.ignoredWrite :=
    fun r t hr => by simpa [hr, h] using s.writeLeadsTo_reg r v
  simp only [busyGuarded, List.mem_cons, List.not_mem_nil, or_false] at ha
  obtain rfl | rfl | rfl | rfl | rfl | rfl := ha
  · exact hw .cmd _ rfl
  · exact hw .arg0 _ rfl
  · exact hw .arg1 _ rfl
  · exact hw .rawOffset _ rfl
  · exact hw .rawLength _ rfl
  · exact hw .rxMeta _ rfl

/-- R40: the seven read-only registers. -/
theorem State.writeLeadsTo_readOnly (s : State) {a : HostAddr} (ha : a ∈ readOnly) (v : Word) :
    s.WriteLeadsTo a v s := by
  simp only [readOnly, List.mem_cons, List.not_mem_nil, or_false] at ha
  obtain rfl | rfl | rfl | rfl | rfl | rfl | rfl := ha
  · exact s.writeLeadsTo_reg .capacity v
  · exact s.writeLeadsTo_reg .ip6Pos v
  · exact s.writeLeadsTo_reg .udpPos v
  · exact s.writeLeadsTo_reg .payloadPos v
  · exact s.writeLeadsTo_reg .payloadLen v
  · exact s.writeLeadsTo_reg .csum v
  · exact s.writeLeadsTo_reg .splicePos v

/-! ### The words `CTRL` and `STATUS` read as (R26, R27) -/

theorem State.ctrlWord_eq (s : State) : s.ctrlWord = if s.ie then 1 else 0 := by
  cases h : s.ie <;> simp [State.ctrlWord, flagBit, h]

/-- Only bit 0 of `CTRL` has storage (R40). -/
theorem State.ctrlWord_writeCtrl (s : State) (v : Word) : (s.writeCtrl v).ctrlWord = v &&& 1 := by
  refine Eq.trans ?_ BitVec.and_one_eq_setWidth_ofBool_getLsbD.symm
  rw [State.ctrlWord_eq, State.writeCtrl_ie]
  cases v.getLsbD 0 <;> rfl

/-- Appending one flag on the right. -/
theorem getLsbD_append_flagBit {w : Nat} (x : BitVec w) (f : Bool) (i : Nat) :
    (x ++ flagBit f).getLsbD i = if i = 0 then f else x.getLsbD (i - 1) := by
  rw [BitVec.getLsbD_append, flagBit]
  cases i <;> simp

/-- A field between zeros. -/
theorem getLsbD_zero_append_append_zero {w : Nat} (a b : Nat) (x : BitVec w) (i : Nat) :
    (0#a ++ x ++ 0#b).getLsbD i = (decide (b ≤ i) && x.getLsbD (i - b)) := by
  rw [BitVec.getLsbD_append, BitVec.getLsbD_append]
  by_cases hb : i < b
  · simp [hb, Nat.not_le.mpr hb]
  · by_cases hw : i - b < w
    · simp [hb, hw, Nat.not_lt.mp hb]
    · simp [hb, hw, BitVec.getLsbD_of_ge x (i - b) (Nat.not_lt.mp hw)]

theorem State.getLsbD_statusWord (s : State) (i : Nat) :
    s.statusWord.getLsbD i =
      match i with
      | 0 => s.busy
      | 1 => s.done
      | 2 => s.err
      | 3 => s.viewValid
      | 4 => s.ovr
      | i + 5 => decide (3 ≤ i) && s.errCode.code.getLsbD (i - 3) := by
  refine (getLsbD_append_flagBit _ _ _).trans ?_
  simp only [getLsbD_append_flagBit]
  match i with
  | 0 | 1 | 2 | 3 | 4 => rfl
  | i + 5 => exact getLsbD_zero_append_append_zero 16 3 s.errCode.code i

theorem State.extractLsb'_statusWord_errCode (s : State) : s.statusWord.extractLsb' 8 8 = s.errCode.code := by
  ext i hi
  rw [BitVec.getElem_extractLsb', State.getLsbD_statusWord, show 8 + i = i + 3 + 5 by omega]
  simp [hi]

/-- R27: the reserved bits 7..5 and 31..16 read 0. -/
theorem State.getLsbD_statusWord_reserved (s : State) {i : Nat} (h : (5 ≤ i ∧ i < 8) ∨ 16 ≤ i) :
    s.statusWord.getLsbD i = false := by
  obtain ⟨k, rfl⟩ : ∃ k, i = k + 5 := ⟨i - 5, by omega⟩
  simp only [State.getLsbD_statusWord, Bool.and_eq_false_iff, decide_eq_false_iff_not]
  obtain h | h := h
  · exact .inl (by omega)
  · exact .inr (BitVec.getLsbD_of_ge _ _ (by omega))

theorem State.extractLsb'_statusWord_reserved (s : State) :
    s.statusWord.extractLsb' 5 3 = 0 ∧ s.statusWord.extractLsb' 16 16 = 0 := by
  constructor
  all_goals
    ext i hi
    rw [BitVec.getElem_extractLsb', s.getLsbD_statusWord_reserved (by omega)]
    simp

theorem State.statusWord_and_reserved (s : State) : s.statusWord &&& 0xFFFF00E0 = 0 := by
  apply BitVec.eq_of_getLsbD_eq
  intro i hi
  have hmask : ∀ j < 32, (0xFFFF00E0 : Word).getLsbD j = true → (5 ≤ j ∧ j < 8) ∨ 16 ≤ j := by decide
  rw [BitVec.getLsbD_and]
  cases hm : (0xFFFF00E0 : Word).getLsbD i with
  | false => simp
  | true => simp [s.getLsbD_statusWord_reserved (hmask i hi hm)]

/-! ### The obligations -/

/-- Settles O8, register by register. -/
theorem registersReadTheirValuesWhileIdle : Obligations.RegistersReadTheirValuesWhileIdle := by
  intro s hidle
  have hr := State.readsAs_of_idle hidle
  exact ⟨hr .capacity, s.ctrlWord_eq ▸ hr .ctrl, hr .status, hr .cmd, hr .arg0, hr .arg1, hr .rawOffset, hr .rawLength,
    hr .rxMeta, hr .ip6Pos, hr .udpPos, hr .payloadPos, hr .payloadLen, hr .csum, hr .splicePos⟩

/-- Settles O9: each flag is one bit of `getLsbD_statusWord`. -/
theorem statusWordLayout : Obligations.StatusWordLayout :=
  ⟨fun s => ⟨s.getLsbD_statusWord 0, s.getLsbD_statusWord 1, s.getLsbD_statusWord 2, s.getLsbD_statusWord 3,
      s.getLsbD_statusWord 4, s.extractLsb'_statusWord_errCode, s.extractLsb'_statusWord_reserved⟩,
    rfl, rfl, rfl, rfl, rfl, rfl, rfl, rfl, rfl, rfl, rfl, rfl, rfl, rfl, rfl, rfl, rfl⟩

/-- Settles O11: every offset from 0x3C on is reserved, and reads of it are exact busy or not. -/
theorem reservedOffsetsReadZeroIgnoreWrites : Obligations.ReservedOffsetsReadZeroIgnoreWrites := by
  intro s a hlo hhi hal
  have hres := regAt_eq_reserved hlo
  have hread := s.readsAs_of_exact ⟨hhi, hal⟩ (.inr (by rw [hres]; rfl))
  have hwrite := s.writeLeadsTo_regWrite ⟨hhi, hal⟩
  rw [hres] at hread
  simp only [hres] at hwrite
  exact ⟨hread, hwrite⟩

/-- Settles O12: the read-only registers one by one, the reserved bits by the words `CTRL` and `STATUS` read as. -/
theorem readOnlyRegistersIgnoreWrites : Obligations.ReadOnlyRegistersIgnoreWrites :=
  fun s v => ⟨fun _ ha => s.writeLeadsTo_readOnly ha v,
    ⟨s.writeCtrl v, s.writeLeadsTo_reg .ctrl v, s.ctrlWord_writeCtrl v⟩,
    ⟨s.writeStatus v, s.writeLeadsTo_reg .status v, State.statusWord_and_reserved _⟩⟩

/-- Settles O13: clearing by a 1 is the conjunction with its complement. -/
theorem statusWriteClearsDoneAndOvr : Obligations.StatusWriteClearsDoneAndOvr := by
  intro s v
  have hclear : ∀ f b : Bool, (if b then false else f) = (f && !b) := by decide
  simp only [hclear]
  exact s.writeLeadsTo_reg .status v

/-- Settles O14, register by register. -/
theorem registerWritesWhileIdle : Obligations.RegisterWritesWhileIdle := by
  intro s v hidle
  have hw : ∀ r t, s.regWrite r v = s.idleWrite t → s.WriteLeadsTo (BitVec.ofNat 18 r.offset) v t :=
    fun r t hr => by simpa [hr, hidle] using s.writeLeadsTo_reg r v
  exact ⟨s.writeLeadsTo_reg .ctrl v, hw .cmd _ rfl, hw .arg0 _ rfl, hw .arg1 _ rfl, hw .rawOffset _ rfl,
    hw .rawLength _ rfl, hw .rxMeta _ rfl⟩

/-- Settles O15: the writes while busy, and that `OVR` is sticky in every step. -/
theorem ignoredWritesSetStickyOvr : Obligations.IgnoredWritesSetStickyOvr :=
  ⟨fun s hbusy => ⟨fun _ ha => s.writeLeadsTo_guarded hbusy ha, s.writeLeadsTo_reg .ctrl, s.writeLeadsTo_reg .status⟩,
    fun _ _ => ovr_cleared_by_status_write_or_reset⟩

/-- Settles O20: each field by the definition of the reset state, `CAPACITY` by a read. -/
theorem resetState : Obligations.ResetState :=
  ⟨rfl, rfl, rfl, rfl, rfl, rfl, rfl, rfl, rfl, rfl, rfl, rfl, rfl, rfl, rfl, rfl, rfl, rfl, rfl,
    State.readsAs_of_idle rfl .capacity, rfl, rfl, Memory.byteAt_nil⟩

/-- An idle engine has nothing to do (R43). -/
theorem engineStep_of_idle {s : State} (h : s.busy = false) : engineStep s = .next s := by
  simp [engineStep, (State.not_busy_iff s).mp h]

/-- Settles O5: with no input or the engine's turn a step is the idle engine's. -/
theorem idleEngineWaits : Obligations.IdleEngineWaits := by
  intro s
  refine ⟨fun hidle => engineStep_of_idle hidle, fun hidle hin => ?_, step_withBus s⟩
  rw [step, hin]
  exact engineStep_of_idle hidle

end Sys2Proof.Machine
end

section
/-! The host's transactions on the buffer window and on the registers of a busy engine (`20_memory.md` R61 to R68). -/
namespace Sys2Proof.Machine

/-! ### Reads and writes of the buffer window -/

/-- R61: a legal access above `BUF_BASE` reads the buffer at its index. -/
theorem step_bufRead (s : State) {a : HostAddr} {n : Nat} (hbuf : 0x20000 ≤ a.toNat) (h : legalAccess a n) :
    step (s.withBus (.read a n)) =
      .next ((s.bufRead (a.toNat - 0x20000) n).2.observe (.read (s.bufRead (a.toNat - 0x20000) n).1)) := by
  rw [step_withBus, busStep, busTarget_buf hbuf h]

theorem step_bufWrite (s : State) {a : HostAddr} {n : Nat} (hbuf : 0x20000 ≤ a.toNat) (h : legalAccess a n)
    (d : Word) : step (s.withBus (.write a n d)) = s.bufWrite (a.toNat - 0x20000) n d := by
  rw [step_withBus, busStep, busTarget_buf hbuf h]

@[simp] theorem State.bufRead_of_busy {s : State} (h : s.busy = true) (i n : Nat) : s.bufRead i n = s.drawWord := by
  simp [State.bufRead, h]

@[simp] theorem State.bufRead_of_idle {s : State} (h : s.busy = false) (i n : Nat) :
    s.bufRead i n = (BitVec.ofNat 32 (s.memRead i n).1, (s.memRead i n).2) := by
  simp [State.bufRead, h]

@[simp] theorem State.bufWrite_of_busy {s : State} (h : s.busy = true) (i n : Nat) (d : Word) :
    s.bufWrite i n d = .fault .bufferWriteWhileBusy := by
  simp [State.bufWrite, h]

@[simp] theorem State.bufWrite_of_idle {s : State} (h : s.busy = false) (i n : Nat) (d : Word) :
    s.bufWrite i n d = .next (s.memWrite i n d.toNat) := by
  simp [State.bufWrite, h]

/-- R62: while idle the host reads what `MemRead` answers, and only draws are counted. -/
theorem step_bufRead_of_idle {s : State} (hidle : s.busy = false) {a : HostAddr} {n : Nat}
    (hbuf : 0x20000 ≤ a.toNat) (h : legalAccess a n) :
    step (s.withBus (.read a n)) = .next
      { s with
        draws := (s.memRead (a.toNat - 0x20000) n).2.draws
        obs := .read (BitVec.ofNat 32 (s.memRead (a.toNat - 0x20000) n).1) :: s.obs } := by
  rw [step_bufRead s hbuf h, State.bufRead_of_idle hidle]
  rfl

/-- R68: while busy the host reads a free value. -/
theorem step_bufRead_of_busy {s : State} (hbusy : s.busy = true) {a : HostAddr} {n : Nat}
    (hbuf : 0x20000 ≤ a.toNat) (h : legalAccess a n) :
    step (s.withBus (.read a n)) =
      .next { s with draws := s.draws + 1, obs := .read (Config.freeWord s.draws) :: s.obs } := by
  rw [step_bufRead s hbuf h, State.bufRead_of_busy hbusy]
  rfl

/-! ### The bytes of a written word (R65) -/

/-- Byte `k` of a word, counted from the low end. -/
theorem ofNat_toNat_div_pow (d : Word) (k : Nat) : BitVec.ofNat 8 (d.toNat / 256 ^ k) = d.extractLsb' (8 * k) 8 := by
  apply BitVec.eq_of_toNat_eq
  rw [BitVec.toNat_ofNat, BitVec.extractLsb'_toNat, Nat.shiftRight_eq_div_pow, Nat.pow_mul]

theorem beBytes_getElem? {n k : Nat} (v : Nat) (hk : k < n) :
    (beBytes n v)[k]? = some (BitVec.ofNat 8 (v / 256 ^ (n - 1 - k))) := by
  induction n generalizing k with
  | zero => omega
  | succ n ih =>
    cases k with
    | zero => rfl
    | succ k =>
      rw [beBytes, List.getElem?_cons_succ, ih (by omega), show n + 1 - 1 - (k + 1) = n - 1 - k by omega]

/-- `MemWrite` of a word's low bytes, byte by byte. -/
theorem Memory.byteAt_store_word (m : Memory) (i n : Nat) (d : Word) (j : Nat) :
    (m.store i (beBytes n d.toNat)).byteAt j =
      if i ≤ j ∧ j < i + n then some (d.extractLsb' (8 * (n - 1 - (j - i))) 8) else m.byteAt j := by
  rw [Memory.byteAt_store, beBytes_length]
  split
  · rw [beBytes_getElem? _ (by omega), ofNat_toNat_div_pow]
  · rfl

/-! ### A register read while busy (R68) -/

theorem step_regRead_of_busy {s : State} (hbusy : s.busy = true) (r : Reg) (hr : r.exactWhileBusy = false) :
    step (s.withBus (.read (BitVec.ofNat 18 r.offset) 4)) =
      .next { s with draws := s.draws + 1, obs := .read (Config.freeWord s.draws) :: s.obs } := by
  have htarget : busTarget Config.hw (BitVec.ofNat 18 r.offset) 4 = some (.reg r) := by cases r <;> decide
  have hread : s.regRead Config.hw r = s.drawWord := by simp [State.regRead, hbusy, hr]
  rw [step_withBus, busStep, htarget]
  simp only [hread]
  rfl

/-! ### Bus errors (R64) -/

/-- A transaction that reaches something goes on, or is R68's fault. -/
theorem busStep_eq_busError_iff (c : Config) (t : BusOp) (s : State) :
    busStep c t s = .fault .busError ↔ busTarget c t.addr t.width = none := by
  cases t with
  | read a n =>
    rcases h : busTarget c a n with _ | (r | ⟨i, k⟩) <;> simp [busStep, BusOp.addr, BusOp.width, h]
  | write a n d =>
    have hbuf : ∀ i k, s.bufWrite i k d ≠ .fault .busError := fun i k => by cases hb : s.busy <;> simp [hb]
    rcases h : busTarget c a n with _ | (r | ⟨i, k⟩) <;> simp [busStep, BusOp.addr, BusOp.width, h, hbuf]

/-! ### `UNSPEC` bytes -/

/-- A read of one `UNSPEC` byte is one draw (R12, I3). -/
theorem State.memRead_unspec {s : State} {i : Nat} (h : s.mem.byteAt i = none) :
    s.memRead i 1 = ((Config.freeByte s.draws).toNat, { s with draws := s.draws + 1 }) := by
  simp [State.memRead, State.readBytes, Memory.readBytes, Memory.readByte, h, beValue]

/-- What `MemRead` answers, with the draws it makes (R12, I3). -/
theorem State.memRead_eq (s : State) (i n : Nat) :
    s.memRead i n =
      (beValue ((List.range n).map (fun k =>
          (s.mem.byteAt (i + k)).getD (Config.freeByte (s.draws + s.mem.unspecCount i k)))),
        { s with draws := s.draws + s.mem.unspecCount i n }) := by
  rw [State.memRead, State.readBytes, Memory.readBytes_eq]

/-! ### The obligations -/

/-- Settles O10: register by register for the free reads, and one rule for each other kind of access. -/
theorem hostAccessesWhileBusy : Obligations.HostAccessesWhileBusy := by
  intro s hbusy
  refine ⟨s.readsAs_of_exact (by decide) (.inr rfl), s.ctrlWord_eq ▸ s.readsAs_of_exact (by decide) (.inr rfl),
    fun a ha => ?_, fun a n h hbuf => ⟨step_bufRead_of_busy hbusy hbuf h, fun d => ?_⟩,
    fun _ ha => s.writeLeadsTo_guarded hbusy ha, s.writeLeadsTo_reg .ctrl, s.writeLeadsTo_reg .status⟩
  · simp only [List.mem_cons, List.not_mem_nil, or_false] at ha
    have hfree := step_regRead_of_busy hbusy
    obtain rfl | rfl | rfl | rfl | rfl | rfl | rfl | rfl | rfl | rfl | rfl | rfl | rfl := ha
    exacts [hfree .capacity rfl, hfree .cmd rfl, hfree .arg0 rfl, hfree .arg1 rfl, hfree .rawOffset rfl,
      hfree .rawLength rfl, hfree .rxMeta rfl, hfree .ip6Pos rfl, hfree .udpPos rfl, hfree .payloadPos rfl,
      hfree .payloadLen rfl, hfree .csum rfl, hfree .splicePos rfl]
  · rw [step_bufWrite s hbuf h, State.bufWrite_of_busy hbusy]

/-- Settles O16: the read is `MemRead`, the write `MemWrite`. -/
theorem bufferWindowAccesses : Obligations.BufferWindowAccesses := by
  intro s a n hidle hbuf h
  have hread := step_bufRead_of_idle hidle hbuf h
  refine ⟨fun bs hbs => ?_, hread, ?_, fun d => ?_⟩
  · rw [hread, State.memRead_of_bytesAt hbs]
  · rw [Nat.pow_mul]
    exact s.memRead_lt _ n
  · refine ⟨s.mem.store (a.toNat - 0x20000) (beBytes n d.toNat), ?_, s.mem.byteAt_store_word _ n d⟩
    rw [step_bufWrite s hbuf h, State.bufWrite_of_idle hidle]
    rfl

/-- Settles O18: an access is a bus error when it reaches nothing, which is when it is not legal. -/
theorem busErrorsAreTheIllegalTransactions : Obligations.BusErrorsAreTheIllegalTransactions := by
  intro s t
  rw [step_withBus, busStep_eq_busError_iff, ← busTarget_isSome, Option.not_isSome_iff_eq_none]

/-- Settles O19: the record update of `busStep_read` keeps every other field. -/
theorem hostReadsHaveNoSideEffect : Obligations.HostReadsHaveNoSideEffect := by
  intro s t a n h
  obtain ⟨d, v, rfl⟩ := busStep_read (step_withBus s _ ▸ h)
  exact ⟨rfl, v, rfl⟩

/-- Settles O58: `memRead_eq` for every width, and one `UNSPEC` byte by itself. -/
theorem bufferReadsDrawUnspecifiedBytes : Obligations.BufferReadsDrawUnspecifiedBytes := by
  intro s a n hidle hbuf h
  have hread := step_bufRead_of_idle hidle hbuf h
  refine ⟨by rw [hread, State.memRead_eq], ?_⟩
  rintro rfl hnone
  rw [hread, State.memRead_unspec hnone, BitVec.ofNat_toNat]

end Sys2Proof.Machine
end

section
/-! The command words (`30_encoding.md` R80 to R85), and the engine's turn that ends an accepted one
(`70_reset_and_hazards.md` R241). -/
namespace Sys2Proof.Machine

/-! ### The decoder (R80 to R82) -/

@[simp] theorem decode_encode (i : Instr) : decode (encode i) = .ok i := by
  cases i <;> decide

/-- R81, R82: a command has one word. -/
theorem decode_eq_ok_iff {w : Word} {i : Instr} : decode w = .ok i ↔ w = encode i :=
  ⟨fun h => (encode_of_decode h).symm, fun h => h ▸ decode_encode i⟩

/-- R85: a word is illegal when it is the word of no command. -/
theorem exists_decode_eq_error_iff (w : Word) :
    (∃ e, decode w = .error e) ↔ w ≠ encode .scan ∧ w ≠ encode .csum ∧ w ≠ encode .splice ∧ w ≠ encode .send := by
  simp only [ne_eq, ← decode_eq_ok_iff]
  cases decode w with
  | error e => simp
  | ok i => cases i <;> simp

/-- A table word that decodes fits the command word and is decoded as one (R80). -/
theorem decode_of_decodeTableWord {nbits w : Nat} {i : Instr} (h : decodeTableWord nbits w = some i) :
    decode (BitVec.ofNat 32 (w % 2 ^ nbits)) = .ok i := by
  unfold decodeTableWord at h
  split at h
  · split at h <;> cases h
    assumption
  · cases h

/-! ### The engine's turn (R84, R85) -/

theorem step_of_inputs_nil {s : State} (h : s.inputs = []) : step s = engineStep s := by
  simp only [step, h]

theorem step_of_inputs_engine {s : State} {rest : List Input} (h : s.inputs = .engine :: rest) :
    step s = engineStep { s with inputs := rest } := by
  simp only [step, h]

theorem engineStep_of_command {s : State} {w : Word} {i : Instr} (hphase : s.phase = .busy w)
    (hdecode : decode w = .ok i) : engineStep s = exec i s := by
  simp only [engineStep, hphase, hdecode]

/-- R85: an illegal word ends as BAD_CMD. -/
theorem engineStep_of_illegal {s : State} {w : Word} {e : BadWord} (hphase : s.phase = .busy w)
    (hdecode : decode w = .error e) : engineStep s = .next (s.complete .badCmd) := by
  simp only [engineStep, hphase, hdecode]
  rfl

/-- R69: where the invariant holds no command leaves the buffer, so each one goes on. -/
theorem exists_exec_eq_next {s : State} (h : Inv Config.hw s) (i : Instr) : ∃ t, exec i s = .next t := by
  obtain ⟨hscan, hcsum, hsplice, hsend⟩ := commandsKeepTheInvariantOnEveryConfiguration Config.hw s (by decide) h
  cases i with
  | scan => exact hscan.imp fun _ => And.left
  | csum => exact hcsum.imp fun _ => And.left
  | splice => exact hsplice.imp fun _ => And.left
  | send => exact (hsend _).imp fun _ => And.left

/-- R84, R205: the turn of a busy engine ends the command, legal or not, and takes no further input. -/
theorem exists_engineStep_of_busy {s : State} {w : Word} (h : Inv Config.hw s) (hphase : s.phase = .busy w) :
    ∃ t, engineStep s = .next t ∧ t.busy = false ∧ t.done = true ∧ t.inputs = s.inputs := by
  cases hdecode : decode w with
  | error e => exact ⟨_, engineStep_of_illegal hphase hdecode, rfl, rfl, rfl⟩
  | ok i =>
    obtain ⟨t, ht⟩ := exists_exec_eq_next h i
    have hcompletes := exec_completes ht
    obtain ⟨hbusy, hdone, -⟩ := hcompletes.flags
    obtain ⟨_, _, _, _, _, _, _, _, _, _, _, _, _, _, rfl, -⟩ := hcompletes
    exact ⟨_, (engineStep_of_command hphase hdecode).trans ht, hbusy, hdone, rfl⟩

/-! ### Polling before the engine's turn (R68, R88) -/

/-- A poll of `STATUS` is exact, busy or not, and only its answer is recorded. -/
theorem step_of_inputs_poll {s : State} {rest : List Input} (h : s.inputs = HostProgram.rd .status :: rest) :
    step s = .next { s with inputs := rest, obs := .read s.statusWord :: s.obs } := by
  simp only [step, h, HostProgram.rd]
  exact State.readsAs_of_exact { s with inputs := rest } (a := 0x08) (by decide) (.inr rfl)

theorem core_run_succ {s t : State} (h : step s = .next t) (k : Nat) :
    Host.Core.run core (k + 1) s = Host.Core.run core k t := by
  simp only [Host.Core.run, Host.Check.core_step, h]

/-! ### The obligations -/

/-- Settles O1: each table word is the word of its command. -/
theorem decodeReadsExactlyTheFourWords : Obligations.DecodeReadsExactlyTheFourWords :=
  fun w => ⟨decode_eq_ok_iff, decode_eq_ok_iff, decode_eq_ok_iff, decode_eq_ok_iff, exists_decode_eq_error_iff w⟩

/-- Settles O7: the turn completes with `badCmd`, whose code and flag the layout of `STATUS` shows. -/
theorem illegalWordCompletesWithBadCmd : Obligations.IllegalWordCompletesWithBadCmd := by
  intro s w hphase h1 h2 h3 h4
  obtain ⟨e, hdecode⟩ := (exists_decode_eq_error_iff w).mpr ⟨h1, h2, h3, h4⟩
  exact ⟨(step_of_inputs_engine rfl).trans (engineStep_of_illegal hphase hdecode),
    State.extractLsb'_statusWord_errCode _, State.getLsbD_statusWord _ 2⟩

/-- Settles O56, by induction on the number of polls. -/
theorem acceptedCommandFinishesAtTheEnginesTurn : Obligations.AcceptedCommandFinishesAtTheEnginesTurn := by
  intro k
  induction k with
  | zero =>
    intro s w rest h hphase hin
    obtain ⟨t, ht, hdone⟩ := exists_engineStep_of_busy (h.withInputs rest) hphase
    exact ⟨t, core_run_succ ((step_of_inputs_engine hin).trans ht) 0, hdone⟩
  | succ k ih =>
    intro s w rest h hphase hin
    rw [core_run_succ (step_of_inputs_poll hin)]
    exact ih _ w rest h hphase rfl

/-- Settles O2, one command at a time. -/
theorem decodeOfEncodeIsTheCommand : Obligations.DecodeOfEncodeIsTheCommand :=
  fun i _ => decode_encode i

/-- Settles O3: six closed words. -/
theorem tableWordsDecode : Obligations.TableWordsDecode := by
  unfold Obligations.TableWordsDecode
  decide

/-- Settles O4: with the engine's turn, or with no input left, a step is the engine's. -/
theorem engineTurnRunsTheDecodedCommand : Obligations.EngineTurnRunsTheDecodedCommand := by
  intro s w i hphase hdecode
  have hexec := engineStep_of_command hphase hdecode
  exact ⟨(step_of_inputs_engine rfl).trans hexec, fun hin => (step_of_inputs_nil hin).trans hexec⟩

/-- Settles O6: the fetched word is accepted and the engine's turn comes next. -/
theorem fetchedWordRunsNext : Obligations.FetchedWordRunsNext :=
  fun s _ _ _ h =>
    (step_of_inputs_engine rfl).trans (engineStep_of_command (s.acceptCmd_phase _) (decode_of_decodeTableWord h))

end Sys2Proof.Machine
end

section
/-! What SCAN does to the frame, the headers it checks and the view it sets (`40_scan.md` R101 to R114). -/
namespace Sys2Proof.Machine

/-! ### The bytes of a moved frame (R12, R105) -/

section MovedFrame

variable {m m' : Memory} {dst src len : Nat}

/-- A byte of the frame keeps its place counted from the frame's start. -/
theorem movedBytes.byteAt_frame (h : movedBytes m m' dst src len) {k : Nat} (hk : k < len) :
    m'.byteAt (dst + k) = m.byteAt (src + k) := by
  rw [h, if_pos (by omega)]
  congr 1
  omega

theorem movedBytes.halfAt_frame (h : movedBytes m m' dst src len) {k : Nat} (hk : k + 2 ≤ len) :
    m'.halfAt (dst + k) = m.halfAt (src + k) :=
  Memory.halfAt_congr (h.byteAt_frame (by omega)) (h.byteAt_frame (k := k + 1) (by omega))

/-- The checksum of a frame does not depend on where the frame stands. -/
theorem movedBytes.checksumAt_frame (h : movedBytes m m' dst src len) {n : Nat} (hn : 48 + n ≤ len) :
    m'.checksumAt dst (dst + 40) n = m.checksumAt src (src + 40) n := by
  have hudp : ∀ k, k < 8 + n → m'.byteAt (dst + 40 + k) = m.byteAt (src + 40 + k) := fun k hk => by
    simpa only [Nat.add_assoc] using h.byteAt_frame (k := 40 + k) (by omega)
  exact Memory.checksumAt_congr (fun k _ hk => h.byteAt_frame (by omega)) (fun k hk => hudp k (by omega))
    (fun k hk => by simpa only [Nat.add_assoc] using hudp (8 + k) (by omega))

end MovedFrame

/-! ### The register checks and the alignment (R102 to R105) -/

theorem rxTags_of_rxMeta {s : State} (h : s.rxMeta = 0x000186DD) :
    s.rxProto = Config.etherTypeIPv6 ∧ s.rxHatype = Config.haTypeEther := by
  rw [State.rxProto, State.rxHatype, h]
  decide

section AlignTarget

variable {c : Config} {ro rl : Nat}

theorem alignTarget_of_aligned (h : (ro + c.l2HdrLen) % 4 = 0) : alignTarget c ro rl = some ro := by
  dsimp only [alignTarget, Config.align]
  rw [if_pos h]

theorem alignTarget_down (h : (ro + c.l2HdrLen) % 4 ≠ 0) (hle : (ro + c.l2HdrLen) % 4 ≤ ro) :
    alignTarget c ro rl = some (ro - (ro + c.l2HdrLen) % 4) := by
  dsimp only [alignTarget, Config.align]
  rw [if_neg h, if_pos hle]

theorem alignTarget_up (h : (ro + c.l2HdrLen) % 4 ≠ 0) (hlt : ro < (ro + c.l2HdrLen) % 4)
    (hfit : ro + (4 - (ro + c.l2HdrLen) % 4) + rl ≤ c.bufCap) :
    alignTarget c ro rl = some (ro + (4 - (ro + c.l2HdrLen) % 4)) := by
  dsimp only [alignTarget, Config.align]
  rw [if_neg h, if_neg (by omega), if_neg (by omega)]

theorem alignTarget_noRoom (h : (ro + c.l2HdrLen) % 4 ≠ 0) (hlt : ro < (ro + c.l2HdrLen) % 4)
    (hfit : c.bufCap < ro + (4 - (ro + c.l2HdrLen) % 4) + rl) : alignTarget c ro rl = none := by
  dsimp only [alignTarget, Config.align]
  rw [if_neg h, if_neg (by omega), if_pos hfit]

end AlignTarget

/-- S0 to S3 done: SCAN has discarded the view and moved the frame to `nro`, where it now stands in `m`. -/
abbrev State.aligned (s : State) (m : Memory) (nro : Nat) : State :=
  { s.invalidate with mem := m, rawOffset := BitVec.ofNat 32 nro }

section PastTheRegisterChecks

variable {c : Config} {s : State}

/-- With the range in the buffer and the right tags only the room for the move is left to check. -/
theorem scanOn_past_tags (hcap : s.rawOffset.toNat + s.rawLength.toNat ≤ c.bufCap) (hmeta : s.rxMeta = 0x000186DD) :
    (alignTarget c s.rawOffset.toNat s.rawLength.toNat = none ∧ scanOn c s = raise s.invalidate .noRoom)
    ∨ ∃ nro, alignTarget c s.rawOffset.toNat s.rawLength.toNat = some nro
      ∧ scanOn c s = scanIp6 c (s.invalidate.shiftTo nro) := by
  obtain ⟨hproto, hhat⟩ := rxTags_of_rxMeta hmeta
  obtain ⟨hout, -⟩ | ⟨-, ⟨hno, -⟩ | ⟨-, hno, -⟩ | ⟨-, -, h⟩⟩ := scanOn_cases c s
  · exact absurd hcap (Nat.not_le.mpr hout)
  · exact absurd hproto hno
  · exact absurd hhat hno
  · exact h

/-- There is room: the headers are read on the moved frame. -/
theorem scanOn_of_alignTarget {nro : Nat} (hlt : nro < 2 ^ 32)
    (hcap : s.rawOffset.toNat + s.rawLength.toNat ≤ c.bufCap) (hmeta : s.rxMeta = 0x000186DD)
    (hn : alignTarget c s.rawOffset.toNat s.rawLength.toNat = some nro) :
    ∃ m, movedBytes s.mem m nro s.rawOffset.toNat s.rawLength.toNat
      ∧ (nro = s.rawOffset.toNat → m = s.mem) ∧ scanOn c s = scanIp6 c (s.aligned m nro) := by
  obtain ⟨hno, -⟩ | ⟨nro', hn', hs⟩ := scanOn_past_tags hcap hmeta
  · cases hn.symm.trans hno
  · cases hn.symm.trans hn'
    obtain ⟨m, hshift, hmoved, hsame, -⟩ := s.invalidate.shiftTo_spec nro hlt
    exact ⟨m, hmoved, hsame, hs.trans (by rw [hshift])⟩

theorem scanOn_noRoom (hcap : s.rawOffset.toNat + s.rawLength.toNat ≤ c.bufCap) (hmeta : s.rxMeta = 0x000186DD)
    (hn : alignTarget c s.rawOffset.toNat s.rawLength.toNat = none) :
    scanOn c s = .next (s.scanFailedWith .noRoom) := by
  obtain ⟨-, hs⟩ | ⟨nro, hn', -⟩ := scanOn_past_tags hcap hmeta
  · exact hs
  · cases hn.symm.trans hn'

end PastTheRegisterChecks

theorem State.alignedOffset_le (s : State) : s.alignedOffset ≤ s.rawOffset.toNat := Nat.sub_le _ _

theorem State.alignedOffset_mod (s : State) : s.alignedOffset % 4 = 0 := by
  rw [State.alignedOffset]
  omega

theorem State.toNat_ofNat_alignedOffset (s : State) : (BitVec.ofNat 32 s.alignedOffset).toNat = s.alignedOffset :=
  Nat.mod_eq_of_lt (Nat.lt_of_le_of_lt s.alignedOffset_le s.rawOffset.isLt)

/-- On this hardware a SCAN that passes the register checks reads the headers of the frame at `alignedOffset`. -/
theorem execScan_of_ready {s : State} (h : s.scanReady) :
    ∃ m, movedBytes s.mem m s.alignedOffset s.rawOffset.toNat s.rawLength.toNat
      ∧ exec .scan s = scanIp6 Config.hw (s.aligned m s.alignedOffset) := by
  obtain ⟨hcap, hmeta⟩ := h
  obtain ⟨m, hmoved, -, hs⟩ := scanOn_of_alignTarget (c := Config.hw)
    (Nat.lt_of_le_of_lt s.alignedOffset_le s.rawOffset.isLt) hcap hmeta (alignTarget_hw _ _)
  exact ⟨m, hmoved, hs⟩

/-! ### The header checks on held bytes (R107 to R111) -/

section HeldHeaders

variable {c : Config} {s : State} {ip plen ulen : Nat}

theorem scanIp6_trunc (h : s.rawLength.toNat < c.l2HdrLen + 40) : scanIp6 c s = raise s .ip6Trunc := by
  dsimp only [scanIp6, Config.ip6HdrLen]
  rw [if_pos h]

theorem scanIp6_plen (hip : s.rawOffset.toNat + c.l2HdrLen = ip) (hlen : c.l2HdrLen + 40 ≤ s.rawLength.toNat)
    (hp : s.mem.halfAt (ip + 4) = some plen) (h : s.rawLength.toNat < c.l2HdrLen + 40 + plen) :
    scanIp6 c s = raise s .ip6Plen := by
  dsimp only [scanIp6, Config.ip6HdrLen]
  rw [if_neg (by omega), hip, State.memRead_half hp, if_pos h]

/-- The IPv6 payload fits: the next header decides. -/
theorem scanIp6_nextHeader {nh : Byte} (hip : s.rawOffset.toNat + c.l2HdrLen = ip)
    (hp : s.mem.halfAt (ip + 4) = some plen) (hfit : c.l2HdrLen + 40 + plen ≤ s.rawLength.toNat)
    (hnh : s.mem.byteAt (ip + 6) = some nh) :
    scanIp6 c s = if nh = 17 then scanUdp ip plen s else raise s .notUdp := by
  have hiff : nh.toNat = 17 ↔ nh = 17 := BitVec.toNat_inj (y := 17)
  dsimp only [scanIp6, Config.ip6HdrLen, Config.nhUdp]
  rw [if_neg (by omega), hip, State.memRead_half hp, if_neg (by omega), State.memRead_byte hnh]
  simp only [ne_eq, ite_not, hiff]

theorem scanUdp_short (h : plen < 8) : scanUdp ip plen s = raise s .udpLen := by
  dsimp only [scanUdp, Config.udpHdrLen]
  rw [if_pos h]

/-- The IPv6 payload holds a UDP header: its length decides. -/
theorem scanUdp_ulen (hplen : 8 ≤ plen) (hu : s.mem.halfAt (ip + 44) = some ulen) :
    scanUdp ip plen s =
      if plen < ulen ∨ ulen < 8 then raise s .udpLen else scanVerify ip (ip + 40) ulen s := by
  dsimp only [scanUdp, Config.udpHdrLen, Config.ip6HdrLen]
  rw [if_neg (by omega), State.memRead_half (by simpa only [Nat.add_assoc] using hu)]

/-- S7 and S8 on held bytes: the stored checksum decides (R112 to R114). -/
theorem scanVerify_held {udp stored : Nat} {k : Half} (hk : s.mem.checksumAt ip udp (ulen - 8) = some k)
    (hst : s.mem.halfAt (udp + 6) = some stored) :
    scanVerify ip udp ulen s =
      if k.toNat = stored then
        finish { s with
          csum := k, ip6Pos := BitVec.ofNat 32 ip, udpPos := BitVec.ofNat 32 udp
          payloadPos := BitVec.ofNat 32 (udp + 8), payloadLen := BitVec.ofNat 32 (ulen - 8), viewValid := true }
      else raise { s with csum := k } .badCsum := by
  dsimp only [scanVerify, Config.udpHdrLen]
  rw [State.udpChecksum_of_some hk, State.memRead_half (s := { s with csum := k }) hst]
  simp only [ne_eq, ite_not]

end HeldHeaders

/-! ### What SCAN can do on any bytes -/

/-- S4 to S8 move nothing and do complete. -/
theorem scanIp6_keeps_frame (c : Config) (s : State) :
    ∃ t, scanIp6 c s = .next t ∧ t.mem = s.mem ∧ t.rawOffset = s.rawOffset ∧ t.rawLength = s.rawLength
      ∧ t.errCode ≠ .noRoom := by
  obtain ⟨d, ⟨e, hs, he⟩ | ⟨k, hs⟩ | ⟨k, plen, ulen, d', hs, -⟩⟩ := scanIp6_cases c s
  · exact ⟨_, hs, rfl, rfl, rfl, fun hno => by simp [show e = .noRoom from hno] at he⟩
  · exact ⟨_, hs, rfl, rfl, rfl, by simp⟩
  · exact ⟨_, hs, rfl, rfl, rfl, by simp⟩

theorem drawnChecksum_toNat (d : Nat) : (drawnChecksum d).toNat = (Config.freeCsum d).val + 1 :=
  Nat.mod_eq_of_lt (Nat.succ_lt_succ (Config.freeCsum d).isLt)

theorem checksumOfSum_ne_zero (sum : Nat) : checksumOfSum sum ≠ 0 := by
  dsimp only [checksumOfSum]
  split
  · decide
  · assumption

/-- R133: over `UNSPEC` bytes too. -/
theorem State.udpChecksum_ne_zero (s : State) (ip udp n : Nat) : (s.udpChecksum ip udp n).1 ≠ 0 := by
  unfold State.udpChecksum
  split
  · rename_i k hk
    unfold Memory.checksumAt at hk
    split at hk
    · cases hk
      exact checksumOfSum_ne_zero _
    · cases hk
  · exact BitVec.toNat_ne.mpr (by simp [drawnChecksum_toNat])

/-- SCAN on this hardware, from every state, by how it ends: with an error before the checksum is computed, with a
checksum that does not match, or with the view of the moved frame, whose lengths fit and whose stored checksum, if it is
held, is the computed one and so not 0. -/
inductive ScanEnd (s : State) : State → Prop
  | error {mem ro d e} (hok : e ≠ .ok) (hcsum : e ≠ .badCsum) :
      ScanEnd s (State.complete { s.invalidate with mem := mem, rawOffset := ro, draws := d } e)
  | badCsum {mem ro d k} :
      ScanEnd s (State.complete { s.invalidate with mem := mem, rawOffset := ro, draws := d, csum := k } .badCsum)
  | view {mem d k plen ulen}
      (hcap : s.rawOffset.toNat + s.rawLength.toNat ≤ 65540)
      (hmoved : movedBytes s.mem mem s.alignedOffset s.rawOffset.toNat s.rawLength.toNat)
      (hmin : 8 ≤ ulen) (hle : ulen ≤ plen) (hmax : ulen < 65536) (hfit : 40 + plen ≤ s.rawLength.toNat)
      (hplen : ∀ v, mem.halfAt (s.alignedOffset + 4) = some v → v = plen)
      (hulen : ∀ v, mem.halfAt (s.alignedOffset + 44) = some v → v = ulen)
      (hstored : mem.halfAt (s.alignedOffset + 46) ≠ some 0) :
      ScanEnd s (State.complete
        { s.aligned mem s.alignedOffset with
          draws := d, csum := k, viewValid := true
          ip6Pos := BitVec.ofNat 32 s.alignedOffset, udpPos := BitVec.ofNat 32 (s.alignedOffset + 40)
          payloadPos := BitVec.ofNat 32 (s.alignedOffset + 48), payloadLen := BitVec.ofNat 32 (ulen - 8) } .ok)

theorem exists_scanEnd (s : State) : ∃ t, exec .scan s = .next t ∧ ScanEnd s t := by
  obtain ⟨-, hs⟩ | ⟨hcap, ⟨-, hs⟩ | ⟨-, -, hs⟩ | ⟨-, -, ⟨-, hs⟩ | ⟨nro, hn, hs⟩⟩⟩ := scanOn_cases Config.hw s
  iterate 4 exact ⟨_, hs, .error (by decide) (by decide)⟩
  obtain rfl : s.alignedOffset = nro := Option.some.inj ((alignTarget_hw _ _).symm.trans hn)
  obtain ⟨m, hshift, hmoved, -⟩ :=
    s.invalidate.shiftTo_spec _ (Nat.lt_of_le_of_lt s.alignedOffset_le s.rawOffset.isLt)
  rw [hshift] at hs
  obtain ⟨d, ⟨e, hd, he⟩ | ⟨k, hd⟩ | ⟨k, plen, ulen, d', hd, hmin, hle, hmax, hfit, hk, hplen, hulen, hst⟩⟩ :=
    scanIp6_cases Config.hw (s.aligned m s.alignedOffset)
  · refine ⟨_, hs.trans hd, .error ?_ ?_⟩ <;> rintro rfl <;> simp at he
  · exact ⟨_, hs.trans hd, .badCsum⟩
  · simp only [s.toNat_ofNat_alignedOffset, Nat.add_zero, Nat.zero_add] at hd hfit hplen hulen hst
    refine ⟨_, hs.trans hd, .view hcap hmoved hmin hle hmax hfit hplen hulen fun h0 => ?_⟩
    exact State.udpChecksum_ne_zero _ _ _ _ (hk.symm.trans (BitVec.eq_of_toNat_eq (hst 0 h0).symm))

theorem scanEnd_of_exec {s t : State} (h : exec .scan s = .next t) : ScanEnd s t := by
  obtain ⟨t', ht', hend⟩ := exists_scanEnd s
  cases ht'.symm.trans h
  exact hend

theorem ScanEnd.keeps_registers {s t : State} (h : ScanEnd s t) :
    t.ie = s.ie ∧ t.ovr = s.ovr ∧ t.arg0 = s.arg0 ∧ t.arg1 = s.arg1 ∧ t.rawLength = s.rawLength ∧ t.rxMeta = s.rxMeta
      ∧ t.splicePos = s.splicePos ∧ t.tx = s.tx ∧ t.inputs = s.inputs ∧ t.obs = s.obs := by
  cases h <;> exact ⟨rfl, rfl, rfl, rfl, rfl, rfl, rfl, rfl, rfl, rfl⟩

/-- A position in the headers of a frame inside the buffer fits its register. -/
theorem State.toNat_ofNat_alignedOffset_add {s : State} (h : s.rawOffset.toNat + s.rawLength.toNat ≤ 65540) {k : Nat}
    (hk : k ≤ 48) : (BitVec.ofNat 32 (s.alignedOffset + k)).toNat = s.alignedOffset + k :=
  Nat.mod_eq_of_lt (by have := s.alignedOffset_le; omega)

/-- R45, first group: the view of a frame that is aligned and inside the buffer. -/
theorem ScanEnd.viewConsistent {s t : State} (h : ScanEnd s t) (hok : t.err = false) : t.ViewConsistent Config.hw := by
  cases h with
  | error he => simp [he] at hok
  | badCsum => simp at hok
  | view hcap _ hmin hle hmax hfit =>
    have hdown := s.alignedOffset_le
    have hal := s.alignedOffset_mod
    simp only [State.ViewConsistent, State.complete_rawOffset, State.complete_rawLength, State.complete_ip6Pos,
      State.complete_udpPos, State.complete_payloadPos, State.complete_payloadLen, State.invalidate_rawLength,
      BitVec.toNat_ofNat]
    omega

/-! ### The obligations about one SCAN -/

/-- Settles O27: the range check comes first. -/
theorem scanRejectsARangePastTheBuffer : Obligations.ScanRejectsARangePastTheBuffer := by
  intro s hout
  obtain ⟨-, hs⟩ | ⟨hcap, -⟩ := scanOn_cases Config.hw s
  · exact hs
  · exact absurd hcap (Nat.not_le.mpr hout)

/-- Settles O28: of the branches of SCAN the tags leave one. -/
theorem scanChecksTheTags : Obligations.ScanChecksTheTags := by
  intro s hcap
  obtain ⟨hout, -⟩ | ⟨-, ⟨hproto, hs⟩ | ⟨hproto, hhat, hs⟩ | ⟨hproto, hhat, -⟩⟩ := scanOn_cases Config.hw s
  · exact absurd hcap (Nat.not_le.mpr hout)
  · exact ⟨fun _ => hs, fun h => absurd h hproto⟩
  · exact ⟨fun h => absurd hproto h, fun _ _ => hs⟩
  · exact ⟨fun h => absurd hproto h, fun _ h => absurd hhat h⟩

/-- A frame that was moved to `nro` is there when SCAN ends, whatever the header checks find (R106). -/
theorem scanOn_moves {c : Config} {s : State} {nro : Nat} (hlt : nro < 2 ^ 32)
    (hcap : s.rawOffset.toNat + s.rawLength.toNat ≤ c.bufCap) (hmeta : s.rxMeta = 0x000186DD)
    (hn : alignTarget c s.rawOffset.toNat s.rawLength.toNat = some nro) :
    ∃ t, scanOn c s = .next t ∧ t.rawOffset.toNat = nro ∧ t.rawLength = s.rawLength
      ∧ movedBytes s.mem t.mem t.rawOffset.toNat s.rawOffset.toNat s.rawLength.toNat
      ∧ (nro = s.rawOffset.toNat → t.mem = s.mem) ∧ t.errCode ≠ .noRoom := by
  obtain ⟨m, hmoved, hsame, hs⟩ := scanOn_of_alignTarget hlt hcap hmeta hn
  obtain ⟨t, ht, hmem, hro, hrl, herr⟩ := scanIp6_keeps_frame c (s.aligned m nro)
  have hnro : t.rawOffset.toNat = nro := by rw [hro]; exact Nat.mod_eq_of_lt hlt
  refine ⟨t, hs.trans ht, hnro, hrl, ?_, fun h => hmem.trans (hsame h), herr⟩
  rw [hnro, hmem]
  exact hmoved

/-- Settles O29, by the four cases of the alignment. -/
theorem scanShiftsTheFrame : Obligations.ScanShiftsTheFrame := by
  refine ⟨fun c s hc hcap hmeta => ?_, fun s hready => ?_⟩
  · have hbuf := bufCap_le_of_legal hc
    refine ⟨fun hal => ?_, fun hmis => ⟨fun hdown => ?_, fun hup hfit => ?_, fun hup hno => ?_⟩⟩
    · obtain ⟨t, ht, hro, hrl, -, hmem, -⟩ := scanOn_moves (by omega) hcap hmeta (alignTarget_of_aligned hal)
      exact ⟨t, ht, BitVec.eq_of_toNat_eq hro, hrl, hmem rfl⟩
    · obtain ⟨t, ht, hro, hrl, hmoved, -⟩ := scanOn_moves (by omega) hcap hmeta (alignTarget_down hmis hdown)
      exact ⟨t, ht, hro, hrl, hmoved⟩
    · obtain ⟨t, ht, hro, hrl, hmoved, -⟩ := scanOn_moves (by omega) hcap hmeta (alignTarget_up hmis hup hfit)
      exact ⟨t, ht, hro, hrl, hmoved⟩
    · exact scanOn_noRoom hcap hmeta (alignTarget_noRoom hmis hup hno)
  · obtain ⟨hcap, hmeta⟩ := hready
    obtain ⟨t, ht, hro, -, -, -, herr⟩ := scanOn_moves (c := Config.hw) (by omega) hcap hmeta (alignTarget_hw _ _)
    exact ⟨t, ht, hro, herr⟩

/-- Settles O30, check by check on the moved frame. -/
theorem scanChecksTheHeaders : Obligations.ScanChecksTheHeaders := by
  intro s hready ends
  obtain ⟨m, hmoved, hs⟩ := execScan_of_ready hready
  have hip : (s.aligned m s.alignedOffset).rawOffset.toNat + Config.hw.l2HdrLen = s.alignedOffset :=
    s.toNat_ofNat_alignedOffset
  refine ⟨fun hlen => ⟨m, hs.trans (scanIp6_trunc (by simpa using hlen)), hmoved⟩, fun plen hlen hplen => ?_⟩
  have hplen' := (hmoved.halfAt_frame (k := 4) (by omega)).trans hplen
  refine ⟨fun hout => ⟨m, hs.trans (scanIp6_plen hip (by simpa using hlen) hplen' (by simpa using hout)), hmoved⟩,
    fun nh hfit hnh => ?_⟩
  have hnh' := (hmoved.byteAt_frame (k := 6) (by omega)).trans hnh
  rw [scanIp6_nextHeader hip hplen' (by simpa using hfit) hnh'] at hs
  refine ⟨fun hne => ?_, fun heq hshort => ?_, fun ulen heq hlong hulen hbad => ?_⟩
  · rw [if_neg hne] at hs
    exact ⟨m, hs, hmoved⟩
  · rw [if_pos heq, scanUdp_short hshort] at hs
    exact ⟨m, hs, hmoved⟩
  · have hulen' := (hmoved.halfAt_frame (k := 44) (by omega)).trans hulen
    rw [if_pos heq, scanUdp_ulen hlong hulen', if_pos hbad] at hs
    exact ⟨m, hs, hmoved⟩

/-- Settles O31: the header checks pass on the moved frame, and its checksum is the one of the frame before the move. -/
theorem scanVerifiesTheChecksumAndSetsTheView : Obligations.ScanVerifiesTheChecksumAndSetsTheView := by
  intro s plen ulen stored k hready hplen hfit hnh hulen hmin hle hk hstored
  obtain ⟨m, hmoved, hs⟩ := execScan_of_ready hready
  have hip : (s.aligned m s.alignedOffset).rawOffset.toNat + Config.hw.l2HdrLen = s.alignedOffset :=
    s.toNat_ofNat_alignedOffset
  have hplen' := (hmoved.halfAt_frame (k := 4) (by omega)).trans hplen
  have hnh' := (hmoved.byteAt_frame (k := 6) (by omega)).trans hnh
  have hulen' := (hmoved.halfAt_frame (k := 44) (by omega)).trans hulen
  have hstored' := (hmoved.halfAt_frame (k := 46) (by omega)).trans hstored
  have hk' := (hmoved.checksumAt_frame (n := ulen - 8) (by omega)).trans hk
  rw [scanIp6_nextHeader hip hplen' (by simpa using hfit) hnh', if_pos rfl, scanUdp_ulen (by omega) hulen',
    if_neg (by omega), scanVerify_held hk' hstored'] at hs
  refine ⟨m, hmoved, fun heq => ?_, fun hne => ?_⟩
  · rw [if_pos heq] at hs
    exact hs
  · rw [if_neg hne] at hs
    exact hs

/-- Settles O32, by how SCAN ends. -/
theorem scanEndsWithAViewOrAnError : Obligations.ScanEndsWithAViewOrAnError := by
  intro s
  obtain ⟨t, ht, hend⟩ := exists_scanEnd s
  obtain ⟨hie, hovr, harg0, harg1, hrl, hmeta, hsp, htx, hin, hobs⟩ := hend.keeps_registers
  suffices h : t.busy = false ∧ t.done = true ∧ t.viewValid = !t.err ∧ (t.err = true → t.ViewUnset)
      ∧ (t.errCode ≠ .ok → t.errCode ≠ .badCsum → t.csum = s.csum) by
    obtain ⟨hbusy, hdone, hview, hunset, hcsum⟩ := h
    exact ⟨t, ht, hbusy, hdone, hview, hunset, hend.viewConsistent, hie, hovr, harg0, harg1, hrl, hmeta, hsp, htx, hin,
      hobs, hcsum⟩
  cases hend with
  | error hok => exact ⟨rfl, rfl, by simp [hok], fun _ => ⟨rfl, rfl, rfl, rfl⟩, fun _ _ => rfl⟩
  | badCsum => exact ⟨rfl, rfl, rfl, fun _ => ⟨rfl, rfl, rfl, rfl⟩, fun _ h => absurd rfl h⟩
  | view => exact ⟨rfl, rfl, rfl, fun h => by simp at h, fun h => absurd rfl h⟩

/-- Settles O33: the computed checksum is never 0, so neither is a stored one that matches it. -/
theorem scanNeverAcceptsAZeroChecksum : Obligations.ScanNeverAcceptsAZeroChecksum := by
  intro s t ht hview
  cases scanEnd_of_exec ht with
  | error => simp at hview
  | badCsum => simp at hview
  | view hcap _ _ _ _ _ _ _ hstored =>
    rw [State.complete_udpPos, State.toNat_ofNat_alignedOffset_add hcap (by decide)]
    exact hstored

end Sys2Proof.Machine
end

section
/-! The commands keep the length fields in agreement with the view (`10_state.md` R45, second group). -/
namespace Sys2Proof.Machine

/-! ### The length fields -/

theorem State.fieldsAgree_iff {c : Config} {s : State} :
    s.fieldsAgree c = true ↔
      ∃ plen ulen, s.mem.halfAt (s.ip6Pos.toNat + 4) = some plen ∧ s.mem.halfAt (s.udpPos.toNat + 4) = some ulen
        ∧ ulen = s.payloadLen.toNat + 8 ∧ c.l2HdrLen + 40 + plen ≤ s.rawLength.toNat ∧ ulen ≤ plen := by
  unfold State.fieldsAgree
  split
  · rename_i p u hp hu
    simp only [hp, hu, Bool.and_eq_true, decide_eq_true_eq, and_assoc]
    exact ⟨fun h => ⟨p, u, rfl, rfl, h⟩, by rintro ⟨_, _, ⟨⟩, ⟨⟩, h⟩; exact h⟩
  · rename_i hnone
    simp only [Bool.false_eq_true, false_iff]
    rintro ⟨p, u, hp, hu, -⟩
    exact hnone p u hp hu

/-- A store beside a 16-bit field leaves the field. -/
theorem Memory.halfAt_store_of_disjoint {m : Memory} {i lo : Nat} {bs : List Byte}
    (h : i + 2 ≤ lo ∨ lo + bs.length ≤ i) : (m.store lo bs).halfAt i = m.halfAt i := by
  refine Memory.halfAt_congr ?_ ?_ <;> rw [Memory.byteAt_store, if_neg (by omega)]

/-! ### Command by command -/

/-- The checksum field lies beside both length fields. -/
theorem fieldsAgree_embedChecksum {c : Config} {s : State} (hview : s.ViewConsistent c)
    (h : s.fieldsAgree c = true) : s.embedChecksum.fieldsAgree c = true := by
  obtain ⟨-, -, -, hudp, -⟩ := hview
  obtain ⟨plen, ulen, hplen, hulen, hrest⟩ := State.fieldsAgree_iff.mp h
  obtain ⟨k, d, hk, -⟩ := s.embedChecksum_cases
  rw [hk]
  refine State.fieldsAgree_iff.mpr ⟨plen, ulen, ?_, ?_, hrest⟩
  · exact (Memory.halfAt_store_of_disjoint (i := s.ip6Pos.toNat + 4) (.inl (by omega))).trans hplen
  · exact (Memory.halfAt_store_of_disjoint (i := s.udpPos.toNat + 4) (.inl (by omega))).trans hulen

/-- SPLICE adds the same number to both fields, to `PAYLOAD_LEN` and to `RAW_LENGTH` (R158, R159). -/
theorem fieldsAgree_spliceEffect {c : Config} {s : State} {plen ulen : Nat} (hc : c.legal = true)
    (hview : s.ViewConsistent c) (hcheck : s.spliceOperands.check c = none)
    (hfields : s.spliceOperands.fieldOverflow plen ulen = false) (hulen : ulen = s.payloadLen.toNat + 8)
    (hfit : c.l2HdrLen + 40 + plen ≤ s.rawLength.toNat) (hle : ulen ≤ plen) :
    (s.spliceEffect s.spliceOperands plen ulen).fieldsAgree c = true := by
  have hbuf := bufCap_le_of_legal hc
  obtain ⟨hcap, -, -, hudp, -⟩ := hview
  obtain ⟨hoff, hneg, hgrow⟩ := (SpliceOperands.check_eq_none _ _).mp hcheck
  obtain ⟨hp0, hp1, hu0, hu1, -⟩ := (SpliceOperands.fieldOverflow_eq_false _ _ _).mp hfields
  simp only [State.spliceOperands] at hoff hneg hgrow hp0 hp1 hu0 hu1
  have hrl := toNat_ofInt_of_fits (z := s.rawLength.toNat + sint32 s.arg1) (by omega) (by omega)
  have hpl := toNat_ofInt_of_fits (z := s.payloadLen.toNat + sint32 s.arg1) (by omega) (by omega)
  refine State.fieldsAgree_iff.mpr
    ⟨(plen + sint32 s.arg1).toNat, (ulen + sint32 s.arg1).toNat, ?_, ?_, ?_, ?_, by omega⟩
  · exact (Memory.halfAt_store_of_disjoint (i := s.ip6Pos.toNat + 4) (lo := s.udpPos.toNat + 4) (.inl (by omega))).trans
      (Memory.halfAt_store _ _ (plen + sint32 s.arg1).toNat (by omega))
  · exact Memory.halfAt_store _ _ (ulen + sint32 s.arg1).toNat (by omega)
  · show _ = (BitVec.ofInt 32 (s.payloadLen.toNat + sint32 s.arg1)).toNat + 8
    omega
  · show _ ≤ (BitVec.ofInt 32 (s.rawLength.toNat + sint32 s.arg1)).toNat
    omega

theorem csumOn_keeps_fields {c : Config} {s t : State} (hview : s.viewValid = true → s.ViewConsistent c)
    (h : s.fieldsAgree c = true) (ht : csumOn c s = .next t) : t.fieldsAgree c = true := by
  obtain ⟨-, hs⟩ | ⟨-, -, hs⟩ | ⟨hv, -, hs⟩ := csumOn_cases c s <;> cases hs.symm.trans ht
  · exact h
  · exact fieldsAgree_embedChecksum (hview hv) h

theorem sendOn_keeps_fields {c : Config} {o : TxOutcome} {s t : State}
    (hview : s.viewValid = true → s.ViewConsistent c) (h : s.fieldsAgree c = true) (ht : sendOn c o s = .next t) :
    t.fieldsAgree c = true := by
  obtain ⟨-, hs⟩ | ⟨-, -, hs⟩ | ⟨hv, -, bytes, d, -, hs⟩ := sendOn_cases c o s <;> cases hs.symm.trans ht
  · exact h
  · exact fieldsAgree_embedChecksum (hview hv) h

/-- The lengths SPLICE reads are the held ones the view agrees with. -/
theorem spliceOn_keeps_fields {c : Config} {s t : State} (hc : c.legal = true)
    (hview : s.viewValid = true → s.ViewConsistent c) (h : s.fieldsAgree c = true) (ht : spliceOn c s = .next t) :
    t.fieldsAgree c = true := by
  obtain ⟨plen, ulen, hplen, hulen, heq, hfit, hle⟩ := State.fieldsAgree_iff.mp h
  obtain ⟨-, hs⟩ | ⟨hv, ⟨e, -, hs⟩ | ⟨hcheck, ⟨-, hs⟩ | ⟨-, p, u, d, hp, hu, -, ⟨-, hs⟩ | ⟨hfields, hs⟩⟩⟩⟩ :=
    spliceOn_cases c s <;> cases hs.symm.trans ht
  · exact h
  · exact h
  · exact h
  · simp only [State.memRead_half hplen, State.memRead_half hulen] at hp hu
    subst hp hu
    exact fieldsAgree_spliceEffect (s := { s with draws := d }) hc (hview hv) hcheck hfields heq hfit hle

/-- The view SCAN sets is made from the length fields it read, which are held if they were before the move (R114). -/
theorem ScanEnd.fieldsAgree {s t : State} (h : ScanEnd s t) (hview : t.viewValid = true)
    (hp : (s.mem.halfAt (s.rawOffset.toNat + 4)).isSome = true)
    (hu : (s.mem.halfAt (s.rawOffset.toNat + 44)).isSome = true) : t.fieldsAgree Config.hw = true := by
  cases h with
  | error => simp at hview
  | badCsum => simp at hview
  | @view mem d k plen ulen hcap hmoved hmin hle hmax hfit hplen hulen _ =>
    obtain ⟨p, hp⟩ := Option.isSome_iff_exists.mp hp
    obtain ⟨u, hu⟩ := Option.isSome_iff_exists.mp hu
    have hp' := (hmoved.halfAt_frame (k := 4) (by omega)).trans hp
    have hu' := (hmoved.halfAt_frame (k := 44) (by omega)).trans hu
    obtain rfl := hplen p hp'
    obtain rfl := hulen u hu'
    refine State.fieldsAgree_iff.mpr ⟨p, u, ?_, ?_, ?_, by simpa using hfit, hle⟩
    · rw [State.complete_ip6Pos, s.toNat_ofNat_alignedOffset]
      exact hp'
    · rw [State.complete_udpPos, State.toNat_ofNat_alignedOffset_add hcap (by decide)]
      exact hu'
    · rw [State.complete_payloadLen, BitVec.toNat_ofNat]
      omega

/-- Settles O55, one command at a time; only SCAN sets a view where there was none. -/
theorem commandsKeepTheLengthFieldsAgreed : Obligations.CommandsKeepTheLengthFieldsAgreed := by
  intro i s t hinv hagree hheld hexec hview
  obtain ⟨-, hconsistent, -⟩ := hinv
  have hbefore : i ≠ .scan → s.fieldsAgree Config.hw = true :=
    fun hi => hagree ((exec_viewValid hexec hi).symm.trans hview)
  cases i with
  | scan =>
    obtain ⟨hp, hu⟩ := hheld rfl
    exact (scanEnd_of_exec hexec).fieldsAgree hview hp hu
  | csum => exact csumOn_keeps_fields hconsistent (hbefore (by decide)) hexec
  | splice => exact spliceOn_keeps_fields (by decide) hconsistent (hbefore (by decide)) hexec
  | send => exact sendOn_keeps_fields hconsistent (hbefore (by decide)) hexec

end Sys2Proof.Machine
end

section
/-! A changed payload byte changes the checksum, so the frame no longer scans (`41_checksum.md` R131, R139;
`40_scan.md` R113). -/
namespace Sys2Proof.Machine

/-! ### Two folds keep a sum modulo 0xFFFF (R131) -/

section Folds

variable {sum sum' : Nat}

theorem fold16_mod (sum : Nat) : fold16 sum % 65535 = sum % 65535 := by
  unfold fold16
  omega

/-- Two folds of a positive 32-bit sum leave one of 0x0001..0xFFFF. -/
theorem fold16_fold16_bounds (hpos : 0 < sum) (hlt : sum < 2 ^ 32) :
    1 ≤ fold16 (fold16 sum) ∧ fold16 (fold16 sum) ≤ 65535 := by
  unfold fold16
  omega

/-- The complement of the folded sum, the complement 0 replaced by 0xFFFF. -/
theorem checksumOfSum_toNat (hpos : 0 < sum) (hlt : sum < 2 ^ 32) :
    (checksumOfSum sum).toNat =
      if fold16 (fold16 sum) = 65535 then 65535 else 65535 - fold16 (fold16 sum) := by
  obtain ⟨hlo, hhi⟩ := fold16_fold16_bounds hpos hlt
  have hc : (~~~(BitVec.ofNat 16 (fold16 (fold16 sum)))).toNat = 65535 - fold16 (fold16 sum) := by
    rw [BitVec.toNat_not, BitVec.toNat_ofNat]
    omega
  have hzero : ~~~(BitVec.ofNat 16 (fold16 (fold16 sum))) = 0x0000 ↔ fold16 (fold16 sum) = 65535 := by
    rw [← BitVec.toNat_inj, hc]
    show _ = 0 ↔ _
    omega
  simp only [checksumOfSum, hzero]
  split
  · rfl
  · exact hc

/-- Equal checksums come from sums that are equal modulo 0xFFFF. -/
theorem mod_eq_of_checksumOfSum_eq (hpos : 0 < sum) (hlt : sum < 2 ^ 32) (hpos' : 0 < sum') (hlt' : sum' < 2 ^ 32)
    (h : checksumOfSum sum = checksumOfSum sum') : sum % 65535 = sum' % 65535 := by
  have hfolded : fold16 (fold16 sum) = fold16 (fold16 sum') := by
    have hval := congrArg BitVec.toNat h
    rw [checksumOfSum_toNat hpos hlt, checksumOfSum_toNat hpos' hlt'] at hval
    have hb := fold16_fold16_bounds hpos hlt
    have hb' := fold16_fold16_bounds hpos' hlt'
    split at hval <;> split at hval <;> omega
  rw [← fold16_mod sum, ← fold16_mod (fold16 sum), hfolded, fold16_mod, fold16_mod]

end Folds

/-! ### The sum of 16-bit words -/

theorem sum16_le (bs : List Byte) : 2 * sum16 bs ≤ 65535 * (bs.length + 1) := by
  induction bs using sum16.induct with
  | case1 => simp [sum16]
  | case2 b =>
    have := b.isLt
    simp only [sum16, List.length_singleton]
    omega
  | case3 a b rest ih =>
    have := a.isLt
    have := b.isLt
    simp only [sum16, List.length_cons]
    omega

/-- R134: no sum `UdpChecksum` computes is 0 or leaves 32 bits. -/
theorem checksumSum_bounds {src dst hdr pay : List Byte} (hsrc : src.length = 16) (hdst : dst.length = 16)
    (hhdr : hdr.length = 6) (hpay : pay.length ≤ 65527) :
    0 < checksumSum src dst hdr pay ∧ checksumSum src dst hdr pay < 2 ^ 32 := by
  have hl := beValue_lt (hdr.drop 4)
  rw [List.length_drop, hhdr] at hl
  have h1 := sum16_le src
  have h2 := sum16_le dst
  have h3 := sum16_le hdr
  have h4 := sum16_le pay
  rw [hsrc] at h1
  rw [hdst] at h2
  rw [hhdr] at h3
  simp only [checksumSum, Config.nhUdp]
  omega

/-- The weight of the byte at index `j` in the sum: the upper byte of a word is at an even index. -/
def byteWeight : Nat → Nat
  | 0 => 256
  | 1 => 1
  | j + 2 => byteWeight j

theorem byteWeight_cases (j : Nat) : byteWeight j = 256 ∨ byteWeight j = 1 := by
  induction j using byteWeight.induct with
  | case1 => exact .inl rfl
  | case2 => exact .inr rfl
  | case3 j ih => exact ih

/-- Replacing one byte changes the sum by the difference of the bytes times the weight. -/
theorem sum16_set {bs : List Byte} {j : Nat} {b : Byte} (b' : Byte) (h : bs[j]? = some b) :
    sum16 (bs.set j b') + b.toNat * byteWeight j = sum16 bs + b'.toNat * byteWeight j := by
  induction bs using sum16.induct generalizing j with
  | case1 => simp at h
  | case2 a =>
    match j, h with
    | 0, h =>
      cases h
      simp only [List.set_cons_zero, sum16, byteWeight]
      omega
  | case3 a c rest ih =>
    match j, h with
    | 0, h =>
      cases h
      simp only [List.set_cons_zero, sum16, byteWeight]
      omega
    | 1, h =>
      cases h
      simp only [List.set_cons_succ, List.set_cons_zero, sum16, byteWeight]
      omega
    | j + 2, h =>
      have := ih (j := j) h
      simp only [List.set_cons_succ, sum16, byteWeight]
      omega

/-- The key fact of R139: the difference of two bytes times a weight is less than 0xFFFF, so it is no multiple of it. -/
theorem sum16_set_mod_ne {bs : List Byte} {j : Nat} {b b' : Byte} (h : bs[j]? = some b) (hne : b' ≠ b) (base : Nat) :
    (base + sum16 (bs.set j b')) % 65535 ≠ (base + sum16 bs) % 65535 := by
  have hset := sum16_set b' h
  have hb := b.isLt
  have hb' := b'.isLt
  have hne' : b'.toNat ≠ b.toNat := BitVec.toNat_ne.mp hne
  obtain hw | hw := byteWeight_cases j <;> rw [hw] at hset <;> omega

/-! ### One payload byte of a frame changes -/

theorem Memory.checksumAt_eq_some {m : Memory} {ip udp n : Nat} {k : Half} :
    m.checksumAt ip udp n = some k ↔
      ∃ src dst hdr pay, m.bytesAt (ip + 8) 16 = some src ∧ m.bytesAt (ip + 24) 16 = some dst
        ∧ m.bytesAt udp 6 = some hdr ∧ m.bytesAt (udp + 8) n = some pay
        ∧ checksumOfSum (checksumSum src dst hdr pay) = k := by
  unfold Memory.checksumAt
  split
  · rename_i src dst hdr pay hsrc hdst hhdr hpay
    rw [Option.some.injEq]
    refine ⟨fun h => ⟨src, dst, hdr, pay, hsrc, hdst, hhdr, hpay, h⟩, ?_⟩
    rintro ⟨src', dst', hdr', pay', hsrc', hdst', hhdr', hpay', h⟩
    cases hsrc.symm.trans hsrc'
    cases hdst.symm.trans hdst'
    cases hhdr.symm.trans hhdr'
    cases hpay.symm.trans hpay'
    exact h
  · rename_i hnone
    refine ⟨nofun, ?_⟩
    rintro ⟨src, dst, hdr, pay, hsrc, hdst, hhdr, hpay, -⟩
    exact (hnone src dst hdr pay hsrc hdst hhdr hpay).elim

/-- A string of held bytes after one of them was replaced. -/
theorem Memory.bytesAt_set {m m' : Memory} {i n j : Nat} {bs : List Byte} {b' : Byte} (h : m.bytesAt i n = some bs)
    (hj : j < n) (hb' : m'.byteAt (i + j) = some b') (hsame : ∀ l, l ≠ i + j → m'.byteAt l = m.byteAt l) :
    m'.bytesAt i n = some (bs.set j b') := by
  induction n generalizing i j bs with
  | zero => omega
  | succ n ih =>
    obtain ⟨b, rest, rfl, hfirst, hrest⟩ := (Memory.bytesAt_succ m i n bs).mp h
    refine (Memory.bytesAt_succ m' i n _).mpr ?_
    cases j with
    | zero =>
      refine ⟨b', rest, rfl, hb', ?_⟩
      exact (Memory.bytesAt_congr fun k _ => hsame _ (by omega)).trans hrest
    | succ j =>
      have hj' : i + (j + 1) = i + 1 + j := by omega
      rw [hj'] at hb' hsame
      exact ⟨b, rest.set j b', rfl, (hsame i (by omega)).trans hfirst, ih hrest (by omega) hb' hsame⟩

/-- Replacing a payload byte of a frame by another value changes the checksum (R139). -/
theorem Memory.checksumAt_payload_changed {m m' : Memory} {ip n j : Nat} {b b' : Byte} {k : Half} (hn : n ≤ 65527)
    (hk : m.checksumAt ip (ip + 40) n = some k) (hj : j < n) (hb : m.byteAt (ip + 48 + j) = some b)
    (hb' : m'.byteAt (ip + 48 + j) = some b') (hne : b' ≠ b)
    (hsame : ∀ l, l ≠ ip + 48 + j → m'.byteAt l = m.byteAt l) :
    ∃ k', m'.checksumAt ip (ip + 40) n = some k' ∧ k' ≠ k := by
  obtain ⟨src, dst, hdr, pay, hsrc, hdst, hhdr, hpay, rfl⟩ := Memory.checksumAt_eq_some.mp hk
  have hpay' : m'.bytesAt (ip + 48) n = some (pay.set j b') := Memory.bytesAt_set hpay hj hb' hsame
  have hkeep : ∀ i len, i + len ≤ ip + 48 → m'.bytesAt i len = m.bytesAt i len :=
    fun i len hi => Memory.bytesAt_congr fun l hl => hsame _ (by omega)
  have hpaylen := Memory.bytesAt_length hpay
  refine ⟨checksumOfSum (checksumSum src dst hdr (pay.set j b')), Memory.checksumAt_eq_some.mpr
    ⟨src, dst, hdr, _, (hkeep _ _ (by omega)).trans hsrc, (hkeep _ _ (by omega)).trans hdst,
      (hkeep _ _ (by omega)).trans hhdr, hpay', rfl⟩, fun heq => ?_⟩
  have hbounds := fun pay (hlen : List.length pay = n) =>
    checksumSum_bounds (Memory.bytesAt_length hsrc) (Memory.bytesAt_length hdst) (Memory.bytesAt_length hhdr)
      (hlen.trans_le hn)
  obtain ⟨hpos, hlt⟩ := hbounds pay hpaylen
  obtain ⟨hpos', hlt'⟩ := hbounds (pay.set j b') (by rw [List.length_set, hpaylen])
  have hold : pay[j]? = some b := by
    rw [← hb, Memory.byteAt_of_bytesAt hpay _ (by omega) (by omega)]
    congr 1
    omega
  exact sum16_set_mod_ne hold hne _ (mod_eq_of_checksumOfSum_eq hpos' hlt' hpos hlt heq)

theorem xor_bit_ne (b : Byte) {k : Nat} (hk : k < 8) : b ^^^ BitVec.ofNat 8 (2 ^ k) ≠ b := by
  intro h
  have hzero : BitVec.ofNat 8 (2 ^ k) = 0 := by simpa using h
  have hnonzero : ∀ k < 8, BitVec.ofNat 8 (2 ^ k) ≠ 0 := by decide
  exact hnonzero k hk hzero

/-- Settles O39: the stored checksum is the one computed before the flip, so it is not the one computed after it. -/
theorem flippedPayloadBitFailsScan : Obligations.FlippedPayloadBitFailsScan := by
  intro s t m' plen ulen j bit b hready hplen hfit hnh hulen hmin hle hksome hstsome ht herr hj0 hj1 hbit hb hb' hsame
  obtain ⟨k, hk⟩ := Option.isSome_iff_exists.mp hksome
  obtain ⟨stored, hstored⟩ := Option.isSome_iff_exists.mp hstsome
  have hmatch : k.toNat = stored := by
    obtain ⟨m, -, -, hbad⟩ := scanVerifiesTheChecksumAndSetsTheView s plen ulen stored k hready hplen hfit hnh hulen
      hmin hle hk hstored
    by_contra hne
    cases (hbad hne).symm.trans ht
    cases herr
  have hmax := Memory.halfAt_lt hulen
  obtain ⟨l, rfl⟩ := Nat.exists_eq_add_of_le hj0
  obtain ⟨k', hk', hne⟩ := Memory.checksumAt_payload_changed (by omega) hk (by omega) hb hb' (xor_bit_ne b hbit) hsame
  have hhalf : ∀ i, i ≤ 46 → m'.halfAt (s.rawOffset.toNat + i) = s.mem.halfAt (s.rawOffset.toNat + i) :=
    fun i hi => Memory.halfAt_congr (hsame _ (by omega)) (hsame _ (by omega))
  obtain ⟨m, -, -, hbad⟩ := scanVerifiesTheChecksumAndSetsTheView { s with mem := m' } plen ulen stored k' hready
    ((hhalf 4 (by omega)).trans hplen) hfit ((hsame (s.rawOffset.toNat + 6) (by omega)).trans hnh)
    ((hhalf 44 (by omega)).trans hulen) hmin hle hk' ((hhalf 46 (by omega)).trans hstored)
  exact ⟨_, hbad (fun h => hne (BitVec.eq_of_toNat_eq (h.trans hmatch.symm))), rfl, rfl⟩

end Sys2Proof.Machine
end

section
/-! The values of `UdpChecksum` (`41_checksum.md` R131 to R139): the closed form of the folded sum, its bounds, the bytes it
depends on, and the words it sums. -/
namespace Sys2Proof.Machine

/-! ### The folded sum (R133 to R135) -/

/-- Settles O34: two folds take a positive sum to its representative modulo 0xFFFF in 1..0xFFFF. -/
theorem checksumClosedForm : Obligations.ChecksumClosedForm := by
  intro S hpos hle
  have hfold : fold16 (fold16 S) = (S - 1) % 65535 + 1 := by
    unfold fold16
    omega
  have hval := checksumOfSum_toNat hpos (by omega)
  refine ⟨hfold, fun hmod => ?_, fun hmod => ?_⟩
  · rw [hval, if_neg (by omega)]
  · rw [if_pos (by omega)] at hval
    exact BitVec.eq_of_toNat_eq hval

theorem checksumOfSum_eq_ffff_iff {sum : Nat} (hpos : 0 < sum) (hlt : sum < 2 ^ 32) :
    checksumOfSum sum = 0xFFFF ↔ fold16 (fold16 sum) = 0xFFFF := by
  have hbounds := fold16_fold16_bounds hpos hlt
  have hval := checksumOfSum_toNat hpos hlt
  rw [← BitVec.toNat_inj, hval]
  show _ = 65535 ↔ _
  split <;> omega

/-- Settles O35: the result 0 is replaced, and a drawn one is not 0; a positive sum folds to a positive one. -/
theorem checksumIsNeverZero : Obligations.ChecksumIsNeverZero := by
  refine ⟨State.udpChecksum_ne_zero, fun S hmin hle => ?_⟩
  obtain ⟨hlo, hhi⟩ := fold16_fold16_bounds (sum := S) (by omega) (by omega)
  exact ⟨hlo, hhi, checksumOfSum_eq_ffff_iff (by omega) (by omega)⟩

/-- A byte string has `(length + 1) / 2` words, each at most 0xFFFF. -/
theorem sum16_le_words (bs : List Byte) : sum16 bs ≤ 65535 * ((bs.length + 1) / 2) := by
  induction bs using sum16.induct with
  | case1 => simp [sum16]
  | case2 b =>
    have := b.isLt
    simp only [sum16, List.length_singleton]
    omega
  | case3 a b rest ih =>
    have := a.isLt
    have := b.isLt
    simp only [sum16, List.length_cons]
    omega

/-- R134: 32784 words and `NH_UDP`. -/
theorem checksumSum_le {src dst hdr pay : List Byte} (hsrc : src.length = 16) (hdst : dst.length = 16)
    (hhdr : hdr.length = 6) (hpay : pay.length ≤ 65527) : checksumSum src dst hdr pay ≤ 32784 * 65535 + 17 := by
  have hl := beValue_lt (hdr.drop 4)
  rw [List.length_drop, hhdr] at hl
  have h1 := sum16_le_words src
  have h2 := sum16_le_words dst
  have h3 := sum16_le_words hdr
  have h4 := sum16_le_words pay
  rw [hsrc] at h1
  rw [hdst] at h2
  rw [hhdr] at h3
  simp only [checksumSum, Config.nhUdp]
  omega

/-- Settles O36: the bound of the sum gives the bounds of its folds. -/
theorem checksumAccumulatorNeverWraps : Obligations.ChecksumAccumulatorNeverWraps := by
  intro src dst hdr pay hsrc hdst hhdr hpay
  have hle := checksumSum_le hsrc hdst hhdr hpay
  have hfold : fold16 (checksumSum src dst hdr pay) ≤ 0x1800E := by
    unfold fold16
    omega
  have hfold2 : fold16 (fold16 (checksumSum src dst hdr pay)) ≤ 0xFFFF := by
    rw [fold16]
    omega
  exact ⟨by omega, by omega, by omega, hfold, hfold2⟩

/-! ### The bytes the checksum reads (R138) -/

/-- The checksum of one memory depends on nothing but the bytes R138 lists. -/
theorem Memory.checksumAt_of_reads_eq {m m' : Memory} {ip udp n : Nat}
    (h : ∀ j, checksumReads ip udp n j → m'.byteAt j = m.byteAt j) :
    m'.checksumAt ip udp n = m.checksumAt ip udp n :=
  Memory.checksumAt_congr (fun k _ _ => h _ (.inl (by omega))) (fun k _ => h _ (.inr (.inl (by omega))))
    (fun k _ => h _ (.inr (.inr (by omega))))

theorem Memory.isSome_byteAt_of_bytesAt {m : Memory} {i n j : Nat} {bs : List Byte} (h : m.bytesAt i n = some bs)
    (hlo : i ≤ j) (hhi : j < i + n) : (m.byteAt j).isSome = true := by
  have hlen := Memory.bytesAt_length h
  rw [Memory.byteAt_of_bytesAt h j hlo hhi, List.getElem?_eq_getElem (by omega)]
  rfl

/-- A checksum that is computed was computed over held bytes. -/
theorem Memory.isSome_byteAt_of_checksumAt {m : Memory} {ip udp n j : Nat} {k : Half}
    (hk : m.checksumAt ip udp n = some k) (hj : checksumReads ip udp n j) : (m.byteAt j).isSome = true := by
  obtain ⟨src, dst, hdr, pay, hsrc, hdst, hhdr, hpay, -⟩ := Memory.checksumAt_eq_some.mp hk
  obtain ⟨hlo, hhi⟩ | ⟨hlo, hhi⟩ | ⟨hlo, hhi⟩ := hj
  · by_cases hj : j < ip + 24
    · exact Memory.isSome_byteAt_of_bytesAt hsrc hlo (by omega)
    · exact Memory.isSome_byteAt_of_bytesAt hdst (by omega) (by omega)
  · exact Memory.isSome_byteAt_of_bytesAt hhdr hlo hhi
  · exact Memory.isSome_byteAt_of_bytesAt hpay hlo hhi

/-- Settles O37: only the bytes read matter, and with one of them `UNSPEC` there is no computed checksum. -/
theorem checksumReadsOnlyItsBytes : Obligations.ChecksumReadsOnlyItsBytes := by
  refine ⟨fun m m' ip udp n h => Memory.checksumAt_of_reads_eq h, fun s ip udp n j hj hnone => ?_⟩
  refine ⟨State.udpChecksum_of_none ?_, drawnChecksum_toNat _⟩
  refine Option.eq_none_iff_forall_ne_some.mpr fun k hk => ?_
  simpa [hnone] using Memory.isSome_byteAt_of_checksumAt hk hj

/-! ### One byte of an address, a port or the payload changes (R139) -/

section ByteChanged

variable {m m' : Memory} {j : Nat} {b b' : Byte}

/-- Strings of held bytes beside the changed byte are equal. -/
theorem Memory.bytesAt_eq_of_outside {i n : Nat} {bs bs' : List Byte} (h : m.bytesAt i n = some bs)
    (h' : m'.bytesAt i n = some bs') (hsame : ∀ l, l ≠ j → m'.byteAt l = m.byteAt l) (hj : j < i ∨ i + n ≤ j) :
    bs' = bs := by
  have hcongr : m'.bytesAt i n = m.bytesAt i n := Memory.bytesAt_congr fun l hl => hsame _ (by omega)
  exact Option.some.inj (h'.symm.trans (hcongr.trans h))

/-- Strings of held bytes around the changed byte differ in it, and so in their sum modulo 0xFFFF. -/
theorem Memory.bytesAt_eq_set {i n : Nat} {bs bs' : List Byte} (h : m.bytesAt i n = some bs)
    (h' : m'.bytesAt i n = some bs') (hb : m.byteAt j = some b) (hb' : m'.byteAt j = some b') (hne : b' ≠ b)
    (hsame : ∀ l, l ≠ j → m'.byteAt l = m.byteAt l) (hlo : i ≤ j) (hhi : j < i + n) :
    bs' = bs.set (j - i) b' ∧ sum16 bs' % 65535 ≠ sum16 bs % 65535 := by
  obtain ⟨k, rfl⟩ := Nat.exists_eq_add_of_le hlo
  rw [Nat.add_sub_cancel_left]
  have hset := Memory.bytesAt_set h (j := k) (by omega) hb' hsame
  have hold : bs[k]? = some b := by
    rw [← hb, Memory.byteAt_of_bytesAt h _ hlo hhi, Nat.add_sub_cancel_left]
  obtain rfl : bs' = bs.set k b' := Option.some.inj (h'.symm.trans hset)
  exact ⟨rfl, by simpa using sum16_set_mod_ne hold hne 0⟩

/-- Another byte of an address, a port or the payload means another checksum. The UDP length is left out: it is summed
twice. -/
theorem Memory.checksumAt_ne_of_byte_changed {ip n : Nat} {c c' : Half} (hn : n ≤ 65527)
    (hj : checksumReads ip (ip + 40) n j) (hlen : ¬ (ip + 44 ≤ j ∧ j < ip + 46)) (hb : m.byteAt j = some b)
    (hb' : m'.byteAt j = some b') (hne : b' ≠ b) (hsame : ∀ l, l ≠ j → m'.byteAt l = m.byteAt l)
    (hc : m.checksumAt ip (ip + 40) n = some c) (hc' : m'.checksumAt ip (ip + 40) n = some c') : c' ≠ c := by
  obtain ⟨src, dst, hdr, pay, hsrc, hdst, hhdr, hpay, rfl⟩ := Memory.checksumAt_eq_some.mp hc
  obtain ⟨src', dst', hdr', pay', hsrc', hdst', hhdr', hpay', rfl⟩ := Memory.checksumAt_eq_some.mp hc'
  have hbounds := checksumSum_bounds (Memory.bytesAt_length hsrc) (Memory.bytesAt_length hdst)
    (Memory.bytesAt_length hhdr) ((Memory.bytesAt_length hpay).trans_le hn)
  have hbounds' := checksumSum_bounds (Memory.bytesAt_length hsrc') (Memory.bytesAt_length hdst')
    (Memory.bytesAt_length hhdr') ((Memory.bytesAt_length hpay').trans_le hn)
  suffices hmod : checksumSum src' dst' hdr' pay' % 65535 ≠ checksumSum src dst hdr pay % 65535 from
    fun heq => hmod (mod_eq_of_checksumOfSum_eq hbounds'.1 hbounds'.2 hbounds.1 hbounds.2 heq)
  have hsrcEq := Memory.bytesAt_eq_of_outside hsrc hsrc' hsame
  have hdstEq := Memory.bytesAt_eq_of_outside hdst hdst' hsame
  have hhdrEq := Memory.bytesAt_eq_of_outside hhdr hhdr' hsame
  have hpayEq := Memory.bytesAt_eq_of_outside hpay hpay' hsame
  obtain hin | hin | hin | hin : (ip + 8 ≤ j ∧ j < ip + 24) ∨ (ip + 24 ≤ j ∧ j < ip + 40) ∨ (ip + 40 ≤ j ∧ j < ip + 44)
      ∨ (ip + 48 ≤ j ∧ j < ip + 48 + n) := by omega
  · obtain ⟨-, hsum⟩ := Memory.bytesAt_eq_set hsrc hsrc' hb hb' hne hsame (by omega) (by omega)
    rw [hdstEq (by omega), hhdrEq (by omega), hpayEq (by omega), checksumSum, checksumSum]
    omega
  · obtain ⟨-, hsum⟩ := Memory.bytesAt_eq_set hdst hdst' hb hb' hne hsame (by omega) (by omega)
    rw [hsrcEq (by omega), hhdrEq (by omega), hpayEq (by omega), checksumSum, checksumSum]
    omega
  · obtain ⟨hset, hsum⟩ := Memory.bytesAt_eq_set hhdr hhdr' hb hb' hne hsame (by omega) (by omega)
    have hdrop : hdr'.drop 4 = hdr.drop 4 := by
      rw [hset, List.drop_set_of_lt (by omega)]
    rw [hsrcEq (by omega), hdstEq (by omega), hpayEq (by omega), checksumSum, checksumSum, hdrop]
    omega
  · obtain ⟨-, hsum⟩ := Memory.bytesAt_eq_set hpay hpay' hb hb' hne hsame (by omega) (by omega)
    rw [hsrcEq (by omega), hdstEq (by omega), hhdrEq (by omega), checksumSum, checksumSum]
    omega

end ByteChanged

/-- Settles O38: a flipped bit makes another byte. -/
theorem flippedBitChangesTheChecksum : Obligations.FlippedBitChangesTheChecksum :=
  fun _ _ _ _ _ _ b _ _ hn hj hlen hk hb hb' hsame hc hc' =>
    Memory.checksumAt_ne_of_byte_changed hn hj hlen hb hb' (xor_bit_ne b hk) hsame hc hc'

/-! ### The words that are summed (R131, R132) -/

/-- The big-endian word of the bytes at `i` and `i + 1`. -/
def wordAt (B : Nat → Byte) (i : Nat) : Nat := (B i).toNat * 256 + (B (i + 1)).toNat

theorem wordAt_lt (B : Nat → Byte) (i : Nat) : wordAt B i < 65536 := by
  have hhi := (B i).isLt
  have hlo := (B (i + 1)).isLt
  unfold wordAt
  omega

/-- Bytes that all hold values, as a string. -/
theorem Memory.bytesAt_of_held {m : Memory} {B : Nat → Byte} {i n : Nat}
    (h : ∀ j, i ≤ j → j < i + n → m.byteAt j = some (B j)) :
    m.bytesAt i n = some ((List.range' i n).map B) := by
  induction n generalizing i with
  | zero => rfl
  | succ n ih =>
    exact (Memory.bytesAt_succ m i n _).mpr
      ⟨_, _, rfl, h i (by omega) (by omega), ih fun j hlo hhi => h j (by omega) (by omega)⟩

/-- `sum16` of the bytes from `i` on: their words, and an odd last byte as its upper byte. -/
theorem sum16_map_range' (B : Nat → Byte) (i n : Nat) :
    sum16 ((List.range' i n).map B) =
      ((List.range (n / 2)).map (fun k => wordAt B (i + 2 * k))).sum
        + (if n % 2 = 1 then (B (i + n - 1)).toNat * 256 else 0) := by
  induction n using Nat.twoStepInduction generalizing i with
  | zero => rfl
  | one => simp [sum16]
  | more n ih _ =>
    have hshift : (fun k => wordAt B (i + 1 + 1 + 2 * k)) = fun k => wordAt B (i + 2 * (k + 1)) := funext fun k => by
      congr 1
      omega
    have hlast : i + 1 + 1 + n - 1 = i + (n + 2) - 1 := by omega
    rw [List.range'_succ, List.range'_succ, List.map_cons, List.map_cons, sum16, ih, hshift, hlast,
      Nat.add_div_right n (by decide), List.sum_range_succ', Nat.add_mod_right, ← Nat.add_assoc]
    rfl

/-- R131 and R132 over held bytes, word by word. -/
theorem checksumSum_map_range' (B : Nat → Byte) (ip udp n : Nat) :
    checksumSum ((List.range' (ip + 8) 16).map B) ((List.range' (ip + 24) 16).map B) ((List.range' udp 6).map B)
        ((List.range' (udp + 8) n).map B) =
      ((List.range 8).map (fun k => wordAt B (ip + 8 + 2 * k))).sum
        + ((List.range 8).map (fun k => wordAt B (ip + 24 + 2 * k))).sum
        + wordAt B (udp + 4) + 17 + wordAt B udp + wordAt B (udp + 2) + wordAt B (udp + 4)
        + ((List.range (n / 2)).map (fun k => wordAt B (udp + 8 + 2 * k))).sum
        + (if n % 2 = 1 then (B (udp + 8 + n - 1)).toNat * 256 else 0) := by
  have haddr : ∀ i, sum16 ((List.range' i 16).map B) = ((List.range 8).map (fun k => wordAt B (i + 2 * k))).sum :=
    fun i => (sum16_map_range' B i 16).trans (Nat.add_zero _)
  have hhdr : sum16 ((List.range' udp 6).map B) = wordAt B udp + wordAt B (udp + 2) + wordAt B (udp + 4) := by
    simp [List.range'_succ, sum16, wordAt, Nat.add_assoc]
  have hlen : beValue (((List.range' udp 6).map B).drop 4) = wordAt B (udp + 4) := by
    simp [beValue, List.range'_succ, wordAt, Nat.mul_comm]
  have hlt := wordAt_lt B (udp + 4)
  simp only [checksumSum, Config.nhUdp, haddr, hhdr, hlen, sum16_map_range' B (udp + 8) n]
  omega

/-- Settles O57: the strings `UdpChecksum` reads are the held bytes, and `sum16` adds up their words. -/
theorem checksumSumsTheBigEndianWords : Obligations.ChecksumSumsTheBigEndianWords := by
  intro s B ip udp n h W S s1 s2 c
  have hsrc := Memory.bytesAt_of_held (i := ip + 8) (n := 16) fun j hlo hhi => h j (.inl (by omega))
  have hdst := Memory.bytesAt_of_held (i := ip + 24) (n := 16) fun j hlo hhi => h j (.inl (by omega))
  have hhdr := Memory.bytesAt_of_held (i := udp) (n := 6) fun j hlo hhi => h j (.inr (.inl (by omega)))
  have hpay := Memory.bytesAt_of_held (i := udp + 8) (n := n) fun j hlo hhi => h j (.inr (.inr (by omega)))
  have hk := Memory.checksumAt_eq_some.mpr ⟨_, _, _, _, hsrc, hdst, hhdr, hpay, rfl⟩
  rw [checksumSum_map_range'] at hk
  exact ⟨State.udpChecksum_of_some hk, hk⟩

end Sys2Proof.Machine
end

section
/-! CSUM writes the checksum of the view; it can be repeated, and a SCAN accepts what it wrote (`41_checksum.md` R140, R141;
`70_reset_and_hazards.md` R234). -/
namespace Sys2Proof.Machine

/-! ### Commands without a view -/

/-- Settles O22: of the branches of each command the missing view leaves one; the tags are 0 after reset. -/
theorem commandsNeedAView : Obligations.CommandsNeedAView := by
  refine ⟨fun s hv => ⟨?_, ?_, ?_⟩, rfl, ?_⟩
  · obtain ⟨-, hs⟩ | ⟨hview, -⟩ | ⟨hview, -⟩ := csumOn_cases Config.hw s
    · exact hs
    all_goals simp [hv] at hview
  · obtain ⟨-, hs⟩ | ⟨hview, -⟩ := spliceOn_cases Config.hw s
    · exact hs
    · simp [hv] at hview
  · obtain ⟨-, hs⟩ | ⟨hview, -⟩ | ⟨hview, -⟩ := sendOn_cases Config.hw (Config.txOutcome s.draws) s
    · exact hs
    all_goals simp [hv] at hview
  · obtain ⟨hnotIpv6, -⟩ := scanChecksTheTags State.reset (by decide)
    exact hnotIpv6 (by decide)

/-! ### What CSUM writes -/

/-- With a valid view CSUM embeds the checksum and completes: its accesses lie in the buffer (R69). -/
theorem exec_csum_of_view {s : State} (h : Inv Config.hw s) (hv : s.viewValid = true) :
    exec .csum s = finish s.embedChecksum := by
  obtain ⟨hno, -⟩ | ⟨-, hout, -⟩ | ⟨-, -, hs⟩ := csumOn_cases Config.hw s
  · simp [hv] at hno
  · simp [(h.view hv).checksumInBuffer] at hout
  · exact hs

/-- `MemWrite` of a 16-bit value, byte by byte. -/
theorem halfWritten_store (m : Memory) (i : Nat) (v : Half) : halfWritten m (m.store i (beBytes 2 v.toNat)) i v := by
  intro j
  have hlow : BitVec.ofNat 8 v.toNat = v.extractLsb' 0 8 := BitVec.eq_of_toNat_eq (by simp [BitVec.extractLsb'_toNat])
  have hhigh : BitVec.ofNat 8 (v.toNat / 256) = v.extractLsb' 8 8 :=
    BitVec.eq_of_toNat_eq (by simp [BitVec.extractLsb'_toNat, Nat.shiftRight_eq_div_pow])
  rw [Memory.byteAt_store, beBytes_length]
  by_cases h0 : j = i
  · subst h0
    simp [beBytes, hhigh]
  · by_cases h1 : j = i + 1
    · subst h1
      simp [beBytes, hlow]
    · rw [if_neg (by omega), if_neg h0, if_neg h1]

/-- Settles O40: the two ways to a checksum, and the two bytes written. -/
theorem csumWritesTheChecksum : Obligations.CsumWritesTheChecksum := by
  refine fun s => ⟨fun hv => ?_, fun hinv hv => ?_⟩
  · obtain ⟨hnoView, -⟩ := commandsNeedAView
    obtain ⟨hcsum, -⟩ := hnoView s hv
    exact hcsum
  · obtain ⟨k, d, hembed, hcases⟩ := s.embedChecksum_cases
    refine ⟨k, _, d, ?_, hcases, halfWritten_store _ _ _⟩
    rw [exec_csum_of_view hinv hv, hembed]
    rfl

/-! ### CSUM over held bytes -/

/-- The state after a CSUM that computed the checksum `k`. -/
abbrev State.afterCsum (s : State) (k : Half) : State :=
  { s with
    mem := s.mem.store (s.udpPos.toNat + 6) (beBytes 2 k.toNat)
    csum := k, errCode := .ok, err := false, done := true, phase := .idle }

section AfterCsum

variable {s : State} {k : Half} (hinv : Inv Config.hw s) (hv : s.viewValid = true)
  (hk : s.mem.checksumAt s.ip6Pos.toNat s.udpPos.toNat s.payloadLen.toNat = some k)

include hinv hv hk

theorem exec_csum_of_held : exec .csum s = .next (s.afterCsum k) := by
  obtain ⟨k', d, hembed, ⟨hsome, rfl⟩ | ⟨hnone, -⟩⟩ := s.embedChecksum_cases
  · cases hk.symm.trans hsome
    rw [exec_csum_of_view hinv hv, hembed]
    rfl
  · cases hk.symm.trans hnone

theorem inv_afterCsum : Inv Config.hw (s.afterCsum k) :=
  exec_keeps_inv hinv (exec_csum_of_held hinv hv hk)

/-- The checksum field is none of the bytes the checksum reads. -/
theorem checksumAt_afterCsum :
    (s.afterCsum k).mem.checksumAt s.ip6Pos.toNat s.udpPos.toNat s.payloadLen.toNat = some k := by
  obtain ⟨-, -, -, hudp, -⟩ := hinv.view hv
  refine (Memory.checksumAt_of_reads_eq fun j hj => ?_).trans hk
  rw [Memory.byteAt_store, beBytes_length, if_neg]
  simp only [checksumReads] at hj
  omega

end AfterCsum

/-- The buffer of a state that meets the invariant is in its canonical form. -/
theorem Inv.mem_wf {c : Config} {s : State} (h : Inv c s) : s.mem.wf c.bufCap := by
  obtain ⟨hmem, -⟩ := h
  exact hmem

/-- Storing what is already held gives the same memory. -/
theorem Memory.store_held {cap i : Nat} {m : Memory} {bs : List Byte} (hm : m.wf cap) (hcap : i + bs.length ≤ cap)
    (h : m.bytesAt i bs.length = some bs) : m.store i bs = m :=
  Memory.ext_of_wf (Memory.wf_store hm hcap) hm (Memory.byteAt_store_same h)

/-- Settles O41: the second CSUM computes the same checksum and stores what is already held. -/
theorem csumIsIdempotent : Obligations.CsumIsIdempotent := by
  intro s t hinv hv hsome ht
  obtain ⟨k, hk⟩ := Option.isSome_iff_exists.mp hsome
  cases (exec_csum_of_held hinv hv hk).symm.trans ht
  have hinv' := inv_afterCsum hinv hv hk
  obtain ⟨hcap, -, -, -, hpos, hend, -⟩ := hinv.view hv
  have hstore : Memory.store (s.afterCsum k).mem (s.udpPos.toNat + 6) (beBytes 2 k.toNat) = (s.afterCsum k).mem := by
    refine Memory.store_held hinv'.mem_wf ?_ (Memory.bytesAt_store _ _ _)
    rw [beBytes_length]
    omega
  rw [exec_csum_of_held hinv' hv (checksumAt_afterCsum hinv hv hk), State.afterCsum, hstore]

/-! ### SCAN after CSUM -/

/-- A move that moves nothing keeps the memory. -/
theorem movedBytes.eq_of_same {cap src len : Nat} {m m' : Memory} (h : movedBytes m m' src src len) (hm : m.wf cap)
    (hm' : m'.wf cap) : m' = m := by
  refine Memory.ext_of_wf hm' hm fun j => ?_
  rw [h j]
  split
  · congr 1
    omega
  · rfl

/-- On this hardware the IPv6 header of a valid view is the start of the frame, which is aligned. -/
theorem State.ViewConsistent.ip6Pos_eq {s : State} (h : s.ViewConsistent Config.hw) :
    s.ip6Pos = s.rawOffset ∧ s.alignedOffset = s.rawOffset.toNat := by
  obtain ⟨-, hip, hal, -⟩ := h
  have hoffset : s.ip6Pos = s.rawOffset := BitVec.eq_of_toNat_eq hip
  exact ⟨hoffset, by rw [State.alignedOffset, ← hoffset, hal, Nat.sub_zero]⟩

theorem ofNat_eq_of_toNat {w : Word} {a : Nat} (h : w.toNat = a) : BitVec.ofNat 32 a = w := by
  rw [← h, BitVec.ofNat_toNat, BitVec.setWidth_eq]

/-- A SCAN over the frame of a valid view, with fields that agree with it and the right checksum in the header, sets the
view that is there (R114). -/
theorem exec_scan_of_view {s : State} {k : Half} (hinv : Inv Config.hw s) (hv : s.viewValid = true)
    (hagree : s.fieldsAgree Config.hw = true) (hmeta : s.rxMeta = 0x000186DD)
    (hnh : s.mem.byteAt (s.ip6Pos.toNat + 6) = some 17)
    (hk : s.mem.checksumAt s.ip6Pos.toNat s.udpPos.toNat s.payloadLen.toNat = some k)
    (hst : s.mem.halfAt (s.udpPos.toNat + 6) = some k.toNat) :
    exec .scan s = .next (State.complete { s with csum := k } .ok) := by
  obtain ⟨hip, hal⟩ := (hinv.view hv).ip6Pos_eq
  obtain ⟨hcap, -, -, hudp, hpos, -⟩ := hinv.view hv
  obtain ⟨plen, ulen, hplen, hulen, rfl, hfit, hle⟩ := State.fieldsAgree_iff.mp hagree
  rw [hip] at hudp hplen hnh hk
  rw [hudp] at hk hulen hst hpos
  obtain ⟨m, hmoved, hok, -⟩ := scanVerifiesTheChecksumAndSetsTheView s plen _ k.toNat k ⟨hcap, hmeta⟩ hplen
    (by simpa using hfit) hnh hulen (Nat.le_add_left 8 _) hle hk hst
  have hscan := hok rfl
  rw [hal] at hmoved hscan
  have hmem : m = s.mem := hmoved.eq_of_same hinv.mem_wf (exec_keeps_inv hinv hscan).mem_wf
  rw [hscan, hmem, Nat.add_sub_cancel, ofNat_eq_of_toNat rfl, ofNat_eq_of_toNat hudp, ofNat_eq_of_toNat hpos,
    ofNat_eq_of_toNat rfl]
  simp only [State.complete, hip, hv, ne_eq, not_true, decide_false]

/-- Settles O42: the stored checksum is the one CSUM computed and wrote, and the length fields are as before. -/
theorem csumThenScanSucceeds : Obligations.CsumThenScanSucceeds := by
  intro s t hinv hv hagree hmeta hnh hsome ht
  obtain ⟨k, hk⟩ := Option.isSome_iff_exists.mp hsome
  cases (exec_csum_of_held hinv hv hk).symm.trans ht
  have hagree' := csumOn_keeps_fields (fun _ => hinv.view hv) hagree ht
  obtain ⟨-, -, -, hudp, -⟩ := hinv.view hv
  have hnh' : (s.afterCsum k).mem.byteAt (s.ip6Pos.toNat + 6) = some 17 := by
    rw [Memory.byteAt_store, if_neg (by omega), hnh]
  exact exec_scan_of_view (inv_afterCsum hinv hv hk) hv hagree' hmeta hnh' (checksumAt_afterCsum hinv hv hk)
    (Memory.halfAt_store _ _ _ k.isLt)

end Sys2Proof.Machine
end

section
/-! SPLICE: its checks, what a successful one does to the buffer, the registers and the payload, and how it is undone
(`42_splice.md` R150 to R165). -/
namespace Sys2Proof.Machine

/-! ### The register checks (R153 to R155) -/

section RegisterChecks

variable {c : Config} {p : SpliceOperands}

theorem SpliceOperands.check_eq_spliceOffset_iff : p.check c = some .spliceOffset ↔ p.len < p.off := by
  unfold check
  split_ifs with hoff <;> simp [hoff]

theorem SpliceOperands.check_eq_spliceBefore_iff :
    p.check c = some .spliceBefore ↔ p.off ≤ p.len ∧ p.n < 0 ∧ (p.off : Int) < -p.n := by
  unfold check
  split_ifs <;> simp <;> omega

theorem SpliceOperands.check_eq_spliceCapacity_iff :
    p.check c = some .spliceCapacity ↔
      p.off ≤ p.len ∧ -p.n ≤ (p.off : Int) ∧ 0 < p.n ∧ (c.bufCap : Int) < p.ro + p.rl + p.n := by
  unfold check
  split_ifs <;> simp <;> omega

/-- The checks raise no other code. -/
theorem SpliceOperands.code_of_check {e : ErrCode} (h : p.check c = some e) :
    e = .spliceOffset ∨ e = .spliceBefore ∨ e = .spliceCapacity := by
  unfold check at h
  split_ifs at h <;> cases h <;> simp

theorem SpliceOperands.ne_ok_of_check {e : ErrCode} (h : p.check c = some e) : e ≠ .ok := by
  rintro rfl
  simpa using code_of_check h

end RegisterChecks

/-- P1 of R150: the length change is `ARG1` as a signed number. -/
@[simp] theorem State.spliceOperands_n (s : State) : s.spliceOperands.n = s.arg1.toInt := sint32_eq_toInt s.arg1

@[simp] theorem State.spliceOperands_b (s : State) : s.spliceOperands.b = s.payloadPos.toNat + s.arg0.toNat := rfl

@[simp] theorem State.spliceOperands_e (s : State) : s.spliceOperands.e = s.rawOffset.toNat + s.rawLength.toNat := rfl

/-- With a view the checks that `spliceReady` names are the ones SPLICE makes. -/
theorem State.check_eq_none_iff_spliceReady {s : State} (hv : s.viewValid = true) :
    s.spliceOperands.check Config.hw = none ↔ s.spliceReady := by
  rw [SpliceOperands.check_eq_none, spliceOperands_n]
  simp [spliceReady, hv, spliceOperands]

/-! ### The length fields as P4 reads them (R157) -/

/-- What SPLICE reads as the IPv6 payload length. -/
def State.plenRead (s : State) : Nat := (s.memRead (s.ip6Pos.toNat + 4) 2).1

/-- What SPLICE reads as the UDP length, after the IPv6 payload length. -/
def State.ulenRead (s : State) : Nat := ((s.memRead (s.ip6Pos.toNat + 4) 2).2.memRead (s.udpPos.toNat + 4) 2).1

/-- The count of draws after both length fields were read. -/
def State.lengthDraws (s : State) : Nat :=
  ((s.memRead (s.ip6Pos.toNat + 4) 2).2.memRead (s.udpPos.toNat + 4) 2).2.draws

/-- Every length SPLICE changes stays in its field (R157). -/
abbrev State.spliceFits (s : State) : Prop :=
  0 ≤ (s.plenRead : Int) + s.arg1.toInt ∧ (s.plenRead : Int) + s.arg1.toInt ≤ 65535
  ∧ 0 ≤ (s.ulenRead : Int) + s.arg1.toInt ∧ (s.ulenRead : Int) + s.arg1.toInt ≤ 65535
  ∧ (s.payloadLen.toNat : Int) + 8 + s.arg1.toInt ≤ 65535

theorem State.fieldOverflow_eq_false_iff_spliceFits (s : State) :
    s.spliceOperands.fieldOverflow s.plenRead s.ulenRead = false ↔ s.spliceFits := by
  rw [SpliceOperands.fieldOverflow_eq_false, spliceOperands_n]
  rfl

/-- Length fields that hold values are read as they are, and nothing is drawn. -/
theorem State.lengthFields_of_held {s : State} {plen ulen : Nat} (hplen : s.mem.halfAt (s.ip6Pos.toNat + 4) = some plen)
    (hulen : s.mem.halfAt (s.udpPos.toNat + 4) = some ulen) :
    s.plenRead = plen ∧ s.ulenRead = ulen ∧ s.lengthDraws = s.draws := by
  simp only [plenRead, ulenRead, lengthDraws, memRead_half hplen, memRead_half hulen, true_and]

/-! ### How a SPLICE ends -/

theorem State.complete_eq_failedWith {e : ErrCode} (he : e ≠ .ok) (s : State) : s.complete e = s.failedWith e := by
  simp [complete, failedWith, he]

/-- P5 to P7 of R150 on the lengths that were read, and the completion. -/
def State.afterSplice (s : State) : State :=
  (State.spliceEffect { s with draws := s.lengthDraws } s.spliceOperands s.plenRead s.ulenRead).complete .ok

/-- Every state a SPLICE can lead to, with the step of R150 that ends it. -/
inductive SpliceEnd (s : State) : State → Prop
  | noView (hv : s.viewValid = false) : SpliceEnd s (s.failedWith .noView)
  | check {e : ErrCode} (hv : s.viewValid = true) (hcheck : s.spliceOperands.check Config.hw = some e) :
      SpliceEnd s (s.failedWith e)
  | fieldOvf (hready : s.spliceReady) (hover : ¬ s.spliceFits) :
      SpliceEnd s { s.failedWith .fieldOvf with draws := s.lengthDraws }
  | done (hready : s.spliceReady) (hfits : s.spliceFits) : SpliceEnd s s.afterSplice

theorem spliceEnd_of_exec {s t : State} (h : exec .splice s = .next t) : SpliceEnd s t := by
  obtain ⟨hv, hs⟩ | ⟨hv, ⟨e, he, hs⟩ | ⟨hnone, ⟨-, hs⟩ | ⟨-, p, u, d, rfl, rfl, rfl, hend⟩⟩⟩ :=
    spliceOn_cases Config.hw s
  · cases hs.symm.trans h
    exact .noView hv
  · cases hs.symm.trans h
    rw [State.complete_eq_failedWith (SpliceOperands.ne_ok_of_check he)]
    exact .check hv he
  · cases hs.symm.trans h
  · have hready := (State.check_eq_none_iff_spliceReady hv).mp hnone
    have hiff := s.fieldOverflow_eq_false_iff_spliceFits
    obtain ⟨hover, hs⟩ | ⟨hfits, hs⟩ := hend <;> cases hs.symm.trans h
    · refine .fieldOvf hready fun hfits => ?_
      cases hover.symm.trans (hiff.mpr hfits)
    · exact .done hready (hiff.mp hfits)

theorem exec_splice_of_check {s : State} {e : ErrCode} (hv : s.viewValid = true)
    (hcheck : s.spliceOperands.check Config.hw = some e) : exec .splice s = .next (s.failedWith e) := by
  obtain ⟨hno, -⟩ | ⟨-, ⟨e', he, hs⟩ | ⟨hnone, -⟩⟩ := spliceOn_cases Config.hw s
  · simp [hv] at hno
  · cases hcheck.symm.trans he
    rw [← State.complete_eq_failedWith (SpliceOperands.ne_ok_of_check he)]
    exact hs
  · cases hcheck.symm.trans hnone

/-- Past the register checks every access lies in the buffer, so the lengths alone decide how SPLICE ends. -/
theorem exec_splice_of_ready {s : State} (hinv : Inv Config.hw s) (hready : s.spliceReady) :
    (s.spliceFits ∧ exec .splice s = .next s.afterSplice)
    ∨ (¬ s.spliceFits ∧ exec .splice s = .next { s.failedWith .fieldOvf with draws := s.lengthDraws }) := by
  obtain ⟨t, ht⟩ := exists_exec_eq_next hinv .splice
  obtain ⟨hv, -⟩ := id hready
  cases spliceEnd_of_exec ht with
  | noView hno => simp [hv] at hno
  | check _ hcheck => simp [(State.check_eq_none_iff_spliceReady hv).mpr hready] at hcheck
  | fieldOvf _ hover => exact .inr ⟨hover, ht⟩
  | done _ hfits => exact .inl ⟨hfits, ht⟩

theorem afterSplice_of_ok {s t : State} (h : exec .splice s = .next t) (hok : t.err = false) :
    s.spliceReady ∧ s.spliceFits ∧ t = s.afterSplice := by
  cases spliceEnd_of_exec h with
  | noView => cases hok
  | check => cases hok
  | fieldOvf => cases hok
  | done hready hfits => exact ⟨hready, hfits, rfl⟩

theorem exec_splice_of_fits {s : State} (hinv : Inv Config.hw s) (hready : s.spliceReady) (hfits : s.spliceFits) :
    exec .splice s = .next s.afterSplice := by
  obtain ⟨-, hs⟩ | ⟨hover, -⟩ := exec_splice_of_ready hinv hready
  · exact hs
  · exact absurd hfits hover

/-- Settles O43: each code is the first failing check's, and no later step completes with one of the three. -/
theorem spliceChecksItsOperands : Obligations.SpliceChecksItsOperands := by
  intro s hv
  rw [← s.spliceOperands_n]
  refine ⟨fun hlt => exec_splice_of_check hv (SpliceOperands.check_eq_spliceOffset_iff.mpr hlt),
    fun hoff hneg hlt => exec_splice_of_check hv (SpliceOperands.check_eq_spliceBefore_iff.mpr ⟨hoff, hneg, hlt⟩),
    fun hoff hpos hlt => exec_splice_of_check hv
      (SpliceOperands.check_eq_spliceCapacity_iff.mpr ⟨hoff, by omega, hpos, hlt⟩),
    fun t ht => ?_⟩
  cases spliceEnd_of_exec ht with
  | noView hno => simp [hv] at hno
  | check _ hcheck =>
    refine ⟨?_, ?_, ?_⟩ <;> rintro rfl
    · exact SpliceOperands.check_eq_spliceOffset_iff.mp hcheck
    · obtain ⟨-, hbefore⟩ := SpliceOperands.check_eq_spliceBefore_iff.mp hcheck
      exact hbefore
    · obtain ⟨-, -, hcap⟩ := SpliceOperands.check_eq_spliceCapacity_iff.mp hcheck
      exact hcap
  | fieldOvf => simp [State.failedWith]
  | done => simp [State.afterSplice]

/-- Settles O44: every error is raised before the first write (R156), after at most two reads. -/
theorem failedSpliceChangesNothing : Obligations.FailedSpliceChangesNothing := by
  intro s t ht herr
  cases spliceEnd_of_exec ht with
  | noView => rfl
  | check => rfl
  | fieldOvf => rfl
  | done => simp [State.afterSplice] at herr

/-- With length fields that agree with the view, every new length fits its field: the payload shrinks by no more than it
holds, and the frame stays in the buffer (R157). -/
theorem State.spliceFits_of_fieldsAgree {s : State} (hview : s.ViewConsistent Config.hw)
    (hagree : s.fieldsAgree Config.hw = true) (hready : s.spliceReady) : s.spliceFits := by
  obtain ⟨plen, ulen, hplen, hulen, heq, hfit, hle⟩ := fieldsAgree_iff.mp hagree
  obtain ⟨hp, hu, -⟩ := lengthFields_of_held hplen hulen
  obtain ⟨hcap, -⟩ := hview
  obtain ⟨-, hoff, hneg, hgrow⟩ := hready
  have hlt := Memory.halfAt_lt hplen
  have hlt' := Memory.halfAt_lt hulen
  simp only [spliceFits, hp, hu]
  omega

/-- Settles O45: past the register checks only the lengths decide, and those that agree with the view fit. -/
theorem spliceFieldOverflow : Obligations.SpliceFieldOverflow := by
  refine ⟨?_, fun s t hinv hagree ht hcode => ?_⟩
  · intro s hinv hready r q hover
    obtain ⟨hfits, -⟩ | ⟨-, hs⟩ := exec_splice_of_ready hinv hready
    · change (s.plenRead : Int) + _ < 0 ∨ 65535 < (s.plenRead : Int) + _ ∨ (s.ulenRead : Int) + _ < 0
        ∨ 65535 < (s.ulenRead : Int) + _ ∨ _ at hover
      omega
    · exact hs
  · cases spliceEnd_of_exec ht with
    | noView => cases hcode
    | check _ hcheck =>
      cases hcode
      simpa using SpliceOperands.code_of_check hcheck
    | fieldOvf hready hover =>
      obtain ⟨hv, -⟩ := id hready
      exact hover (State.spliceFits_of_fieldsAgree (hinv.view hv) hagree hready)
    | done => cases hcode

/-! ### What a successful SPLICE does (R158 to R161) -/

/-- The indices of the two length fields, which SPLICE writes after the move (R159). -/
abbrev State.inLengthField (s : State) (j : Nat) : Prop :=
  (s.ip6Pos.toNat + 4 ≤ j ∧ j < s.ip6Pos.toNat + 6) ∨ (s.udpPos.toNat + 4 ≤ j ∧ j < s.udpPos.toNat + 6)

/-- The move of R158 with the marks of R161, then the two length fields. -/
theorem State.byteAt_afterSplice {s : State} (hview : s.ViewConsistent Config.hw) (hready : s.spliceReady) (j : Nat)
    (hj : ¬ s.inLengthField j) :
    s.afterSplice.mem.byteAt j =
      let n := s.arg1.toInt
      let b := s.payloadPos.toNat + s.arg0.toNat
      let e := s.rawOffset.toNat + s.rawLength.toNat
      if (b : Int) + n ≤ j ∧ (j : Int) < e + n then s.mem.byteAt ((j : Int) - n).toNat
      else if (b ≤ j ∧ (j : Int) < b + n) ∨ ((e : Int) + n ≤ j ∧ j < e) then none
      else s.mem.byteAt j := by
  obtain ⟨-, -, -, -, hpos, hend, -⟩ := hview
  obtain ⟨-, hoff, hneg, -⟩ := hready
  have hbytes := Memory.byteAt_splice s.mem s.spliceOperands (by simp only [spliceOperands_b, spliceOperands_e]; omega)
    (by simp only [spliceOperands_b, spliceOperands_n]; omega) j
  simp only [spliceOperands_b, spliceOperands_e, spliceOperands_n] at hbytes
  refine Eq.trans ?_ hbytes
  refine (Memory.byteAt_store _ _ _ _).trans ((if_neg ?_).trans ((Memory.byteAt_store _ _ _ _).trans (if_neg ?_)))
  all_goals
    rw [beBytes_length]
    simp only [spliceOperands]
    omega

/-- SPLICE writes no register but these (R159, R160, R205). -/
theorem State.afterSplice_eq (s : State) :
    s.afterSplice =
      { s with
        mem := s.afterSplice.mem, rawLength := s.afterSplice.rawLength, payloadLen := s.afterSplice.payloadLen
        splicePos := s.afterSplice.splicePos, draws := s.lengthDraws
        errCode := .ok, err := false, done := true, phase := .idle } := rfl

theorem State.halfAt_plen_afterSplice {s : State} (hview : s.ViewConsistent Config.hw) (hfits : s.spliceFits) :
    s.afterSplice.mem.halfAt (s.ip6Pos.toNat + 4) = some ((s.plenRead : Int) + s.arg1.toInt).toNat := by
  obtain ⟨-, -, -, hudp, -⟩ := hview
  rw [← s.spliceOperands_n]
  exact (Memory.halfAt_store_of_disjoint (lo := s.udpPos.toNat + 4) (.inl (by omega))).trans
    (Memory.halfAt_store _ _ _ (by rw [s.spliceOperands_n]; omega))

theorem State.halfAt_ulen_afterSplice {s : State} (hfits : s.spliceFits) :
    s.afterSplice.mem.halfAt (s.udpPos.toNat + 4) = some ((s.ulenRead : Int) + s.arg1.toInt).toNat := by
  rw [← s.spliceOperands_n]
  exact Memory.halfAt_store _ _ _ (by rw [s.spliceOperands_n]; omega)

/-- Every integer SPLICE stores in a register fits it. -/
theorem State.registers_afterSplice {s : State} (hview : s.ViewConsistent Config.hw) (hready : s.spliceReady) :
    (s.afterSplice.rawLength.toNat : Int) = s.rawLength.toNat + s.arg1.toInt
    ∧ (s.afterSplice.payloadLen.toNat : Int) = s.payloadLen.toNat + s.arg1.toInt
    ∧ (s.afterSplice.splicePos.toNat : Int) =
      ((s.payloadPos.toNat + s.arg0.toNat : Nat) : Int) + min s.arg1.toInt 0 := by
  obtain ⟨hcap, hip, -, hudp, hpos, hend, -⟩ := hview
  obtain ⟨-, hoff, hneg, hgrow⟩ := hready
  change _ ≤ 65540 at hcap
  rw [← s.spliceOperands_n] at hneg hgrow ⊢
  exact ⟨toNat_ofInt_of_fits (z := s.rawLength.toNat + s.spliceOperands.n) (by omega) (by omega),
    toNat_ofInt_of_fits (z := s.payloadLen.toNat + s.spliceOperands.n) (by omega) (by omega),
    toNat_ofInt_of_fits (z := s.spliceOperands.b + min s.spliceOperands.n 0)
      (by rw [s.spliceOperands_b]; omega) (by rw [s.spliceOperands_b]; omega)⟩

/-- Settles O46: the draws are those of the two reads, and the moved bytes stay between the payload's start and the end of
the buffer. -/
theorem spliceMovesTheBytesAndTheLengths : Obligations.SpliceMovesTheBytesAndTheLengths := by
  intro s hinv hready n b e r q hp0 hp1 hu0 hu1 hlen
  obtain ⟨hv, hoff, hneg, hgrow⟩ := id hready
  have hview := hinv.view hv
  have hfits : s.spliceFits := ⟨hp0, hp1, hu0, hu1, hlen⟩
  obtain ⟨hrl, hpl, hpos⟩ := State.registers_afterSplice hview hready
  refine ⟨s.afterSplice, exec_splice_of_fits hinv hready hfits, s.afterSplice_eq, hrl, hpl, hpos,
    State.halfAt_plen_afterSplice hview hfits, State.halfAt_ulen_afterSplice hfits,
    fun j hip hudp => State.byteAt_afterSplice hview hready j (not_or.mpr ⟨hip, hudp⟩), ?_⟩
  obtain ⟨hcap, -, -, -, -, hend, -⟩ := hview
  change _ ≤ 65540 at hcap
  omega

/-- Two bytes that hold the same value are the same bytes. -/
theorem Memory.byteAt_eq_of_halfAt {m m' : Memory} {i v : Nat} (h : m.halfAt i = some v) (h' : m'.halfAt i = some v)
    {j : Nat} (hlo : i ≤ j) (hhi : j < i + 2) : m'.byteAt j = m.byteAt j := by
  rw [byteAt_of_bytesAt (bytesAt_of_halfAt h) j hlo hhi, byteAt_of_bytesAt (bytesAt_of_halfAt h') j hlo hhi]

/-- Buffers with the same lengths in the length fields hold the same bytes there. -/
theorem State.byteAt_eq_of_inLengthField {s : State} {m : Memory} {plen ulen : Nat}
    (hplen : s.mem.halfAt (s.ip6Pos.toNat + 4) = some plen) (hulen : s.mem.halfAt (s.udpPos.toNat + 4) = some ulen)
    (hplen' : m.halfAt (s.ip6Pos.toNat + 4) = some plen) (hulen' : m.halfAt (s.udpPos.toNat + 4) = some ulen)
    {j : Nat} (hj : s.inLengthField j) : m.byteAt j = s.mem.byteAt j := by
  obtain ⟨hlo, hhi⟩ | ⟨hlo, hhi⟩ := hj
  · exact Memory.byteAt_eq_of_halfAt hplen hplen' hlo hhi
  · exact Memory.byteAt_eq_of_halfAt hulen hulen' hlo hhi

section ZeroLength

variable {s : State} {plen ulen : Nat} (hinv : Inv Config.hw s) (hready : s.spliceReady) (hn : s.arg1.toInt = 0)
  (hplen : s.mem.halfAt (s.ip6Pos.toNat + 4) = some plen) (hulen : s.mem.halfAt (s.udpPos.toNat + 4) = some ulen)

include hinv hready hn hplen hulen

theorem spliceFits_of_zero : s.spliceFits := by
  obtain ⟨hv, -⟩ := hready
  obtain ⟨hp, hu, -⟩ := State.lengthFields_of_held hplen hulen
  obtain ⟨-, -, -, -, -, -, hlen⟩ := hinv.view hv
  have hp' := Memory.halfAt_lt hplen
  have hu' := Memory.halfAt_lt hulen
  rw [State.spliceFits, hp, hu]
  omega

/-- Moving by 0 moves no byte, and the length fields are stored again as they are (R163). -/
theorem mem_afterSplice_of_zero : s.afterSplice.mem = s.mem := by
  have hfits := spliceFits_of_zero hinv hready hn hplen hulen
  have hs := exec_splice_of_fits hinv hready hfits
  obtain ⟨hv, -⟩ := id hready
  obtain ⟨hp, hu, -⟩ := State.lengthFields_of_held hplen hulen
  have hplen' := State.halfAt_plen_afterSplice (hinv.view hv) hfits
  have hulen' := State.halfAt_ulen_afterSplice hfits
  rw [hp, hn, Int.add_zero, Int.toNat_natCast] at hplen'
  rw [hu, hn, Int.add_zero, Int.toNat_natCast] at hulen'
  refine Memory.ext_of_wf (exec_keeps_inv hinv hs).mem_wf hinv.mem_wf fun j => ?_
  by_cases hj : s.inLengthField j
  · exact State.byteAt_eq_of_inLengthField hplen hulen hplen' hulen' hj
  · rw [State.byteAt_afterSplice (hinv.view hv) hready j hj]
    simp only [hn, Int.add_zero, Int.sub_zero, Int.toNat_natCast]
    split
    · rfl
    · rw [if_neg (by omega)]

end ZeroLength

/-- Settles O49: without a view and past the payload the checks fail; else every length changes by 0. -/
theorem zeroLengthSpliceOnlyReports : Obligations.ZeroLengthSpliceOnlyReports := by
  intro s h0
  have hn : s.arg1.toInt = 0 := by rw [h0]; rfl
  refine ⟨fun hv => ?_, fun hv hlt => exec_splice_of_check hv (SpliceOperands.check_eq_spliceOffset_iff.mpr hlt), ?_⟩
  · obtain ⟨hnoView, -⟩ := commandsNeedAView
    obtain ⟨-, hsplice, -⟩ := hnoView s hv
    exact hsplice
  · intro plen ulen hinv hv hoff hplen hulen
    have hready : s.spliceReady := ⟨hv, hoff, by omega, by omega⟩
    obtain ⟨-, -, hdraws⟩ := State.lengthFields_of_held hplen hulen
    obtain ⟨hcap, -, -, -, -, hend, -⟩ := hinv.view hv
    change _ ≤ 65540 at hcap
    obtain ⟨hrl, hpl, hpos⟩ := State.registers_afterSplice (hinv.view hv) hready
    have hrl' : s.afterSplice.rawLength = s.rawLength := BitVec.eq_of_toNat_eq (by omega)
    have hpl' : s.afterSplice.payloadLen = s.payloadLen := BitVec.eq_of_toNat_eq (by omega)
    have hpos' : s.afterSplice.splicePos = s.payloadPos + s.arg0 :=
      BitVec.eq_of_toNat_eq (by rw [BitVec.toNat_add]; omega)
    rw [exec_splice_of_fits hinv hready (spliceFits_of_zero hinv hready hn hplen hulen), s.afterSplice_eq,
      mem_afterSplice_of_zero hinv hready hn hplen hulen, hrl', hpl', hpos', hdraws]

/-! ### The payload (R151, R164) -/

/-- The `k` bytes from index `i` on, nothing standing for `UNSPEC`. -/
def Memory.slots (m : Memory) (i k : Nat) : List (Option Byte) := (List.range k).map (fun l => m.byteAt (i + l))

theorem State.payload_eq_slots (s : State) : s.payload = s.mem.slots s.payloadPos.toNat s.payloadLen.toNat := rfl

@[simp] theorem Memory.length_slots (m : Memory) (i k : Nat) : (m.slots i k).length = k := by simp [slots]

theorem Memory.slots_add (m : Memory) (i k l : Nat) : m.slots i (k + l) = m.slots i k ++ m.slots (i + k) l := by
  simp [slots, List.range_add, Nat.add_assoc]

theorem Memory.take_slots {m : Memory} {i k l : Nat} (h : k ≤ l) : (m.slots i l).take k = m.slots i k := by
  obtain ⟨l, rfl⟩ := Nat.exists_eq_add_of_le h
  rw [slots_add, List.take_left' (length_slots _ _ _)]

theorem Memory.drop_slots {m : Memory} {i k l : Nat} (h : k ≤ l) : (m.slots i l).drop k = m.slots (i + k) (l - k) := by
  obtain ⟨l, rfl⟩ := Nat.exists_eq_add_of_le h
  rw [slots_add, List.drop_left' (length_slots _ _ _), Nat.add_sub_cancel_left]

/-- Memories that agree (after a displacement) on a range have the same slots there. -/
theorem Memory.slots_congr {m m' : Memory} {i i' k : Nat} (h : ∀ l < k, m.byteAt (i + l) = m'.byteAt (i' + l)) :
    m.slots i k = m'.slots i' k :=
  List.map_congr_left fun l hl => h l (List.mem_range.mp hl)

theorem Memory.slots_unspec {m : Memory} {i k : Nat} (h : ∀ l < k, m.byteAt (i + l) = none) :
    m.slots i k = List.replicate k none := by
  rw [List.eq_replicate_iff]
  refine ⟨length_slots _ _ _, fun b hb => ?_⟩
  obtain ⟨l, hl, rfl⟩ := List.mem_map.mp hb
  exact h l (List.mem_range.mp hl)

section Payload

variable {s : State} (hview : s.ViewConsistent Config.hw) (hready : s.spliceReady)

include hview hready

/-- What stands before the edit of a splice stays (R164). -/
theorem slots_afterSplice_before {k : Nat} (hk : k ≤ s.arg0.toNat) (hk' : (k : Int) ≤ s.arg0.toNat + s.arg1.toInt) :
    s.afterSplice.mem.slots s.payloadPos.toNat k = s.mem.slots s.payloadPos.toNat k := by
  refine Memory.slots_congr fun l hl => ?_
  obtain ⟨-, -, -, hudp, hpos, -⟩ := id hview
  rw [State.byteAt_afterSplice hview hready _ (by simp only [State.inLengthField]; omega)]
  dsimp only
  rw [if_neg (by omega), if_neg (by omega)]

/-- What stands from the boundary on moves by `ARG1` (R158). -/
theorem slots_afterSplice_from {i k : Nat} (hi : (i : Int) = s.payloadPos.toNat + s.arg0.toNat + s.arg1.toInt)
    (hk : s.arg0.toNat + k ≤ s.payloadLen.toNat) :
    s.afterSplice.mem.slots i k = s.mem.slots (s.payloadPos.toNat + s.arg0.toNat) k := by
  refine Memory.slots_congr fun l hl => ?_
  obtain ⟨-, -, -, hudp, hpos, hend, -⟩ := id hview
  obtain ⟨-, -, hneg, -⟩ := id hready
  rw [State.byteAt_afterSplice hview hready _ (by simp only [State.inLengthField]; omega)]
  dsimp only
  rw [if_pos (by omega)]
  congr 1
  omega

/-- The room an insertion opens is `UNSPEC` (R161). -/
theorem slots_afterSplice_room {n : Nat} (hn : s.arg1.toInt = n) :
    s.afterSplice.mem.slots (s.payloadPos.toNat + s.arg0.toNat) n = List.replicate n none := by
  refine Memory.slots_unspec fun l hl => ?_
  obtain ⟨-, -, -, hudp, hpos, -⟩ := id hview
  rw [State.byteAt_afterSplice hview hready _ (by simp only [State.inLengthField]; omega)]
  dsimp only
  rw [if_neg (by omega), if_pos (.inl (by omega))]

end Payload

/-- Settles O47: the new payload is cut where the parts of the old one and the room meet. -/
theorem spliceEditsThePayload : Obligations.SpliceEditsThePayload := by
  intro s t hinv hv ht herr
  have hview := hinv.view hv
  obtain ⟨hready, -, rfl⟩ := afterSplice_of_ok ht herr
  obtain ⟨-, hoff, hneg, -⟩ := id hready
  obtain ⟨-, hlen, -⟩ := State.registers_afterSplice hview hready
  have hpos : s.afterSplice.payloadPos = s.payloadPos := rfl
  simp only [State.payload_eq_slots, hpos, Memory.drop_slots hoff]
  refine ⟨fun hn => ?_, fun hn => ?_⟩
  · obtain ⟨n, hn⟩ := Int.eq_ofNat_of_zero_le hn
    rw [show s.afterSplice.payloadLen.toNat = s.arg0.toNat + n + (s.payloadLen.toNat - s.arg0.toNat) by omega,
      Memory.slots_add, Memory.slots_add, hn, Int.toNat_natCast, Memory.take_slots hoff,
      slots_afterSplice_before hview hready le_rfl (by omega), slots_afterSplice_room hview hready hn,
      slots_afterSplice_from hview hready (by omega) (by omega)]
  · rw [show s.afterSplice.payloadLen.toNat = s.arg0.toNat - (-s.arg1.toInt).toNat
        + (s.payloadLen.toNat - s.arg0.toNat) by omega, Memory.slots_add, Memory.take_slots (by omega),
      slots_afterSplice_before hview hready (by omega) (by omega),
      slots_afterSplice_from hview hready (by omega) (by omega)]

/-! ### A deletion undoes an insertion (R165) -/

/-- The state after a SPLICE, with the host's operands for the next one. -/
def State.splicedThen (s : State) (off n : Word) : State := { s.afterSplice with arg0 := off, arg1 := n }

section SplicedThen

variable (s : State) (off n : Word)

@[simp] theorem State.splicedThen_mem : (s.splicedThen off n).mem = s.afterSplice.mem := rfl
@[simp] theorem State.splicedThen_viewValid : (s.splicedThen off n).viewValid = s.viewValid := rfl
@[simp] theorem State.splicedThen_arg0 : (s.splicedThen off n).arg0 = off := rfl
@[simp] theorem State.splicedThen_arg1 : (s.splicedThen off n).arg1 = n := rfl
@[simp] theorem State.splicedThen_rawOffset : (s.splicedThen off n).rawOffset = s.rawOffset := rfl
@[simp] theorem State.splicedThen_rawLength : (s.splicedThen off n).rawLength = s.afterSplice.rawLength := rfl
@[simp] theorem State.splicedThen_payloadPos : (s.splicedThen off n).payloadPos = s.payloadPos := rfl
@[simp] theorem State.splicedThen_payloadLen : (s.splicedThen off n).payloadLen = s.afterSplice.payloadLen := rfl

end SplicedThen

theorem toInt_ofNat_of_lt {n : Nat} (h : n < 2 ^ 31) : (BitVec.ofNat 32 n).toInt = n := by
  rw [← BitVec.ofInt_natCast, BitVec.toInt_ofInt_eq_self] <;> omega

theorem toInt_neg_ofNat_of_lt {n : Nat} (h : n < 2 ^ 31) : (-BitVec.ofNat 32 n).toInt = -n := by
  rw [← BitVec.ofInt_natCast, ← BitVec.ofInt_neg, BitVec.toInt_ofInt_eq_self] <;> omega

section Inverse

variable {s : State} {off del : Word} {n plen ulen : Nat} (hinv : Inv Config.hw s)
  (hready : s.spliceReady) (hfits : s.spliceFits)
  (hplen : s.mem.halfAt (s.ip6Pos.toNat + 4) = some plen) (hulen : s.mem.halfAt (s.udpPos.toNat + 4) = some ulen)
  (hins : s.arg1.toInt = n) (hoff : off.toNat = s.arg0.toNat + n) (hdel : del.toInt = -n)

include hinv hready hfits in
theorem inv_splicedThen : Inv Config.hw (s.splicedThen off del) :=
  show Inv Config.hw s.afterSplice from exec_keeps_inv hinv (exec_splice_of_fits hinv hready hfits)

include hinv hready hins hoff hdel

theorem spliceReady_splicedThen : (s.splicedThen off del).spliceReady := by
  obtain ⟨hv, hle, -⟩ := id hready
  obtain ⟨-, hlen, -⟩ := State.registers_afterSplice (hinv.view hv) hready
  simp only [State.spliceReady, State.splicedThen_viewValid, State.splicedThen_arg0, State.splicedThen_arg1,
    State.splicedThen_payloadLen]
  exact ⟨hv, by omega, by omega, by omega⟩

include hfits

/-- The deletion takes back the move, and the vacated tail stays `UNSPEC` (R161). -/
theorem byteAt_afterSplice_splicedThen (j : Nat) (hj : ¬ s.inLengthField j) :
    (s.splicedThen off del).afterSplice.mem.byteAt j =
      if s.rawOffset.toNat + s.rawLength.toNat ≤ j ∧ j < s.rawOffset.toNat + s.rawLength.toNat + n then none
      else s.mem.byteAt j := by
  obtain ⟨hv, hle, -⟩ := id hready
  have hview := hinv.view hv
  have hready' := spliceReady_splicedThen hinv hready hins hoff hdel
  obtain ⟨hrl, hpl, -⟩ := State.registers_afterSplice hview hready
  obtain ⟨-, -, -, hudp, hpos, hend, -⟩ := id hview
  have hfst := State.byteAt_afterSplice hview hready
  rw [State.byteAt_afterSplice ((inv_splicedThen hinv hready hfits).view hv) hready' j hj]
  simp only [State.splicedThen_mem, State.splicedThen_arg0, State.splicedThen_arg1, State.splicedThen_rawOffset,
    State.splicedThen_rawLength, State.splicedThen_payloadPos, hdel]
  simp only [hins] at hfst hrl hpl
  by_cases hmoved : s.payloadPos.toNat + s.arg0.toNat ≤ j ∧ j < s.rawOffset.toNat + s.rawLength.toNat
  · rw [if_pos (by omega), if_neg (by omega), hfst _ (by simp only [State.inLengthField]; omega), if_pos (by omega)]
    congr 1
    omega
  · rw [if_neg (by omega)]
    by_cases htail : s.rawOffset.toNat + s.rawLength.toNat ≤ j ∧ j < s.rawOffset.toNat + s.rawLength.toNat + n
    · rw [if_pos (by omega), if_pos htail]
    · rw [if_neg (by omega), if_neg htail, hfst j hj, if_neg (by omega), if_neg (by omega)]

include hplen hulen

/-- The deletion reads the lengths the insertion wrote. -/
theorem lengthFields_splicedThen :
    (s.splicedThen off del).plenRead = plen + n ∧ (s.splicedThen off del).ulenRead = ulen + n := by
  obtain ⟨hv, -⟩ := hready
  obtain ⟨hp, hu, -⟩ := State.lengthFields_of_held hplen hulen
  have hplen' := State.halfAt_plen_afterSplice (hinv.view hv) hfits
  have hulen' := State.halfAt_ulen_afterSplice hfits
  obtain ⟨hp', hu', -⟩ := State.lengthFields_of_held (s := s.splicedThen off del) hplen' hulen'
  omega

theorem spliceFits_splicedThen : (s.splicedThen off del).spliceFits := by
  obtain ⟨hv, -⟩ := id hready
  obtain ⟨hp, hu⟩ := lengthFields_splicedThen hinv hready hfits hplen hulen hins hoff hdel
  obtain ⟨-, hlen, -⟩ := State.registers_afterSplice (hinv.view hv) hready
  obtain ⟨-, -, -, -, hmax⟩ := hfits
  have hp' := Memory.halfAt_lt hplen
  have hu' := Memory.halfAt_lt hulen
  simp only [State.spliceFits, hp, hu, State.splicedThen_arg1, State.splicedThen_payloadLen]
  omega

theorem halfAt_afterSplice_splicedThen :
    (s.splicedThen off del).afterSplice.mem.halfAt (s.ip6Pos.toNat + 4) = some plen
    ∧ (s.splicedThen off del).afterSplice.mem.halfAt (s.udpPos.toNat + 4) = some ulen := by
  obtain ⟨hv, -⟩ := id hready
  have hfits' := spliceFits_splicedThen hinv hready hfits hplen hulen hins hoff hdel
  obtain ⟨hp, hu⟩ := lengthFields_splicedThen hinv hready hfits hplen hulen hins hoff hdel
  have hundo : ∀ l : Nat, (((l + n : Nat) : Int) + -n).toNat = l := fun l => by omega
  have hplen' := State.halfAt_plen_afterSplice ((inv_splicedThen hinv hready hfits).view hv) hfits'
  have hulen' := State.halfAt_ulen_afterSplice hfits'
  rw [hp, State.splicedThen_arg1, hdel, hundo] at hplen'
  rw [hu, State.splicedThen_arg1, hdel, hundo] at hulen'
  exact ⟨hplen', hulen'⟩

/-- What R165 asks of the two commands, from the state before the insertion. -/
theorem exec_splice_undone :
    let u := (s.splicedThen off del).afterSplice
    exec .splice (s.splicedThen off del) = .next u
    ∧ u.rawLength = s.rawLength ∧ u.payloadLen = s.payloadLen
    ∧ u.mem.halfAt (s.ip6Pos.toNat + 4) = some plen ∧ u.mem.halfAt (s.udpPos.toNat + 4) = some ulen
    ∧ u.splicePos.toNat = s.payloadPos.toNat + s.arg0.toNat
    ∧ (∀ j, j < s.rawOffset.toNat + s.rawLength.toNat → u.mem.byteAt j = s.mem.byteAt j)
    ∧ (∀ j, s.rawOffset.toNat + s.rawLength.toNat ≤ j → j < s.rawOffset.toNat + s.rawLength.toNat + n →
        u.mem.byteAt j = none) := by
  dsimp only
  obtain ⟨hv, -⟩ := id hready
  have hinv' : Inv Config.hw (s.splicedThen off del) := inv_splicedThen hinv hready hfits
  have hready' := spliceReady_splicedThen hinv hready hins hoff hdel
  have hfits' := spliceFits_splicedThen hinv hready hfits hplen hulen hins hoff hdel
  obtain ⟨hplen', hulen'⟩ := halfAt_afterSplice_splicedThen hinv hready hfits hplen hulen hins hoff hdel
  obtain ⟨hrl, hpl, -⟩ := State.registers_afterSplice (hinv.view hv) hready
  obtain ⟨hrl', hpl', hpos'⟩ := State.registers_afterSplice (hinv'.view hv) hready'
  simp only [State.splicedThen_arg1, State.splicedThen_arg0, State.splicedThen_rawLength, State.splicedThen_payloadLen,
    State.splicedThen_payloadPos, hdel] at hrl' hpl' hpos'
  have hbyte := byteAt_afterSplice_splicedThen hinv hready hfits hins hoff hdel
  refine ⟨exec_splice_of_fits hinv' hready' hfits', BitVec.eq_of_toNat_eq (by omega), BitVec.eq_of_toNat_eq (by omega),
    hplen', hulen', by omega, fun j hlt => ?_, fun j hge hlt => ?_⟩
  · by_cases hj : s.inLengthField j
    · exact State.byteAt_eq_of_inLengthField hplen hulen hplen' hulen' hj
    · rw [hbyte j hj, if_neg (by omega)]
  · obtain ⟨-, hip, -, hudp, hpos, hend, -⟩ := hinv.view hv
    rw [hbyte j (by simp only [State.inLengthField]; omega), if_pos ⟨hge, hlt⟩]

end Inverse

/-- Settles O48: the deletion's operands are the insertion's end and its negated length. -/
theorem spliceIsInvertible : Obligations.SpliceIsInvertible := by
  intro s t off n plen ulen hinv hv hn hn31 hoff31 hplen hulen ht herr
  obtain ⟨hready, hfits, rfl⟩ := afterSplice_of_ok ht herr
  have hoff : (BitVec.ofNat 32 (off + n)).toNat = (BitVec.ofNat 32 off).toNat + n := by
    simp only [BitVec.toNat_ofNat]
    omega
  obtain ⟨hrun, hrl, hpl, hplen', hulen', hpos, hkeep, htail⟩ := exec_splice_undone
    (s := { s with arg0 := BitVec.ofNat 32 off, arg1 := BitVec.ofNat 32 n }) hinv hready hfits hplen hulen
    (toInt_ofNat_of_lt hn31) hoff (toInt_neg_ofNat_of_lt hn31)
  refine ⟨_, hrun, rfl, rfl, hrl, hpl, hplen', hulen', hpos.trans ?_, fun j _ hlt => hkeep j hlt, htail⟩
  simp only [BitVec.toNat_ofNat]
  omega

end Sys2Proof.Machine
end

section
/-! SEND writes the checksum of the view and hands over the valid range; a second SEND hands over the same bytes
(`43_send.md` R181 to R187). -/
namespace Sys2Proof.Machine

/-! ### What SEND hands over -/

/-- With a valid view SEND embeds the checksum, reads the frame (R182) and completes by the transmitter's answer (R184): its
accesses lie in the buffer (R69). -/
theorem sendOn_of_view {c : Config} {s : State} (h : Inv c s) (hv : s.viewValid = true) (o : TxOutcome) :
    ∃ d bytes left, bytes = s.embedChecksum.frameBytes.1
      ∧ sendOn c o s = .next (State.complete
          { s.embedChecksum with tx := .idle, draws := d, obs := .frame bytes o left :: s.embedChecksum.obs }
          (if o = .ok then .ok else .txError))
      ∧ (o = .ok → left = bytes) ∧ left.Sublist bytes := by
  obtain ⟨hno, -⟩ | ⟨-, hout, -⟩ | ⟨-, -, bytes, d, hread, hs⟩ := sendOn_cases c o s
  · simp [hv] at hno
  · simp [(h.view hv).sendInBuffer] at hout
  · have hframe : bytes = s.embedChecksum.frameBytes.1 := congrArg Prod.fst hread
    cases o with
    | ok => exact ⟨_, bytes, _, hframe, hs, fun _ => rfl, List.Sublist.refl _⟩
    | fail => exact ⟨_, bytes, _, hframe, hs, nofun, leftBytes_sublist _ _ _⟩

/-- Settles O50: the checksum is embedded as CSUM embeds it, and the frame is read after that. -/
theorem sendHandsOverTheFrame : Obligations.SendHandsOverTheFrame := by
  refine fun s => ⟨fun hv => ?_, fun hinv hv => ?_⟩
  · obtain ⟨hnoView, -⟩ := commandsNeedAView
    obtain ⟨-, -, hsend⟩ := hnoView s hv
    exact hsend
  · obtain ⟨d, bytes, left, hframe, hrun, hleft⟩ := sendOn_of_view hinv hv (Config.txOutcome s.draws)
    obtain ⟨k, d', hembed, hcases⟩ := s.embedChecksum_cases
    obtain ⟨-, -, -, -, -, htx⟩ := hinv
    rw [hembed] at hframe hrun
    refine ⟨k, _, d, bytes, left, hrun.trans ?_, ?_, halfWritten_store _ _ _, ?_, fun i b hi hb => ?_, hleft⟩
    · cases Config.txOutcome s.draws <;> simp [State.complete, htx]
    · exact hcases.imp (fun h => h.left) (fun h => ⟨h.left, h.right.left⟩)
    · exact hframe ▸ Memory.readBytes_length _ _ _ _
    · exact hframe ▸ Memory.readBytes_getElem? hi hb

/-! ### A second SEND -/

/-- A frame of held bytes has a computed checksum: the view lies in the valid range (R45). -/
theorem State.ViewConsistent.checksumAt_of_held {c : Config} {s : State} {frame : List Byte} (h : s.ViewConsistent c)
    (hframe : s.mem.bytesAt s.rawOffset.toNat s.rawLength.toNat = some frame) :
    ∃ k, s.mem.checksumAt s.ip6Pos.toNat s.udpPos.toNat s.payloadLen.toNat = some k := by
  obtain ⟨-, hip, -, hudp, hpos, hend, -⟩ := h
  have hheld : ∀ i n, s.rawOffset.toNat ≤ i → i + n ≤ s.rawOffset.toNat + s.rawLength.toNat →
      ∃ bs, s.mem.bytesAt i n = some bs := fun i n hlo hhi =>
    Memory.bytesAt_isSome fun j _ _ => Memory.isSome_byteAt_of_bytesAt hframe (by omega) (by omega)
  obtain ⟨src, hsrc⟩ := hheld (s.ip6Pos.toNat + 8) 16 (by omega) (by omega)
  obtain ⟨dst, hdst⟩ := hheld (s.ip6Pos.toNat + 24) 16 (by omega) (by omega)
  obtain ⟨hdr, hhdr⟩ := hheld s.udpPos.toNat 6 (by omega) (by omega)
  obtain ⟨pay, hpay⟩ := hheld (s.udpPos.toNat + 8) s.payloadLen.toNat (by omega) (by omega)
  exact ⟨_, Memory.checksumAt_eq_some.mpr ⟨src, dst, hdr, pay, hsrc, hdst, hhdr, hpay, rfl⟩⟩

section HalfWritten

variable {m m' m'' : Memory} {v : Half}

/-- The checksum field is none of the bytes the checksum reads (R138). -/
theorem halfWritten.checksumAt_eq {ip udp n : Nat} (h : halfWritten m m' (udp + 6) v) (hudp : udp = ip + 40) :
    m'.checksumAt ip udp n = m.checksumAt ip udp n :=
  Memory.checksumAt_of_reads_eq fun j hj => by
    simp only [checksumReads] at hj
    rw [h j, if_neg (by omega), if_neg (by omega)]

/-- Writing the same value again changes nothing. -/
theorem halfWritten.eq_of_again {cap i : Nat} (h : halfWritten m m' i v) (h' : halfWritten m' m'' i v)
    (hm' : m'.wf cap) (hm'' : m''.wf cap) : m'' = m' := by
  refine Memory.ext_of_wf hm'' hm' fun j => ?_
  rw [h' j, h j]
  split
  · rfl
  · split <;> rfl

/-- A write leaves no more bytes `UNSPEC` than there were. -/
theorem halfWritten.isSome_byteAt {i j : Nat} (h : halfWritten m m' i v) (hj : (m.byteAt j).isSome = true) :
    (m'.byteAt j).isSome = true := by
  rw [h j]
  split
  · rfl
  · split
    · rfl
    · exact hj

end HalfWritten

/-- A byte string that has every held byte of a range is the string held there, if none is `UNSPEC`. -/
theorem Memory.eq_of_bytesAt {m : Memory} {i n : Nat} {bs bytes : List Byte} (hbs : m.bytesAt i n = some bs)
    (hlen : bytes.length = n) (h : ∀ j b, j < n → m.byteAt (i + j) = some b → bytes[j]? = some b) : bytes = bs := by
  refine List.ext_getElem (hlen.trans (Memory.bytesAt_length hbs).symm) fun j hj hj' => ?_
  have hbyte : m.byteAt (i + j) = some bs[j] := by
    rw [Memory.byteAt_of_bytesAt hbs _ (by omega) (by omega), Nat.add_sub_cancel_left, List.getElem?_eq_getElem hj']
  exact (List.getElem_eq_iff hj).mpr (h j _ (hlen ▸ hj) hbyte)

/-- Settles O51: the first SEND writes the checksum over held bytes, so the second computes the same one, stores what is
held already and reads the same frame. -/
theorem sendAgainSendsTheSameFrame : Obligations.SendAgainSendsTheSameFrame := by
  intro s t hinv hv hheld ht
  obtain ⟨frame, hframe⟩ := Option.isSome_iff_exists.mp hheld
  have hinv' := exec_keeps_inv hinv ht
  obtain ⟨-, hsend⟩ := sendHandsOverTheFrame s
  obtain ⟨k, m, d, bytes, left, hrun, hk, hwritten, hlen, hbytes, -⟩ := hsend hinv hv
  cases hrun.symm.trans ht
  obtain ⟨-, hsend'⟩ := sendHandsOverTheFrame _
  obtain ⟨k', m', d', bytes', left', hrun', hk', hwritten', hlen', hbytes', -⟩ := hsend' hinv' hv
  obtain ⟨-, -, -, hudp, -⟩ := hinv.view hv
  obtain ⟨k₀, hk₀⟩ := (hinv.view hv).checksumAt_of_held hframe
  obtain rfl : k₀ = k := by simpa [hk₀] using hk
  obtain rfl : k₀ = k' := by simpa [(hwritten.checksumAt_eq hudp).trans hk₀] using hk'
  have hmem : m' = m := hwritten.eq_of_again hwritten' hinv'.mem_wf (exec_keeps_inv hinv' hrun').mem_wf
  subst hmem
  obtain ⟨frame', hframe'⟩ := Memory.bytesAt_isSome fun j hlo hhi =>
    hwritten.isSome_byteAt (Memory.isSome_byteAt_of_bytesAt hframe hlo hhi)
  obtain rfl := Memory.eq_of_bytesAt hframe' hlen hbytes
  obtain rfl := Memory.eq_of_bytesAt hframe' hlen' hbytes'
  exact ⟨_, _, _, _, _, _, hrun', rfl, rfl, rfl, rfl⟩

end Sys2Proof.Machine
end

section
/-! Commands always complete (`60_exceptions.md` R205), and the interrupt output follows `DONE` and `IE` (R208). -/
namespace Sys2Proof.Machine

/-! ### What a completed command keeps -/

/-- R26, R30, R31, R34: the registers no command writes, the host's inputs, and the transmitter at rest (R44). -/
theorem CompletesOn.frame {s t : State} (h : CompletesOn s t) :
    t.ie = s.ie ∧ t.arg0 = s.arg0 ∧ t.arg1 = s.arg1 ∧ t.rxMeta = s.rxMeta ∧ t.inputs = s.inputs
      ∧ (s.tx = .idle → t.tx = .idle) := by
  obtain ⟨e, mem, ro, rl, vv, ip, udp, pp, pl, cs, sp, tx, d, o, rfl, htx⟩ := h
  exact ⟨rfl, rfl, rfl, rfl, rfl, htx⟩

/-- Settles O23: the invariant keeps every access in the buffer, so the command goes on, and what goes on completes. -/
theorem everyCommandCompletes : Obligations.EveryCommandCompletes := by
  intro i s hinv
  obtain ⟨t, ht⟩ := exists_exec_eq_next hinv i
  obtain ⟨hbusy, hdone, hovr, herr⟩ := (exec_completes ht).flags
  obtain ⟨hie, harg0, harg1, hmeta, hinputs, htx⟩ := (exec_completes ht).frame
  obtain ⟨-, -, -, -, -, hidle⟩ := hinv
  exact ⟨t, ht, hbusy, hdone, herr, hovr, hie, harg0, harg1, hmeta, hinputs, htx hidle⟩

/-! ### The level `irq_done` (R208) -/

theorem State.irqDone_eq_true_iff (s : State) : s.irqDone = true ↔ s.done = true ∧ s.ie = true :=
  Bool.and_eq_true_iff

theorem State.irqDone_of_not_done {s : State} (h : s.done = false) : s.irqDone = false := by
  simp [State.irqDone, h]

theorem State.irqDone_of_not_ie {s : State} (h : s.ie = false) : s.irqDone = false := by
  simp [State.irqDone, h]

/-- A host write has one outcome: a register write leads to what `regWrite` makes of it, and to nothing else. -/
theorem State.WriteLeadsTo.eq_regWrite {s t : State} {r : Reg} {v : Word}
    (h : s.WriteLeadsTo (BitVec.ofNat 18 r.offset) v t) : t = s.regWrite r v :=
  Host.Outcome.next.inj (h.symm.trans (s.writeLeadsTo_reg r v))

/-- Settles O24: three of the events clear `DONE`, the write to `CTRL` clears `IE`. -/
theorem interruptLevel : Obligations.InterruptLevel := by
  refine ⟨State.irqDone_eq_true_iff, fun s t v h hv => ?_, fun s t v hidle h => ?_, fun s t v h hv => ?_,
    fun s t h => ?_⟩
  · obtain rfl : t = s.writeStatus v := State.WriteLeadsTo.eq_regWrite (r := .status) h
    exact State.irqDone_of_not_done (by simp [hv])
  · obtain rfl : t = s.idleWrite (s.acceptCmd v) := State.WriteLeadsTo.eq_regWrite (r := .cmd) h
    exact State.irqDone_of_not_done (by simp [hidle])
  · obtain rfl : t = s.writeCtrl v := State.WriteLeadsTo.eq_regWrite (r := .ctrl) h
    exact ⟨State.irqDone_of_not_ie hv, s.writeCtrl_done v⟩
  · obtain ⟨d, o, hreset⟩ := resetEvent_eq s
    cases h
    exact State.irqDone_of_not_done (congrArg State.done hreset)

end Sys2Proof.Machine
end

section
/-! A reset gives every piece of state its reset value; of a SEND it cuts off a part of the frame may have left
(`70_reset_and_hazards.md` R230 to R232). -/
namespace Sys2Proof.Machine

/-! ### Which command a reset cuts off -/

/-- The word `0x00000004` is the only one a SEND in progress was accepted with (R82, R85). -/
theorem State.sendInProgress_eq_true_iff (s : State) :
    s.sendInProgress = true ↔ s.phase = .busy (encode .send) ∧ s.viewValid = true := by
  unfold State.sendInProgress
  split
  case h_1 hidle => simp [hidle]
  case h_2 w hbusy =>
    rw [hbusy, Phase.busy.injEq, ← decode_eq_ok_iff]
    split
    case h_1 hsend => simp [hsend]
    case h_2 hother => exact iff_of_false Bool.false_ne_true fun ⟨hsend, _⟩ => hother hsend

/-! ### The two cases of a reset -/

/-- With no SEND to cut off a reset draws nothing and records nothing. -/
theorem resetEvent_of_not_sendInProgress {s : State} (h : ¬ s.sendInProgress = true) :
    resetEvent s = { State.reset with draws := s.draws, inputs := s.inputs, obs := s.obs } :=
  if_neg h

/-- A SEND cut off by a reset has handed over some of the frame's bytes, in the frame's order (R232). -/
theorem resetEvent_of_sendInProgress {s : State} (h : s.sendInProgress = true) :
    ∃ d left, left.Sublist s.embedChecksum.frameBytes.1
      ∧ resetEvent s = { State.reset with draws := d, inputs := s.inputs, obs := .aborted left :: s.obs } :=
  ⟨_, _, leftBytes_sublist _ _ _, if_pos h⟩

/-- The frame is the whole valid range, which the checksum leaves where it is (R182). -/
theorem State.frameBytes_embedChecksum_length (s : State) :
    s.embedChecksum.frameBytes.1.length = s.rawLength.toNat := by
  obtain ⟨k, d, hembed, -⟩ := s.embedChecksum_cases
  rw [hembed]
  exact Memory.readBytes_length _ _ _ _

/-- Settles O21: the reset step is the reset event, which has two cases; `DONE` is 0 in the reset state. -/
theorem resetEventResetsEverything : Obligations.ResetEventResetsEverything := by
  intro s
  have hstep : step { s with inputs := .rst :: s.inputs } = .next (resetEvent s) := rfl
  have hsending : s.sendInProgress = true ↔ s.phase = .busy 0x00000004 ∧ s.viewValid = true :=
    s.sendInProgress_eq_true_iff
  rw [hstep]
  by_cases h : s.sendInProgress = true
  · obtain ⟨d, left, hleft, hreset⟩ := resetEvent_of_sendInProgress h
    exact ⟨d, _, congrArg _ hreset, State.irqDone_of_not_done rfl, fun hno => absurd (hsending.mp h) hno,
      fun _ _ => ⟨s.frameBytes_embedChecksum_length, left, rfl, hleft⟩⟩
  · exact ⟨s.draws, s.obs, congrArg _ (resetEvent_of_not_sendInProgress h), State.irqDone_of_not_done rfl,
      fun _ => ⟨rfl, rfl⟩, fun hphase hv => absurd (hsending.mpr ⟨hphase, hv⟩) h⟩

end Sys2Proof.Machine
end
